-- ==== Sys2Proof/Word.lean ====
section
/-! DEFINITION. The widths of 00_scope.md R6 and R8: one bit, one byte, one command word. -/

namespace Sys2Proof

/-- `Bit` is {0, 1} (R8). -/
abbrev Bit := BitVec 1

/-- A row byte, a column byte, the ADDR register, the counter RC (R6). -/
abbrev Byte := BitVec 8

/-- A nine-bit row or column index: a byte with the A8 level on top (R31). -/
abbrev Index := BitVec 9

/-- The five control lines, bits 4 down to 0: ERR_n RE_n WE_n CAS_n RAS_n (R17). -/
abbrev Lines := BitVec 5

/-- One command (R55). -/
abbrev CmdWord := BitVec 32

end Sys2Proof
end

