-- ==== Sys2Proof/Syntax.lean ====
section
/-! DEFINITION. The driver's eight operations (30_encoding.md R57), one constructor per row of the opcode table,
the refusal codes of the decoder (60_exceptions.md R93), and the pseudo-instructions (R62). -/

namespace Sys2Proof

/-- The decoded commands. Operands are those of R56: bytes, optional high bits, the count N and the bit V. -/
inductive Instr where
  /-- IDLE (R86). -/
  | idle
  /-- READ row, col, rh, ch (R77). -/
  | read (row col : Byte) (rh ch : Option Bit)
  /-- WRITE row, col, rh, ch (R79). -/
  | write (row col : Byte) (rh ch : Option Bit)
  /-- REFRESH, its row taken from RC (R82). -/
  | refresh
  /-- RASONLY row, rh (R84). -/
  | rasonly (row : Byte) (rh : Option Bit)
  /-- WAIT n (R76). -/
  | wait (n : Byte)
  /-- SETDIN v (R87). -/
  | setdin (v : Bit)
  /-- ERRPULSE (R88). -/
  | errpulse
  deriving DecidableEq, Repr

/-- Why the decoder refuses a word (R58, R93). -/
inductive RefuseCode where
  /-- Code 1: OP in 0x8..0xF. -/
  | reservedOp
  /-- Code 2: a bit that must be zero for this OP is 1. -/
  | nonzeroUnused
  /-- Code 3: RH = 1 with RHP = 0, or CH = 1 with CHP = 0. -/
  | highWithoutPresent
  /-- Code 4: WAIT with N above 16. -/
  | waitRange
  deriving DecidableEq, Repr

/-- The pseudo-instruction NOP is WAIT 1 (R62). -/
def Instr.nop : Instr := .wait 1

/-- The pseudo-instruction WAKEUP is eight times RASONLY 0x00 (R62, R85). -/
def Instr.wakeup : List Instr := List.replicate 8 (.rasonly 0 none)

end Sys2Proof
end

