-- ==== Sys2Proof/Config.lean ====
section
/-! DEFINITION. The parameters of 00_scope.md R7, their reference values, and the values the spec leaves open.
The parameters are ARGUMENTS of the model (R7): they stand in State, where every claim quantifies over them. -/

namespace Sys2Proof

/-- The kind of the attached DRAM (R2, R7). -/
inductive Kind where
  /-- The 4164 family, 2^16 cells. -/
  | dram64K
  /-- The 41256 family, 2^18 cells. -/
  | dram256K
  deriving DecidableEq, Repr, Inhabited

/-- The parameters of R7. Counts are cycles; durations are picoseconds, the clock is in hertz, so that
`cycles(T)` is compared exactly as a rational number (R10). DESIGN CHOICE, log entry 3. -/
structure Params where
  /-- F_CPU in hertz. -/
  fCpu : Nat
  /-- C_ST: cycles of an ADDR or CTRL store. -/
  cSt : Nat
  /-- C_A8: cycles of an A8 store. -/
  cA8 : Nat
  /-- C_DIN: cycles of a DIN store. -/
  cDin : Nat
  /-- C_IN: cycles of a DOUT sample. -/
  cIn : Nat
  /-- L_IN: input-register latency of DOUT. -/
  lIn : Nat
  /-- D_RCD: wait after the RAS-assert store of READ and WRITE. Any count: log entry 17. -/
  dRcd : Nat
  /-- D_CAC: wait between CAS assert and the DOUT sample. Any count: log entry 17. -/
  dCac : Nat
  /-- D_CAS: wait between CAS assert and de-assert in WRITE. Any count: log entry 17. -/
  dCas : Nat
  /-- D_RAS: wait between RAS assert and de-assert in REFRESH and RASONLY. Any count: log entry 17. -/
  dRas : Nat
  /-- D_ERR: wait inside the ERR pulse. Any count: log entry 17. -/
  dErr : Nat
  /-- RC0: the refresh counter at reset. -/
  rc0 : Byte
  /-- N_WAKE: RAS cycles that wake the DRAM. -/
  nWake : Nat
  /-- T_PWR: power-up delay. -/
  tPwr : Nat
  /-- T_CAC: CAS-to-DOUT access time. -/
  tCac : Nat
  /-- T_CAS: minimum CAS pulse width. -/
  tCas : Nat
  /-- T_RAS: minimum RAS pulse width. -/
  tRas : Nat
  /-- T_RCD: minimum RAS-to-CAS delay (OPEN). -/
  tRcd : Nat
  /-- T_RP: minimum RAS precharge (OPEN). -/
  tRp : Nat
  /-- T_ASR: row address setup (OPEN). -/
  tAsr : Nat
  /-- T_RAH: row address hold (OPEN). -/
  tRah : Nat
  /-- T_ASC: column address setup (OPEN). -/
  tAsc : Nat
  /-- T_CAH: column address hold (OPEN). -/
  tCah : Nat
  /-- T_WCS: WE setup before CAS (OPEN). -/
  tWcs : Nat
  /-- T_WCH: WE hold after CAS (OPEN). -/
  tWch : Nat
  /-- T_DS: DIN setup before CAS (OPEN). -/
  tDs : Nat
  /-- T_DH: DIN hold after CAS (OPEN). -/
  tDh : Nat
  /-- T_REF of Dram64K. -/
  tRef64 : Nat
  /-- T_REF of Dram256K. -/
  tRef256 : Nat
  /-- G_MIN: least number of cycles the host lets pass between operations. -/
  gMin : Nat
  /-- KIND: the attached DRAM. -/
  kind : Kind
  deriving DecidableEq, Repr

/-- N_MAX, the largest WAIT count (R7); the encoding fixes it (R58). -/
def Config.nMax : Nat := 16

/-- ADDR's reset draw (R29, D19): any value. DESIGN CHOICE, log entry 1. -/
opaque Config.resetAddr : Byte
/-- A8's reset draw (R29, D19): any value. DESIGN CHOICE, log entry 1. -/
opaque Config.resetA8 : Bit
/-- DIN's reset draw (R29, D19): any value. DESIGN CHOICE, log entry 1. -/
opaque Config.resetDin : Bit
/-- The DOUT input register's reset draw (R29, D24): any value. DESIGN CHOICE, log entry 1. -/
opaque Config.resetDout : Bit

/-- The environment's draws (R9): the n-th `draw()` of a run. A free value, log entry 6. -/
opaque Config.freeBit : Nat → Bit

/-- What the DOUT input register, holding its reset draw, gives the sample that takes the n-th draw. D24 rules "a draw
each time it is sampled", so two samples may differ, whatever the register holds; R29 and R70 say whose draw it is.
A free value, log entry 19. -/
opaque Config.resetSample : Bit → Nat → Bit

/-- KIND is a parameter with no reference value (R7, D22). Log entry 3. -/
opaque Config.kind : Kind
/-- T_RCD is OPEN (R7). Log entry 3. -/
opaque Config.tRcd : Nat
/-- T_RP is OPEN (R7). Log entry 3. -/
opaque Config.tRp : Nat
/-- T_ASR is OPEN (R7). Log entry 3. -/
opaque Config.tAsr : Nat
/-- T_RAH is OPEN (R7). Log entry 3. -/
opaque Config.tRah : Nat
/-- T_ASC is OPEN (R7). Log entry 3. -/
opaque Config.tAsc : Nat
/-- T_CAH is OPEN (R7). Log entry 3. -/
opaque Config.tCah : Nat
/-- T_WCS is OPEN (R7). Log entry 3. -/
opaque Config.tWcs : Nat
/-- T_WCH is OPEN (R7). Log entry 3. -/
opaque Config.tWch : Nat
/-- T_DS is OPEN (R7). Log entry 3. -/
opaque Config.tDs : Nat
/-- T_DH is OPEN (R7). Log entry 3. -/
opaque Config.tDh : Nat

/-- R7's reference column; an OPEN parameter keeps its opaque value. -/
def Params.reference : Params where
  fCpu := 16000000
  cSt := 1
  cA8 := 1
  cDin := 1
  cIn := 1
  lIn := 1
  dRcd := 0
  dCac := 3
  dCas := 1
  dRas := 3
  dErr := 0
  rc0 := 0
  nWake := 8
  tPwr := 500000000
  tCac := 120000
  tCas := 120000
  tRas := 200000
  tRcd := Config.tRcd
  tRp := Config.tRp
  tAsr := Config.tAsr
  tRah := Config.tRah
  tAsc := Config.tAsc
  tCah := Config.tCah
  tWcs := Config.tWcs
  tWch := Config.tWch
  tDs := Config.tDs
  tDh := Config.tDh
  tRef64 := 2000000000
  tRef256 := 4000000000
  gMin := 0
  kind := Config.kind

/-- R63 asks it of every parameter set: each occupancy is at least 1, and there is a clock. It sets no bound on D_RCD,
D_CAC, D_CAS, D_RAS and D_ERR, for which the spec states none. DESIGN CHOICE, log entry 17. -/
def Params.legal (p : Params) : Bool :=
  decide (1 ≤ p.cSt) && decide (1 ≤ p.cA8) && decide (1 ≤ p.cDin) && decide (1 ≤ p.cIn) && decide (1 ≤ p.fCpu)

end Sys2Proof
end

