-- ==== Sys2Proof/WellFormed.lean ====
section
/-! DEFINITION. Which commands a word can carry: the one bound the operand types do not carry is WAIT's count,
0..16 (30_encoding.md R56, R59). -/

namespace Sys2Proof

/-- A command some legal word stands for. -/
def Instr.wf : Instr → Bool
  | .idle => true
  | .read _ _ _ _ => true
  | .write _ _ _ _ => true
  | .refresh => true
  | .rasonly _ _ => true
  | .wait n => decide (n.toNat ≤ Config.nMax)
  | .setdin _ => true
  | .errpulse => true

end Sys2Proof
end

