-- ==== Sys2Proof/Decode.lean ====
section
/-! DEFINITION. The decoder of 30_encoding.md (R55-R60), total on every 32-bit word, and the encoder written from
the same field table. The fields stand where R55 puts them: OP 3:0, ROW 11:4, COL 19:12, RHP 20, RH 21, CHP 22,
CH 23, RSVD 31:24. -/

namespace Sys2Proof

/-- The eight operations OP can name (R57). -/
inductive Opcode where
  | idle | read | write | refresh | rasonly | wait | setdin | errpulse
  deriving DecidableEq, Repr

/-- OP = w[3:0] (R55). -/
def opField (w : CmdWord) : BitVec 4 := w.extractLsb' 0 4

/-- row = w[11:4], also WAIT's N (R56). -/
def rowField (w : CmdWord) : Byte := w.extractLsb' 4 8

/-- col = w[19:12] (R56). -/
def colField (w : CmdWord) : Byte := w.extractLsb' 12 8

/-- RHP = w[20] (R55). -/
def rhpField (w : CmdWord) : Bit := w.extractLsb' 20 1

/-- RH = w[21] (R55). -/
def rhField (w : CmdWord) : Bit := w.extractLsb' 21 1

/-- CHP = w[22] (R55). -/
def chpField (w : CmdWord) : Bit := w.extractLsb' 22 1

/-- CH = w[23] (R55). -/
def chField (w : CmdWord) : Bit := w.extractLsb' 23 1

/-- V = w[4], SETDIN only (R56). -/
def vField (w : CmdWord) : Bit := w.extractLsb' 4 1

/-- The opcode map of R57; 0x8..0xF are reserved. -/
def opcodeOf (op : BitVec 4) : Option Opcode :=
  match op.toNat with
  | 0 => some .idle
  | 1 => some .read
  | 2 => some .write
  | 3 => some .refresh
  | 4 => some .rasonly
  | 5 => some .wait
  | 6 => some .setdin
  | 7 => some .errpulse
  | _ => none

/-- A field of bits `hi` down to `lo`, inclusive (R8). -/
structure BitRange where
  hi : Nat
  lo : Nat
  deriving DecidableEq, Repr

/-- w[hi:lo], read as an unsigned number (R8). -/
def bitsOf (w : CmdWord) (f : BitRange) : Nat := w.toNat / 2 ^ f.lo % 2 ^ (f.hi + 1 - f.lo)

/-- The bits that must be zero for an operation (R57's fourth column). -/
def mustBeZero : Opcode → List BitRange
  | .idle => [⟨31, 4⟩]
  | .read => [⟨31, 24⟩]
  | .write => [⟨31, 24⟩]
  | .refresh => [⟨31, 4⟩]
  | .rasonly => [⟨31, 24⟩, ⟨23, 22⟩, ⟨19, 12⟩]
  | .wait => [⟨31, 12⟩]
  | .setdin => [⟨31, 5⟩]
  | .errpulse => [⟨31, 4⟩]

/-- Whether a must-be-zero bit of the operation is 1 (R58 check 2). -/
def hasUnusedBit (op : Opcode) (w : CmdWord) : Bool := (mustBeZero op).any (fun f => bitsOf w f != 0)

/-- The operations that take a row-high bit (R58). -/
def takesRowHigh : Opcode → Bool
  | .read | .write | .rasonly => true
  | .idle | .refresh | .wait | .setdin | .errpulse => false

/-- The operations that take a column-high bit (R58). -/
def takesColHigh : Opcode → Bool
  | .read | .write => true
  | .idle | .refresh | .rasonly | .wait | .setdin | .errpulse => false

/-- A high operand: `some` of its value where its present bit is 1 (R56). -/
def highOperand (present value : Bit) : Option Bit :=
  if present = 1 then some value else none

/-- The command of an operation with the operands of R56. -/
def commandOf (op : Opcode) (w : CmdWord) : Instr :=
  match op with
  | .idle => .idle
  | .read => .read (rowField w) (colField w) (highOperand (rhpField w) (rhField w)) (highOperand (chpField w) (chField w))
  | .write => .write (rowField w) (colField w) (highOperand (rhpField w) (rhField w)) (highOperand (chpField w) (chField w))
  | .refresh => .refresh
  | .rasonly => .rasonly (rowField w) (highOperand (rhpField w) (rhField w))
  | .wait => .wait (rowField w)
  | .setdin => .setdin (vField w)
  | .errpulse => .errpulse

/-- What decoding yields: a command or a refusal code (R58). -/
inductive Decoded where
  | command (i : Instr)
  | refuse (code : RefuseCode)
  deriving DecidableEq, Repr

/-- The decoder (R58): a command or a refusal code, the checks in R58's order. -/
def decode (w : CmdWord) : Decoded :=
  match opcodeOf (opField w) with
  | none => .refuse .reservedOp
  | some op =>
    if hasUnusedBit op w = true then .refuse .nonzeroUnused
    else if takesRowHigh op = true ∧ rhpField w = 0 ∧ rhField w = 1 then .refuse .highWithoutPresent
    else if takesColHigh op = true ∧ chpField w = 0 ∧ chField w = 1 then .refuse .highWithoutPresent
    else if op = .wait ∧ Config.nMax < (rowField w).toNat then .refuse .waitRange
    else .command (commandOf op w)

/-- The number of a refusal code (R93). -/
def RefuseCode.number : RefuseCode → Nat
  | .reservedOp => 1
  | .nonzeroUnused => 2
  | .highWithoutPresent => 3
  | .waitRange => 4

/-- The present bit of a high operand (R61: leaving it out sets it to 0). -/
def presentBit : Option Bit → Bit
  | none => 0
  | some _ => 1

/-- The value bit of a high operand (R61: 0 where the operand is absent). -/
def valueBit : Option Bit → Bit
  | none => 0
  | some b => b

/-- The word with the given fields, RSVD zero (R55). -/
def pack (op : BitVec 4) (row col : Byte) (rh ch : Option Bit) : CmdWord :=
  BitVec.ofNat 32 (op.toNat + 2 ^ 4 * row.toNat + 2 ^ 12 * col.toNat + 2 ^ 20 * (presentBit rh).toNat
    + 2 ^ 21 * (valueBit rh).toNat + 2 ^ 22 * (presentBit ch).toNat + 2 ^ 23 * (valueBit ch).toNat)

/-- The one word of a well-formed command (R57, R61). -/
def encode : Instr → CmdWord
  | .idle => pack 0 0 0 none none
  | .read row col rh ch => pack 1 row col rh ch
  | .write row col rh ch => pack 2 row col rh ch
  | .refresh => pack 3 0 0 none none
  | .rasonly row rh => pack 4 row 0 rh none
  | .wait n => pack 5 n 0 none none
  | .setdin v => pack 6 (v.setWidth 8) 0 none none
  | .errpulse => pack 7 0 0 none none

/-- What the decoder reads from a word whose bits are numbered as spec/opcode_table.json numbers them: bit 0 is
the least significant bit of the one 32-bit word (R55); a bit above `nbits` is 0. -/
def decodeTableWord (nbits w : Nat) : Option Instr :=
  match decode (BitVec.ofNat 32 (w % 2 ^ nbits)) with
  | .command i => some i
  | .refuse _ => none

end Sys2Proof
end

