-- ==== Sys2Proof/Machine/State.lean ====
section
/-! DEFINITION. The state of the machine (10_state.md R16, 20_memory.md R39), as plain data, and the state after
reset (10_state.md R29). Three agents stand in it (00_scope.md R5): the driver, the host as the queue of words it
hands over, and the attached reference DRAM. -/

namespace Sys2Proof.Machine

/-- The seven values the driver ever writes to CTRL (R18). Their bits are `CtrlValue.bits`. -/
inductive CtrlValue where
  /-- No line asserted. -/
  | default
  /-- READ, row phase: RAS and RE asserted. -/
  | rdRow
  /-- READ, column phase: RAS, RE and CAS asserted. -/
  | rdCol
  /-- WRITE, row phase: RAS and WE asserted. -/
  | wrRow
  /-- WRITE, column phase: RAS, WE and CAS asserted. -/
  | wrCol
  /-- REFRESH and RASONLY: RAS asserted. -/
  | rasOnly
  /-- ERRPULSE: ERR asserted. -/
  | err
  deriving DecidableEq, Repr

/-- The six micro-operations every operation is made of (R9, R63-R70). -/
inductive MicroOp where
  | stAddr (v : Byte)
  | stA8 (b : Bit)
  | stCtrl (v : CtrlValue)
  | stDin (b : Bit)
  | nop
  | sample
  deriving DecidableEq, Repr

/-- The register a store names, with its value before and after (R25). -/
inductive Change where
  | addr (old new : Byte)
  | a8 (old new : Bit)
  | ctrl (old new : Lines)
  | din (old new : Bit)
  deriving DecidableEq, Repr

/-- The events of the trace (R25). -/
inductive Event where
  /-- The host handed over `cmd` at time `t`. -/
  | opBegin (cmd : Instr) (t : Nat)
  /-- A store occupying [t0, teff); the new level shows from `teff`. -/
  | store (change : Change) (t0 teff : Nat)
  /-- A sample that began at `t0` and returned the DOUT level at `tpin = t0 - L_IN`. -/
  | sample (v : Bit) (t0 : Nat) (tpin : Int)
  /-- The last micro-operation of `cmd` ended at `t`. -/
  | opEnd (cmd : Instr) (t : Nat)
  /-- A command word was refused at `t` (R93). -/
  | refused (word : CmdWord) (code : RefuseCode) (t : Nat)
  deriving DecidableEq, Repr

/-- The row the DRAM latched at the last RAS fall, and that fall's time (R39, R40). -/
structure RowLatch where
  row : Index
  rfall : Nat
  deriving DecidableEq, Repr

/-- What a CAS fall started (R39). -/
inductive CasMode where
  | read
  | write
  deriving DecidableEq, Repr

/-- The column the DRAM latched, the CAS fall's time, and the mode (R39). -/
structure ColLatch where
  col : Index
  cfall : Nat
  mode : CasMode
  deriving DecidableEq, Repr

/-- One read cycle's drive of DOUT (R42, R43): the level it drives, from `T_CAC` after the CAS fall, until the CAS
rise, and only while the row last credited at `ref` has not decayed (R46). The list of them is DOUT as a function
of time (R22); wherever no drive gives a level, DOUT is a draw. -/
structure Drive where
  cfall : Nat
  level : Bit
  ref : Option Nat
  rise : Option Nat
  deriving DecidableEq, Repr

/-- An ended RAS cycle that broke no predicate when it ended and still has a hold window of R111 open (P6, P7 or
P9): what is needed to take back its effects if a later store falls into the window (log entry 8). -/
structure Past where
  row : Nat
  rfall : Nat
  cas : Option (Nat × CasMode)
  rise : Nat
  credited : Bool
  refBefore : Option Nat
  deriving DecidableEq, Repr

/-- What the predicates of R111 need from the trace so far. -/
structure Watch where
  /-- `teff` of the last ADDR store (P6, P7). -/
  addrAt : Option Nat
  /-- `teff` of the last A8 store (P6, P7 on Dram256K). -/
  a8At : Option Nat
  /-- `teff` of the last DIN store (P9); none: DIN holds its reset draw (R41). -/
  dinAt : Option Nat
  /-- The WE fall of the cycle in progress (P8, P10). -/
  weFall : Option Nat
  /-- The CAS fall of the cycle in progress and its mode (P1-P3, P7-P10). -/
  cas : Option (Nat × CasMode)
  /-- The RAS rise of the previous cycle (P5). -/
  prevRise : Option Nat
  /-- The cycle in progress is in violation (R48). -/
  viol : Bool
  /-- Ended cycles with an open hold window. -/
  pend : List Past
  deriving DecidableEq, Repr

/-- The reference DRAM (R39). `cells` lists the cells that hold 0 or 1, by number, strictly rising; an unlisted
cell is `?`. `lastref` lists the refresh rows with a credit, strictly rising; an unlisted row has none. -/
structure Dram where
  cells : List Host.Cell
  rlat : Option RowLatch
  clat : Option ColLatch
  lastref : List (Nat × Nat)
  wake : Nat
  drives : List Drive
  watch : Watch
  deriving DecidableEq, Repr

/-- One command of the host: the word, and the idle cycles it lets pass before it beyond G_MIN (R73, R106). -/
structure Issue where
  extra : Nat
  word : CmdWord
  deriving DecidableEq, Repr

/-- The state. The first nine fields are R16's record, then the DOUT input register (R29), the DRAM (R39), the
parameters (R7), and the model's own fields: the host's queue, the value handed back, the counter of draws. -/
structure State where
  /-- ADDR (R19). -/
  addr : Byte
  /-- A8 (R20). -/
  a8 : Bit
  /-- CTRL (R17). -/
  ctrl : Lines
  /-- DIN (R21). -/
  din : Bit
  /-- RC (R23). -/
  rc : Byte
  /-- The operation in progress and the index of its next micro-operation (R14). -/
  op : Option (Instr × Nat)
  /-- Cycles since the end of reset (R24). -/
  t : Nat
  /-- The events so far, in order (R25). -/
  trace : List Event
  /-- Set for good by a refused command (R26). -/
  refused : Bool
  /-- The DOUT input register's reset draw (R29), of which a sample before time L_IN takes a draw (R70, D24). -/
  doutReset : Bit
  /-- The attached reference DRAM (R39). -/
  dram : Dram
  /-- The parameters (R7); no step writes them. -/
  params : Params
  /-- The commands the host hands over next (R106). The model's own, log entry 4. -/
  host : List Issue
  /-- What the last operation handed back to the host (R13, R73). The model's own, log entry 5. -/
  readSample : Option Bit
  /-- How many draws have been taken (R9). The model's own, log entry 6. -/
  draws : Nat
  deriving DecidableEq, Repr

/-- Why the machine stops. -/
inductive Fault where
  /-- R94: an operation starts while CTRL is not CTRL_DEFAULT. Raised by every meaning, before its first
  micro-operation. Safe: no run from reset reaches it (R74). -/
  | ctrlNotIdle
  /-- I15: the run has ended refused, and no further command is taken (R93). Raised by `step`. Safe: the spec's
  own stuck state. -/
  | runEnded
  deriving DecidableEq, Repr

/-- Why an instruction has no meaning in this model. -/
inductive Refusal where
  /-- No meaning yet. Raised by no arm of `exec`: every instruction of the table has its meaning. Safe. -/
  | notModelled (mnemonic : String)
  deriving DecidableEq, Repr

/-- Nothing has happened yet: no store, no cycle (the trace is empty, R29). -/
def Watch.reset : Watch where
  addrAt := none
  a8At := none
  dinAt := none
  weFall := none
  cas := none
  prevRise := none
  viol := false
  pend := []

/-- The DRAM at power-on: every cell `?` (R39); no row latched, no row credited, not awake (log entry 2). -/
def Dram.reset : Dram where
  cells := []
  rlat := none
  clat := none
  lastref := []
  wake := 0
  drives := []
  watch := Watch.reset

/-- The state after reset under the parameters `p` (R29, R108 step 1). -/
def State.resetWith (p : Params) : State where
  addr := Config.resetAddr
  a8 := Config.resetA8
  ctrl := 0x1F
  din := Config.resetDin
  rc := p.rc0
  op := none
  t := 0
  trace := []
  refused := false
  doutReset := Config.resetDout
  dram := Dram.reset
  params := p
  host := []
  readSample := none
  draws := 0

/-- The state after reset under the reference parameters (R7, R29). -/
def State.reset : State := State.resetWith Params.reference

end Sys2Proof.Machine
end

