-- ==== Sys2Proof/Machine/Flags.lean ====
section
/-! DEFINITION. The driver has no flags (10_state.md R15). This file holds the bits of the control port in their
place: the named values of R18, the lines of R17, and edges (R11). -/

namespace Sys2Proof.Machine

/-- The value of each named control word, bit 4 down to bit 0 being ERR_n RE_n WE_n CAS_n RAS_n (R18). -/
def CtrlValue.bits : CtrlValue → Lines
  | .default => 0b11111
  | .rdRow => 0b10110
  | .rdCol => 0b10100
  | .wrRow => 0b11010
  | .wrCol => 0b11000
  | .rasOnly => 0b11110
  | .err => 0b01111

/-- RAS_n: true is high, de-asserted (R11, R17). -/
def Ctrl.rasN (c : Lines) : Bool := c.getLsbD 0
/-- CAS_n. -/
def Ctrl.casN (c : Lines) : Bool := c.getLsbD 1
/-- WE_n. -/
def Ctrl.weN (c : Lines) : Bool := c.getLsbD 2
/-- RE_n. -/
def Ctrl.reN (c : Lines) : Bool := c.getLsbD 3
/-- ERR_n. -/
def Ctrl.errN (c : Lines) : Bool := c.getLsbD 4

/-- A falling edge: high before, low after (R11). -/
def fell (old new : Bool) : Bool := old && !new

/-- A rising edge: low before, high after (R11). -/
def rose (old new : Bool) : Bool := !old && new

end Sys2Proof.Machine
end

