-- ==== Sys2Proof/Machine/Operands.lean ====
section
/-! DEFINITION. Operands: the addressing tuple as the DRAM's pins see it (20_memory.md R31, R32, R34, R45), the
number of a cell, the micro-operations an operand asks for (R66, R71), and durations in cycles (00_scope.md R10). -/

namespace Sys2Proof.Machine

/-- The row or column index the DRAM latches from the ADDR and A8 levels (R31): A8 : ADDR, nine bits with A8 on
top, on Dram256K; the byte alone on Dram64K, where A8 is a don't-care (R32). -/
def indexOf (k : Kind) (addr : Byte) (a8 : Bit) : Index :=
  match k with
  | .dram64K => addr.setWidth 9
  | .dram256K => BitVec.ofNat 9 (256 * a8.toNat + addr.toNat)

/-- The refresh row of a latched row: its row byte, r[7:0] (R45). -/
def refRow (r : Index) : Nat := r.toNat % 256

/-- The number of cells (R30). -/
def cellCount : Kind → Nat
  | .dram64K => 2 ^ 16
  | .dram256K => 2 ^ 18

/-- The number this model gives a cell (R31, R34, D32): row byte, then column byte, then on Dram256K the row's and
the column's high bits. DESIGN CHOICE, log entry 7. -/
def cellNo (k : Kind) (row col : Index) : Nat :=
  match k with
  | .dram64K => row.toNat % 256 + 256 * (col.toNat % 256)
  | .dram256K => row.toNat % 256 + 256 * (col.toNat % 256) + 65536 * (row.toNat / 256) + 131072 * (col.toNat / 256)

/-- The row byte of a cell's number. -/
def cellRow (a : Nat) : Nat := a % 256

/-- The A8 level a phase leaves: its high operand where present, else the level before (R20, R31). -/
def a8After (o : Option Bit) (a8 : Bit) : Bit := o.getD a8

/-- "If the high operand is `some b`: st_a8(b)" (R77, R79, R84). -/
def a8Ops : Option Bit → List MicroOp
  | none => []
  | some b => [.stA8 b]

/-- `wait(n)`: exactly n no-ops (R71). R71 says it for n up to 16; that a wait parameter above 16 waits that many
cycles too is the model's choice. DESIGN CHOICE, log entry 17 (for WAIT itself: log entry 9). -/
def waitOps (n : Nat) : List MicroOp := List.replicate n .nop

/-- `n_r`, `n_c`: 1 if the high operand is present and 0 if not (41_read_write_cycles.md). -/
def present : Option Bit → Nat
  | none => 0
  | some _ => 1

/-- `n` cycles last at least `T` (picoseconds): `cycles(T) ≤ n`, compared as rationals (R10). -/
def atLeast (p : Params) (n T : Nat) : Bool := decide (T * p.fCpu ≤ n * 10 ^ 12)

/-- `n` cycles last longer than `T`: `n > cycles(T)` (R10, R46). -/
def exceeds (p : Params) (n T : Nat) : Bool := decide (T * p.fCpu < n * 10 ^ 12)

/-- T_REF of the attached kind (R7, R46). -/
def tRef (p : Params) : Nat :=
  match p.kind with
  | .dram64K => p.tRef64
  | .dram256K => p.tRef256

end Sys2Proof.Machine
end

