-- ==== Sys2Proof/Machine/MicroOps.lean ====
section
/-! DEFINITION. The fixed list of micro-operations of each command (40_timing_primitives.md R72), how long each
micro-operation takes (R63), and the pin stores that lists and the host's queue still hold. -/

namespace Sys2Proof.Machine

/-! ### The lists -/

/-- IDLE's list (R86): CTRL_DEFAULT stored into CTRL. -/
def idleOps : List MicroOp := [.stCtrl .default]

/-- SETDIN's list (R87). -/
def setdinOps (v : Bit) : List MicroOp := [.stDin v]

/-- ERRPULSE's list (R88): ERR falls, the pulse padding, ERR rises. -/
def errpulseOps (p : Params) : List MicroOp := [.stCtrl .err] ++ waitOps p.dErr ++ [.stCtrl .default]

/-- READ's list (R77), the source's steps 1 to 7. -/
def readOps (p : Params) (row col : Byte) (rh ch : Option Bit) : List MicroOp :=
  [.stAddr row] ++ a8Ops rh ++ [.stCtrl .rdRow] ++ waitOps p.dRcd
    ++ [.stAddr col] ++ a8Ops ch ++ [.stCtrl .rdCol] ++ waitOps p.dCac
    ++ [.sample, .stCtrl .default]

/-- WRITE's list (R79): an early write of the DIN level. -/
def writeOps (p : Params) (row col : Byte) (rh ch : Option Bit) : List MicroOp :=
  [.stAddr row] ++ a8Ops rh ++ [.stCtrl .wrRow] ++ waitOps p.dRcd
    ++ [.stAddr col] ++ a8Ops ch ++ [.stCtrl .wrCol] ++ waitOps p.dCas
    ++ [.stCtrl .default]

/-- REFRESH's list at the counter value `rc` (R82); A8 is not written. RC advances in `State.epilogue`. -/
def refreshOps (p : Params) (rc : Byte) : List MicroOp :=
  [.stAddr rc, .stCtrl .rasOnly] ++ waitOps p.dRas ++ [.stCtrl .default]

/-- RASONLY's list (R84). -/
def rasonlyOps (p : Params) (row : Byte) (rh : Option Bit) : List MicroOp :=
  [.stAddr row] ++ a8Ops rh ++ [.stCtrl .rasOnly] ++ waitOps p.dRas ++ [.stCtrl .default]

/-- The fixed list of micro-operations of each command (R72): it depends on the operands, the parameters, and for
REFRESH on RC. -/
def microOps (cmd : Instr) (p : Params) (rc : Byte) : List MicroOp :=
  match cmd with
  | .idle => idleOps
  | .read row col rh ch => readOps p row col rh ch
  | .write row col rh ch => writeOps p row col rh ch
  | .refresh => refreshOps p rc
  | .rasonly row rh => rasonlyOps p row rh
  | .wait n => waitOps n.toNat
  | .setdin v => setdinOps v
  | .errpulse => errpulseOps p

/-! ### Time -/

/-- The occupancy of a micro-operation (R63). -/
def MicroOp.cycles (p : Params) (m : MicroOp) : Nat :=
  match m with
  | .stAddr _ => p.cSt
  | .stA8 _ => p.cA8
  | .stCtrl _ => p.cSt
  | .stDin _ => p.cDin
  | .nop => 1
  | .sample => p.cIn

/-- The length of a list. -/
def opsCycles (p : Params) : List MicroOp → Nat
  | [] => 0
  | m :: ms => m.cycles p + opsCycles p ms

/-- The host's gap before a command: its choice, at least G_MIN (R73, R106). -/
def gapOf (p : Params) (i : Issue) : Nat := p.gMin + i.extra

/-! ### The pin stores to come

Whether a cycle is in violation can depend on a store made after it has ended: the hold windows of R111 P6, P7 and
P9 may be longer than the cycle. DOUT in a violating cycle is a draw (R48 a), so what a sample returns depends on
the stores to come. They are what the list in progress and the host's queue say (log entry 8). -/

/-- The lines whose stores the hold windows are about: ADDR, A8 and DIN (P6, P7, P9). -/
inductive PinLine where
  | addr
  | a8
  | din
  deriving DecidableEq, Repr

/-- A store to one of them, and the time it takes effect. -/
structure PinStore where
  line : PinLine
  teff : Nat
  deriving DecidableEq, Repr

/-- The line a micro-operation stores to, CTRL apart. -/
def MicroOp.pinLine (m : MicroOp) : Option PinLine :=
  match m with
  | .stAddr _ => some .addr
  | .stA8 _ => some .a8
  | .stDin _ => some .din
  | .stCtrl _ => none
  | .nop => none
  | .sample => none

/-- The pin stores of a list that begins at time `t` (R64). -/
def storesOf (p : Params) : Nat → List MicroOp → List PinStore
  | _, [] => []
  | t, m :: ms => (m.pinLine.map (fun l => ⟨l, t + m.cycles p⟩)).toList ++ storesOf p (t + m.cycles p) ms

/-- The pin stores of the commands the host hands over from time `t` on (R73): a refused word ends the run (R93).
Their times do not depend on RC, which only says the row a REFRESH stores. -/
def queueStores (p : Params) : Nat → List Issue → List PinStore
  | _, [] => []
  | t, i :: rest =>
    match decode i.word with
    | .refuse _ => []
    | .command cmd =>
      let t0 := t + gapOf p i
      storesOf p t0 (microOps cmd p 0) ++ queueStores p (t0 + opsCycles p (microOps cmd p 0)) rest

end Sys2Proof.Machine
end

