-- ==== Sys2Proof/Machine/Sparse.lean ====
section
/-! DEFINITION. Sparse data by number, in one canonical form: a list of (number, value) pairs whose numbers
strictly rise. The DRAM's cells (20_memory.md R39) and its refresh credits are held so. -/

namespace Sys2Proof.Machine

/-- The canonical form: strictly rising numbers, so no repeats. -/
abbrev Sparse.rising {α : Type} (l : List (Nat × α)) : Prop := l.Pairwise (fun a b => a.1 < b.1)

/-- The value listed at `k`. -/
def Sparse.get {α : Type} (k : Nat) : List (Nat × α) → Option α
  | [] => none
  | e :: es => if e.1 = k then some e.2 else Sparse.get k es

/-- List `v` at `k`. -/
def Sparse.put {α : Type} (k : Nat) (v : α) : List (Nat × α) → List (Nat × α)
  | [] => [(k, v)]
  | e :: es =>
    if k < e.1 then (k, v) :: e :: es
    else if k = e.1 then (k, v) :: es
    else e :: Sparse.put k v es

/-- List nothing at `k`. -/
def Sparse.drop {α : Type} (k : Nat) (l : List (Nat × α)) : List (Nat × α) := l.filter (fun e => e.1 != k)

/-- List `o`'s value at `k`, or nothing. -/
def Sparse.set {α : Type} (k : Nat) (o : Option α) (l : List (Nat × α)) : List (Nat × α) :=
  match o with
  | none => Sparse.drop k l
  | some v => Sparse.put k v l

/-- A cell's bit as the byte of a `Host.Cell`. -/
def cellByte (b : Bit) : Byte := b.setWidth 8

/-- The bit a listed byte stands for. -/
def cellBit (v : Byte) : Bit := v.setWidth 1

/-- The cell at a number: `none` is the spec's `?` (R39), which every unlisted cell holds. -/
def Memory.read (a : Nat) (m : List Host.Cell) : Option Bit := (Sparse.get a m).map cellBit

/-- Set a cell; `none` makes it `?`, which is unlisted. -/
def Memory.write (a : Nat) (o : Option Bit) (m : List Host.Cell) : List Host.Cell := Sparse.set a (o.map cellByte) m

/-- The canonical form of the cells of a part of kind `k`: strictly rising numbers, each a cell that exists (R30),
each byte 0 or 1. No entry can stand for `?`, the value an unlisted cell has. -/
abbrev Memory.wf (k : Kind) (m : List Host.Cell) : Prop :=
  Sparse.rising m ∧ ∀ c ∈ m, c.1 < cellCount k ∧ c.2.toNat ≤ 1

end Sys2Proof.Machine
end

