-- ==== Sys2Proof/Machine/Dram.lean ====
section
/-! DEFINITION. The reference DRAM (20_memory.md R38-R48) and the timing predicates P1-P10 that judge its cycles
(70_reset_and_hazards.md R111), as operations on `Dram` at a time `τ`. Every operation takes the parameters. -/

namespace Sys2Proof.Machine

/-- A row credited at `ref` has decayed by `τ` (R46). -/
def expired (p : Params) (τ ref : Nat) : Bool := exceeds p (τ - ref) (tRef p)

/-- Decay (R46): every refresh row credited longer than T_REF ago loses its credit, and its cells become `?`. -/
def Dram.decay (p : Params) (τ : Nat) (d : Dram) : Dram :=
  let dead := d.lastref.filter (fun e => expired p τ e.2)
  { d with
    lastref := d.lastref.filter (fun e => !expired p τ e.2)
    cells := d.cells.filter (fun c => !dead.any (fun e => e.1 == cellRow c.1)) }

/-- The cycle in progress breaks a predicate if `b` holds (R48). -/
def Dram.flag (b : Bool) (d : Dram) : Dram := { d with watch := { d.watch with viol := d.watch.viol || b } }

/-- A store at `e` lies less than `T` before `τ`: it breaks a setup time (P6, P7, P9). -/
def tooRecent (p : Params) (τ T : Nat) (e : Option Nat) : Bool :=
  match e with
  | none => false
  | some e => !atLeast p (τ - e) T

/-- An address store too recent for a strobe at `τ`; A8 counts on Dram256K only (P6, P7). -/
def addressUnstable (p : Params) (τ T : Nat) (w : Watch) : Bool :=
  tooRecent p τ T w.addrAt || (decide (p.kind = .dram256K) && tooRecent p τ T w.a8At)

/-- Whether a hold window `T` after a time `e` still holds at `τ` (P6, P7, P9). -/
def inHold (p : Params) (τ e T : Nat) : Bool := !atLeast p (τ - e) T

/-- An address store at `τ` falls into the row hold of a RAS fall or the column hold of a CAS fall (P6, P7). -/
def addressHoldHit (p : Params) (τ rfall : Nat) (cas : Option (Nat × CasMode)) : Bool :=
  inHold p τ rfall p.tRah || match cas with
    | none => false
    | some (c, _) => inHold p τ c p.tCah

/-- A DIN store at `τ` falls into the data hold of a write's CAS fall (P9). -/
def dinHoldHit (p : Params) (τ : Nat) (cas : Option (Nat × CasMode)) : Bool :=
  match cas with
  | some (c, .write) => inHold p τ c p.tDh
  | some (_, .read) => false
  | none => false

/-- A store falls into a hold window of the cycle whose RAS fell at `rfall` and whose CAS fall is `cas`: A8 counts on
Dram256K only (P6, P7, P9). -/
def PinStore.hits (p : Params) (rfall : Nat) (cas : Option (Nat × CasMode)) (e : PinStore) : Bool :=
  match e.line with
  | .addr => addressHoldHit p e.teff rfall cas
  | .a8 => decide (p.kind = .dram256K) && addressHoldHit p e.teff rfall cas
  | .din => dinHoldHit p e.teff cas

/-- A store falls into a hold window of an ended cycle. -/
def Past.hitBy (p : Params) (e : PinStore) (c : Past) : Bool := e.hits p c.rfall c.cas

/-- Some hold window of an ended cycle is still open at `τ`. -/
def Past.openAt (p : Params) (τ : Nat) (c : Past) : Bool := addressHoldHit p τ c.rfall c.cas || dinHoldHit p τ c.cas

/-- The credit an ended cycle remembers as the one before it, `c`'s credit being taken back. -/
def Past.without (c x : Past) : Past :=
  if c.credited && x.row == c.row && x.refBefore == some c.rise then { x with refBefore := c.refBefore } else x

/-- Take back at `τ` an ended cycle that a store puts in violation. It credits nothing (R48 b): its row has the
credit it had before, unless a later cycle has credited it or that credit has decayed (R46), and later cycles
remember that one too. Its drive gives nothing (R48 a), nor does a later one, since every cell was `?` (R48 c). -/
def Dram.takeBack (p : Params) (τ : Nat) (d : Dram) (c : Past) : Dram :=
  { d with
    lastref := if c.credited && Sparse.get c.row d.lastref == some c.rise
      then Sparse.set c.row (c.refBefore.filter (fun e => !expired p τ e)) d.lastref
      else d.lastref
    wake := if c.credited then d.wake - 1 else d.wake
    drives := d.drives.filter (fun v => decide (v.cfall < c.rfall))
    watch := { d.watch with pend := d.watch.pend.map c.without } }

/-- The ended cycles a store hits are in violation: they are taken back, newest first, and every cell is `?`
(R48 c). No cell can have been written since such a cycle's RAS rise (log entry 8). -/
def Dram.lateHit (p : Params) (e : PinStore) (d : Dram) : Dram :=
  if d.watch.pend.any (Past.hitBy p e) then
    let d' := (d.watch.pend.filter (Past.hitBy p e)).foldl (Dram.takeBack p e.teff) d
    { d' with cells := [], watch := { d'.watch with pend := d'.watch.pend.filter (fun c => !c.hitBy p e) } }
  else d

/-- A store falls into a hold window of the cycle in progress (P6, P7, P9). -/
def Dram.hitNow (p : Params) (e : PinStore) (d : Dram) : Bool :=
  match d.rlat with
  | none => false
  | some r => e.hits p r.rfall d.watch.cas

/-- What a store to a pin does to the cycle in progress and to ended ones. -/
def Dram.pinStore (p : Params) (e : PinStore) (d : Dram) : Dram := (d.flag (d.hitNow p e)).lateHit p e

/-- An ADDR store takes effect at `τ` (P6, P7). -/
def Dram.addrStore (p : Params) (τ : Nat) (d : Dram) : Dram :=
  let d := d.pinStore p ⟨.addr, τ⟩
  { d with watch := { d.watch with addrAt := some τ } }

/-- An A8 store takes effect at `τ`: an address store on Dram256K, no concern of a Dram64K (P6, P7, R32). -/
def Dram.a8Store (p : Params) (τ : Nat) (d : Dram) : Dram :=
  let d := d.pinStore p ⟨.a8, τ⟩
  { d with watch := { d.watch with a8At := some τ } }

/-- A DIN store takes effect at `τ` (P9). -/
def Dram.dinStore (p : Params) (τ : Nat) (d : Dram) : Dram :=
  let d := d.pinStore p ⟨.din, τ⟩
  { d with watch := { d.watch with dinAt := some τ } }

/-- P5 fails at a RAS fall at `τ`. -/
def prechargeShort (p : Params) (τ : Nat) (w : Watch) : Bool := tooRecent p τ p.tRp w.prevRise

/-- RAS falls at `τ` (R40): the row is latched and a cycle begins. CAS low is CAS-before-RAS (R40, P10); the row
address must have been stable (P6) and RAS high long enough (P5). -/
def Dram.rasFall (p : Params) (τ : Nat) (casN : Bool) (addr : Byte) (a8 : Bit) (d : Dram) : Dram :=
  { d with
    rlat := some ⟨indexOf p.kind addr a8, τ⟩
    watch := { d.watch with
      weFall := none
      cas := none
      viol := !casN || prechargeShort p τ d.watch || addressUnstable p τ p.tAsr d.watch } }

/-- WE falls at `τ`: never after CAS has fallen in the cycle (P10). -/
def Dram.weFall (τ : Nat) (d : Dram) : Dram :=
  let d := d.flag (d.rlat.isSome && d.watch.cas.isSome)
  { d with watch := { d.watch with weFall := some τ } }

/-- P8 at a write's CAS fall at `τ`: WE fell strictly before, and at least T_WCS before. -/
def weSetupShort (p : Params) (τ : Nat) (w : Watch) : Bool :=
  match w.weFall with
  | none => false
  | some e => decide (τ ≤ e) || !atLeast p (τ - e) p.tWcs

/-- What a CAS fall at `τ` breaks in the cycle of the row latched at `rfall`: a DRAM not awake (R47), P1, P7, a
second CAS fall, and for a write P8 and P9. -/
def casFallBreaks (p : Params) (τ rfall : Nat) (mode : CasMode) (d : Dram) : Bool :=
  decide (d.wake < p.nWake) || !atLeast p (τ - rfall) p.tRcd || addressUnstable p τ p.tAsc d.watch
    || d.watch.cas.isSome || match mode with
      | .read => false
      | .write => weSetupShort p τ d.watch || tooRecent p τ p.tDs d.watch.dinAt

/-- The bit a write stores: the DIN level, `?` while DIN holds its reset draw (R41). -/
def writtenBit (din : Bit) (w : Watch) : Option Bit := w.dinAt.map (fun _ => din)

/-- The drive a read's CAS fall starts: of the addressed cell, where it is not `?` (R42). -/
def driveOf (k : Kind) (τ : Nat) (row col : Index) (d : Dram) : List Drive :=
  match Memory.read (cellNo k row col) d.cells with
  | none => []
  | some b => [⟨τ, b, Sparse.get (refRow row) d.lastref, none⟩]

/-- CAS falls at `τ` (R41, R42). While RAS is high it is CAS-without-RAS: a violation outside any cycle, which
makes every cell `?` at once (R48). While RAS is low the column is latched: with WE low an early write stores DIN
into the cell, with WE high a read starts to drive the cell's bit. -/
def Dram.casFall (p : Params) (τ : Nat) (rasN weN : Bool) (addr : Byte) (a8 din : Bit) (d : Dram) : Dram :=
  match rasN, d.rlat with
  | false, some r =>
    let col := indexOf p.kind addr a8
    let mode := if weN then CasMode.read else CasMode.write
    let d := d.flag (casFallBreaks p τ r.rfall mode d)
    { d with
      clat := some ⟨col, τ, mode⟩
      cells := match mode with
        | .read => d.cells
        | .write => Memory.write (cellNo p.kind r.row col) (writtenBit din d.watch) d.cells
      drives := match mode with
        | .read => d.drives ++ driveOf p.kind τ r.row col d
        | .write => d.drives
      watch := { d.watch with cas := some (τ, mode) } }
  | _, _ => { d with cells := [] }

/-- WE rises at `τ`: in a write it must have stayed low for T_WCH after the CAS fall (P8). -/
def Dram.weRise (p : Params) (τ : Nat) (d : Dram) : Dram :=
  d.flag (d.rlat.isSome && d.watch.weFall.isSome && match d.watch.cas with
    | none => false
    | some (c, _) => inHold p τ c p.tWch)

/-- The DOUT drive in progress ends at `τ` (R43). -/
def Drive.close (τ : Nat) (v : Drive) : Drive := { v with rise := v.rise <|> some τ }

/-- CAS rises at `τ` (R43): DOUT is not driven from here on; CAS must have been low for T_CAS (P3). -/
def Dram.casRise (p : Params) (τ : Nat) (d : Dram) : Dram :=
  let d := d.flag (d.rlat.isSome && match d.watch.cas with
    | none => false
    | some (c, _) => inHold p τ c p.tCas)
  { d with clat := none, drives := d.drives.map (Drive.close τ) }

/-- The cycle that began at `rfall` ends in violation at its RAS rise (R48): its drives give nothing, no row is
credited, and every cell is `?`. -/
def Dram.endViolating (rfall : Nat) (d : Dram) : Dram :=
  { d with cells := [], drives := d.drives.filter (fun v => decide (v.cfall < rfall)) }

/-- The cycle of the latched row ends well at `τ` (R44): credited if its RAS fall came at T_PWR or later. A cycle
whose hold windows are still open stays pending (P6, P7, P9). -/
def Dram.endWell (p : Params) (τ : Nat) (r : RowLatch) (d : Dram) : Dram :=
  let credited := atLeast p (τ - r.rfall) p.tRas && atLeast p r.rfall p.tPwr
  let past : Past := ⟨refRow r.row, r.rfall, d.watch.cas, τ, credited, Sparse.get (refRow r.row) d.lastref⟩
  { d with
    lastref := if credited then Sparse.put (refRow r.row) τ d.lastref else d.lastref
    wake := if credited then d.wake + 1 else d.wake
    watch := { d.watch with pend := (past :: d.watch.pend).filter (Past.openAt p τ) } }

/-- RAS rises at `τ` (R44): the cycle is judged, RAS having to be low for T_RAS (P4), and no row is latched. -/
def Dram.rasRise (p : Params) (τ : Nat) (d : Dram) : Dram :=
  let d := match d.rlat with
    | none => d
    | some r =>
      let d := d.flag (inHold p τ r.rfall p.tRas)
      if d.watch.viol then d.endViolating r.rfall else d.endWell p τ r
  { d with
    rlat := none
    watch := { d.watch with weFall := none, cas := none, prevRise := some τ, viol := false } }

/-- What the DRAM does at an edge, if the store makes it. -/
def Dram.onEdge (edge : Bool) (f : Dram → Dram) (d : Dram) : Dram :=
  match edge with
  | true => f d
  | false => d

/-- A CTRL store takes effect at `τ` (R37, R40-R44): the DRAM sees the edges of RAS, CAS and WE, with the address
and data levels at `τ`. RE and ERR are no DRAM pins (R38). -/
def Dram.edges (p : Params) (τ : Nat) (old new : Lines) (addr : Byte) (a8 din : Bit) (d : Dram) : Dram :=
  (((((d.onEdge (fell (Ctrl.rasN old) (Ctrl.rasN new)) (Dram.rasFall p τ (Ctrl.casN new) addr a8)
    ).onEdge (fell (Ctrl.weN old) (Ctrl.weN new)) (Dram.weFall τ)
    ).onEdge (fell (Ctrl.casN old) (Ctrl.casN new)) (Dram.casFall p τ (Ctrl.rasN new) (Ctrl.weN new) addr a8 din)
    ).onEdge (rose (Ctrl.weN old) (Ctrl.weN new)) (Dram.weRise p τ)
    ).onEdge (rose (Ctrl.casN old) (Ctrl.casN new)) (Dram.casRise p τ)
    ).onEdge (rose (Ctrl.rasN old) (Ctrl.rasN new)) (Dram.rasRise p τ)

/-- A sample of the DOUT level at `pin` while a cycle is in progress: CAS must have fallen at least T_CAC before
it (P2). That the pin is read before the CAS rise holds for every sample made while CAS is low. -/
def Dram.judgeSample (p : Params) (pin : Int) (d : Dram) : Dram :=
  d.flag (d.rlat.isSome && match d.watch.cas with
    | none => true
    | some (c, _) => decide (pin < c) || inHold p pin.toNat c p.tCac)

/-- The drive gives its level at time `τ` (R42, R43, R46). -/
def Drive.covers (p : Params) (τ : Nat) (v : Drive) : Bool :=
  decide (v.cfall ≤ τ) && (match v.rise with
    | none => true
    | some e => decide (τ < e))
  && atLeast p (τ - v.cfall) p.tCac
  && match v.ref with
    | none => true
    | some g => !expired p τ g

/-- The cycle in progress, whose RAS rise comes at `τE`, is not in violation (R48): nothing is broken so far, RAS and
CAS will have been low long enough (P3, P4), and no store to come falls into its hold windows (P6, P7, P9). -/
def Dram.cycleSound (p : Params) (τE : Nat) (coming : List PinStore) (d : Dram) : Bool :=
  !d.watch.viol && match d.rlat with
    | none => true
    | some r => !inHold p τE r.rfall p.tRas && !coming.any (PinStore.hits p r.rfall d.watch.cas) && match d.watch.cas with
      | none => true
      | some (c, _) => !inHold p τE c p.tCas

/-- The drive belongs to the cycle in progress. -/
def Dram.current (d : Dram) (v : Drive) : Bool :=
  match d.rlat with
  | none => false
  | some r => decide (r.rfall ≤ v.cfall)

/-- An ended cycle that a store to come puts in violation, so that from its RAS fall on no drive gives a level: its
own is a draw (R48 a), and every cell is `?` from its RAS rise on (R48 c). -/
def Dram.spoils (p : Params) (coming : List PinStore) (v : Drive) (c : Past) : Bool :=
  decide (c.rfall ≤ v.cfall) && coming.any (fun e => c.hitBy p e)

/-- DOUT at time `τ`, read in an operation that ends at `τE`, the pin stores to come being `coming`: a known level,
or `none` where it is a draw (R42, R43). In a cycle in violation it is a draw (R48 a), and so is the level of a cell
that an earlier cycle in violation made `?` (R48 c); both may be the doing of a store to come. -/
def Dram.dout (p : Params) (τ τE : Nat) (coming : List PinStore) (d : Dram) : Option Bit :=
  match d.drives.find? (fun v => v.covers p τ) with
  | none => none
  | some v =>
    if d.watch.pend.any (Dram.spoils p coming v) then none
    else if d.current v && !d.cycleSound p τE coming then none
    else some v.level

end Sys2Proof.Machine
end

