-- ==== Sys2Proof/Machine/Ops.lean ====
section
/-! DEFINITION. The shared operations: time, draws, the six micro-operations (40_timing_primitives.md R63-R71), how
an operation runs (R72, R73), and the refusal of a word (60_exceptions.md R93). The driver takes no exception and
has no return from one: there is no trap mechanism (R92, R97, R98). -/

namespace Sys2Proof.Machine

/-- The host lets `g` cycles pass (R24, R73): every line holds its level. -/
def State.pass (g : Nat) (s : State) : State :=
  { s with t := s.t + g, dram := s.dram.decay s.params (s.t + g) }

/-- Append an event to the trace (R25). -/
def State.emit (e : Event) (s : State) : State := { s with trace := s.trace ++ [e] }

/-- `st_addr(v)` (R65): ADDR shows `v` from the end of the store, and the DRAM sees it then (R64). -/
def State.stAddr (v : Byte) (s : State) : State :=
  let τ := s.t + s.params.cSt
  { s with
    addr := v
    t := τ
    trace := s.trace ++ [.store (.addr s.addr v) s.t τ]
    dram := (s.dram.decay s.params τ).addrStore s.params τ }

/-- `st_a8(b)` (R66). -/
def State.stA8 (b : Bit) (s : State) : State :=
  let τ := s.t + s.params.cA8
  { s with
    a8 := b
    t := τ
    trace := s.trace ++ [.store (.a8 s.a8 b) s.t τ]
    dram := (s.dram.decay s.params τ).a8Store s.params τ }

/-- `st_ctrl(v)` (R67): all five lines change together at the end of the store, and the DRAM sees the edges. -/
def State.stCtrl (v : CtrlValue) (s : State) : State :=
  let τ := s.t + s.params.cSt
  { s with
    ctrl := v.bits
    t := τ
    trace := s.trace ++ [.store (.ctrl s.ctrl v.bits) s.t τ]
    dram := (s.dram.decay s.params τ).edges s.params τ s.ctrl v.bits s.addr s.a8 s.din }

/-- `st_din(b)` (R68). -/
def State.stDin (b : Bit) (s : State) : State :=
  let τ := s.t + s.params.cDin
  { s with
    din := b
    t := τ
    trace := s.trace ++ [.store (.din s.din b) s.t τ]
    dram := (s.dram.decay s.params τ).dinStore s.params τ }

/-- `nop()` (R69): one cycle, nothing else. -/
def State.nop (s : State) : State := s.pass 1

/-- The time whose DOUT level a sample starting now sees: `L_IN` cycles before it (R22, R70). -/
def State.pin (s : State) : Int := (s.t : Int) - s.params.lIn

/-- The RAS rise of the READ whose sample starts now: `τE = s + C_IN + C_ST` (R78). -/
def State.readEnd (s : State) : Nat := s.t + s.params.cIn + s.params.cSt

/-- The pin stores to come: of the operation in progress, then of the commands the host hands over after it, unless
the run has ended refused (R72, R73, R93). -/
def State.coming (s : State) : List PinStore :=
  let left := match s.op with
    | none => []
    | some (cmd, k) => (microOps cmd s.params s.rc).drop k
  storesOf s.params s.t left
    ++ if s.refused then [] else queueStores s.params (s.t + opsCycles s.params left) s.host

/-- The level the DOUT pin had at `State.pin` (R70), `none` where it is a draw: before time 0, when the input register
holds its reset draw (R29, D24), and after it wherever the DRAM gave the line no level (R42, R43, R48). -/
def State.pinLevel (s : State) : Option Bit :=
  if s.pin < 0 then none
  else (s.dram.judgeSample s.params s.pin).dout s.params s.pin.toNat s.readEnd s.coming

/-- The draw a sample starting now takes where the line has no level (R9): before time L_IN the input register's, of
its reset value, afresh at each sample (R29, R70, D24; log entry 19), else the environment's next. -/
def State.draw (s : State) : Bit :=
  if s.pin < 0 then Config.resetSample s.doutReset s.draws else Config.freeBit s.draws

/-- `sample()` (R70): the level seen, or a draw (R9), is recorded and handed on. No register changes, and the
DRAM's state does not, but for the judgement of P2 (R37, R111). -/
def State.sample (s : State) : State :=
  let q := s.pinLevel.getD s.draw
  let τ := s.t + s.params.cIn
  { s with
    t := τ
    trace := s.trace ++ [.sample q s.t s.pin]
    readSample := some q
    draws := if s.pinLevel.isSome then s.draws else s.draws + 1
    dram := (s.dram.judgeSample s.params s.pin).decay s.params τ }

/-- The index of the next micro-operation advances by one (R14). -/
def State.advance (s : State) : State := { s with op := s.op.map (fun o => (o.1, o.2 + 1)) }

/-- The effect of one micro-operation. -/
def State.effect (m : MicroOp) (s : State) : State :=
  match m with
  | .stAddr v => s.stAddr v
  | .stA8 b => s.stA8 b
  | .stCtrl v => s.stCtrl v
  | .stDin b => s.stDin b
  | .nop => s.nop
  | .sample => s.sample

/-- Perform one micro-operation of the operation in progress (R14, R72). -/
def State.perform (s : State) (m : MicroOp) : State := (s.effect m).advance

/-- Perform a list of micro-operations strictly in order, one at a time (R50). -/
def State.runOps (ops : List MicroOp) (s : State) : State := ops.foldl State.perform s

/-- The host hands over a command: OpBegin, and the operation is at its first micro-operation (R14, R73). -/
def State.beginOp (cmd : Instr) (s : State) : State :=
  { s with op := some (cmd, 0), readSample := none, trace := s.trace ++ [.opBegin cmd s.t] }

/-- The refresh counter advances by one, mod 256 (R23, R82, R89). -/
def State.advanceRc (s : State) : State := { s with rc := s.rc + 1 }

/-- What an operation does after its last micro-operation, in no time: REFRESH advances RC (R82). -/
def State.epilogue (cmd : Instr) (s : State) : State :=
  match cmd with
  | .refresh => s.advanceRc
  | .idle => s
  | .read _ _ _ _ => s
  | .write _ _ _ _ => s
  | .rasonly _ _ => s
  | .wait _ => s
  | .setdin _ => s
  | .errpulse => s

/-- The operation ends: OpEnd, and no operation is in progress (R14, R73). -/
def State.endOp (cmd : Instr) (s : State) : State :=
  let s := s.epilogue cmd
  { s with op := none, trace := s.trace ++ [.opEnd cmd s.t] }

/-- How an operation runs (R73): from an idle control port, its whole list of micro-operations, begin and end
marked; from any other port, the fault CtrlNotIdle (R94). -/
def runOperation (cmd : Instr) (ops : List MicroOp) (s : State) : Host.Outcome State Fault Refusal :=
  if s.ctrl = CtrlValue.default.bits then .next (((s.beginOp cmd).runOps ops).endOp cmd)
  else .fault .ctrlNotIdle

/-- A word is refused (R93): no micro-operation, no line changes; the event is recorded and `refused` set. -/
def State.refuse (w : CmdWord) (code : RefuseCode) (s : State) : State :=
  { s with refused := true, trace := s.trace ++ [.refused w code s.t] }

/-- The host hands over its next command: it leaves the queue, and the gap passes (R73). -/
def State.take (i : Issue) (rest : List Issue) (s : State) : State :=
  ({ s with host := rest }).pass (gapOf s.params i)

end Sys2Proof.Machine
end

