-- ==== Sys2Proof/Machine/DataCycles.lean ====
section
/-! DEFINITION. The two data cycles READ and WRITE (41_read_write_cycles.md R77-R81). -/

namespace Sys2Proof.Machine

/-- READ row, col, rh, ch (R77): the sampled bit is handed back in `readSample`. -/
def execRead (row col : Byte) (rh ch : Option Bit) (s : State) : Host.Outcome State Fault Refusal :=
  runOperation (.read row col rh ch) (readOps s.params row col rh ch) s

/-- WRITE row, col, rh, ch (R79). -/
def execWrite (row col : Byte) (rh ch : Option Bit) (s : State) : Host.Outcome State Fault Refusal :=
  runOperation (.write row col rh ch) (writeOps s.params row col rh ch) s

end Sys2Proof.Machine
end

