-- ==== Sys2Proof/Machine/PortOperations.lean ====
section
/-! DEFINITION. The port operations IDLE, SETDIN and ERRPULSE (43_port_operations.md R86-R88). -/

namespace Sys2Proof.Machine

/-- IDLE (R86). -/
def execIdle (s : State) : Host.Outcome State Fault Refusal := runOperation .idle idleOps s

/-- SETDIN v (R87). -/
def execSetdin (v : Bit) (s : State) : Host.Outcome State Fault Refusal := runOperation (.setdin v) (setdinOps v) s

/-- ERRPULSE (R88). -/
def execErrpulse (s : State) : Host.Outcome State Fault Refusal := runOperation .errpulse (errpulseOps s.params) s

end Sys2Proof.Machine
end

