-- ==== Sys2Proof/Machine/RefreshCycles.lean ====
section
/-! DEFINITION. The RAS-only cycles REFRESH and RASONLY (42_refresh_cycles.md R82-R85). -/

namespace Sys2Proof.Machine

/-- REFRESH (R82): one RAS-only cycle at the row in RC, after which RC advances by one. -/
def execRefresh (s : State) : Host.Outcome State Fault Refusal := runOperation .refresh (refreshOps s.params s.rc) s

/-- RASONLY row, rh (R84). -/
def execRasonly (row : Byte) (rh : Option Bit) (s : State) : Host.Outcome State Fault Refusal :=
  runOperation (.rasonly row rh) (rasonlyOps s.params row rh) s

end Sys2Proof.Machine
end

