-- ==== Sys2Proof/Machine/Timing.lean ====
section
/-! DEFINITION. The timing family: WAIT (40_timing_primitives.md R76). -/

namespace Sys2Proof.Machine

/-- WAIT n (R76): exactly n no-ops. -/
def execWait (n : Byte) (s : State) : Host.Outcome State Fault Refusal :=
  runOperation (.wait n) (waitOps n.toNat) s

end Sys2Proof.Machine
end

