-- ==== Sys2Proof/Machine/Dispatch.lean ====
section
/-! DEFINITION. The dispatch: one arm per command, one direct call of its meaning. -/

namespace Sys2Proof.Machine

def exec (i : Instr) (s : State) : Host.Outcome State Fault Refusal :=
  match i with
  | .idle => Sys2Proof.Machine.execIdle s
  | .read row col rh ch => Sys2Proof.Machine.execRead row col rh ch s
  | .write row col rh ch => Sys2Proof.Machine.execWrite row col rh ch s
  | .refresh => Sys2Proof.Machine.execRefresh s
  | .rasonly row rh => Sys2Proof.Machine.execRasonly row rh s
  | .wait n => Sys2Proof.Machine.execWait n s
  | .setdin v => Sys2Proof.Machine.execSetdin v s
  | .errpulse => Sys2Proof.Machine.execErrpulse s

end Sys2Proof.Machine
end

