-- ==== Sys2Proof/Machine/SmallStep.lean ====
section
/-! DEFINITION. An operation in small steps: one micro-operation per step, its position in `op` (10_state.md R14,
40_timing_primitives.md R72). -/

namespace Sys2Proof.Machine

/-- The operation `cmd` at micro-operation `k` does one more of its list, and ends after the last (R14). -/
def State.microStep (cmd : Instr) (k : Nat) (s : State) : State :=
  let ops := microOps cmd s.params s.rc
  match ops[k]? with
  | none => s.endOp cmd
  | some m => if k + 1 < ops.length then s.perform m else (s.perform m).endOp cmd

end Sys2Proof.Machine
end

