-- ==== Sys2Proof/Machine/Step.lean ====
section
/-! DEFINITION. One step of the machine (40_timing_primitives.md R73): the host hands over its next command and
the driver runs it whole. -/

namespace Sys2Proof.Machine

/-- One step. An operation in progress does its next micro-operation (R14). Otherwise, unless the run has ended
refused (R93, I15), the host's next word is taken after its gap, decoded, and run or refused (R73); while the host
hands over nothing, one idle cycle passes (R24). -/
def step (s : State) : Host.Outcome State Fault Refusal :=
  match s.op with
  | some (cmd, k) => .next (s.microStep cmd k)
  | none =>
    if s.refused then .fault .runEnded
    else match s.host with
      | [] => .next (s.pass 1)
      | i :: rest =>
        match decode i.word with
        | .command cmd => exec cmd (s.take i rest)
        | .refuse code => .next ((s.take i rest).refuse i.word code)

/-- The state with one word at the front of the host's queue, handed over after the least gap: the next step of a
driver that is between operations and not refused takes exactly it. Bits above `nbits` are 0. -/
def State.withFetchWord (s : State) (nbits w : Nat) : State :=
  { s with host := ⟨0, BitVec.ofNat 32 (w % 2 ^ nbits)⟩ :: s.host.tail }

end Sys2Proof.Machine
end

