-- ==== Sys2Proof/Laws/Encode.lean ====
section
/-! SUPPORT. The fields of a packed word (30_encoding.md R55): each field read back is the field written. -/

namespace Sys2Proof.Laws

/-- The word is the sum of its fields: none overflows into the next, and RSVD is zero. -/
theorem pack_toNat (op : BitVec 4) (row col : Byte) (rh ch : Option Bit) :
    (pack op row col rh ch).toNat = op.toNat + 2 ^ 4 * row.toNat + 2 ^ 12 * col.toNat + 2 ^ 20 * (presentBit rh).toNat
      + 2 ^ 21 * (valueBit rh).toNat + 2 ^ 22 * (presentBit ch).toNat + 2 ^ 23 * (valueBit ch).toNat := by
  unfold pack
  rw [BitVec.toNat_ofNat]
  apply Nat.mod_eq_of_lt
  have := op.isLt; have := row.isLt; have := col.isLt
  have := (presentBit rh).isLt; have := (valueBit rh).isLt
  have := (presentBit ch).isLt; have := (valueBit ch).isLt
  omega

section
variable (op : BitVec 4) (row col : Byte) (rh ch : Option Bit)

@[simp] theorem opField_pack : opField (pack op row col rh ch) = op := by
  apply BitVec.eq_of_toNat_eq
  have := op.isLt
  simp only [opField, BitVec.extractLsb'_toNat, pack_toNat, Nat.shiftRight_eq_div_pow]; omega

@[simp] theorem rowField_pack : rowField (pack op row col rh ch) = row := by
  apply BitVec.eq_of_toNat_eq
  have := op.isLt; have := row.isLt
  simp only [rowField, BitVec.extractLsb'_toNat, pack_toNat, Nat.shiftRight_eq_div_pow]; omega

@[simp] theorem colField_pack : colField (pack op row col rh ch) = col := by
  apply BitVec.eq_of_toNat_eq
  have := op.isLt; have := row.isLt; have := col.isLt
  simp only [colField, BitVec.extractLsb'_toNat, pack_toNat, Nat.shiftRight_eq_div_pow]; omega

@[simp] theorem rhpField_pack : rhpField (pack op row col rh ch) = presentBit rh := by
  apply BitVec.eq_of_toNat_eq
  have := op.isLt; have := row.isLt; have := col.isLt; have := (presentBit rh).isLt
  simp only [rhpField, BitVec.extractLsb'_toNat, pack_toNat, Nat.shiftRight_eq_div_pow]; omega

@[simp] theorem rhField_pack : rhField (pack op row col rh ch) = valueBit rh := by
  apply BitVec.eq_of_toNat_eq
  have := op.isLt; have := row.isLt; have := col.isLt; have := (presentBit rh).isLt; have := (valueBit rh).isLt
  simp only [rhField, BitVec.extractLsb'_toNat, pack_toNat, Nat.shiftRight_eq_div_pow]; omega

@[simp] theorem chpField_pack : chpField (pack op row col rh ch) = presentBit ch := by
  apply BitVec.eq_of_toNat_eq
  have := op.isLt; have := row.isLt; have := col.isLt; have := (presentBit rh).isLt; have := (valueBit rh).isLt
  have := (presentBit ch).isLt
  simp only [chpField, BitVec.extractLsb'_toNat, pack_toNat, Nat.shiftRight_eq_div_pow]; omega

@[simp] theorem chField_pack : chField (pack op row col rh ch) = valueBit ch := by
  apply BitVec.eq_of_toNat_eq
  have := op.isLt; have := row.isLt; have := col.isLt; have := (presentBit rh).isLt; have := (valueBit rh).isLt
  have := (presentBit ch).isLt; have := (valueBit ch).isLt
  simp only [chField, BitVec.extractLsb'_toNat, pack_toNat, Nat.shiftRight_eq_div_pow]; omega

/-- READ's and WRITE's must-be-zero field is zero in every packed word. -/
@[simp] theorem bitsOf_pack_rsvd : bitsOf (pack op row col rh ch) ⟨31, 24⟩ = 0 := by
  have := op.isLt; have := row.isLt; have := col.isLt; have := (presentBit rh).isLt; have := (valueBit rh).isLt
  have := (presentBit ch).isLt; have := (valueBit ch).isLt
  simp only [bitsOf, pack_toNat]; omega

/-- RASONLY's high field is zero where there is no column-high operand. -/
@[simp] theorem bitsOf_pack_chp : bitsOf (pack op row col rh none) ⟨23, 22⟩ = 0 := by
  have := op.isLt; have := row.isLt; have := col.isLt; have := (presentBit rh).isLt; have := (valueBit rh).isLt
  simp only [bitsOf, pack_toNat, presentBit, valueBit]
  have : (0#1).toNat = 0 := rfl
  simp only [BitVec.ofNat_eq_ofNat, this]; omega

/-- RASONLY's column field is zero where the word packs column 0. -/
@[simp] theorem bitsOf_pack_col : bitsOf (pack op row 0 rh ch) ⟨19, 12⟩ = 0 := by
  have := op.isLt; have := row.isLt; have := (presentBit rh).isLt; have := (valueBit rh).isLt
  have : (0 : Byte).toNat = 0 := rfl
  simp only [bitsOf, pack_toNat, this]; omega

end

/-- The high operand is read back whole (R56, R61). -/
@[simp] theorem highOperand_bits (o : Option Bit) : highOperand (presentBit o) (valueBit o) = o := by
  cases o with
  | none => rfl
  | some b => rfl

/-- A packed word never carries a high value without its present bit (R58 check 3). -/
theorem high_has_present (o : Option Bit) : ¬(presentBit o = 0 ∧ valueBit o = 1) := by
  cases o with
  | none => intro h; exact absurd h.2 (by decide)
  | some b => intro h; exact absurd h.1 (by show ¬(1 : Bit) = 0; decide)

end Sys2Proof.Laws
end

