-- ==== Sys2Proof/Laws/PerInstr.lean ====
section
/-! SUPPORT. Facts about every command as syntax, one lemma per constructor. Family EncodedFields: the encoded word
names the command's operation in OP, has no must-be-zero bit set, and gives the operands back. -/

namespace Sys2Proof.Laws

/-- The operation a command stands for (30_encoding.md R57). -/
def opcodeOfInstr : Instr → Opcode
  | .idle => .idle
  | .read _ _ _ _ => .read
  | .write _ _ _ _ => .write
  | .refresh => .refresh
  | .rasonly _ _ => .rasonly
  | .wait _ => .wait
  | .setdin _ => .setdin
  | .errpulse => .errpulse

end Sys2Proof.Laws

namespace Sys2Proof.Laws.EncodedFields

/-- What the word of a command says field by field (R55-R57). -/
def Statement (i : Instr) : Prop :=
  opcodeOf (opField (encode i)) = some (opcodeOfInstr i) ∧ hasUnusedBit (opcodeOfInstr i) (encode i) = false
    ∧ commandOf (opcodeOfInstr i) (encode i) = i

theorem idle : Statement .idle := by unfold Statement; decide

theorem refresh : Statement .refresh := by unfold Statement; decide

theorem errpulse : Statement .errpulse := by unfold Statement; decide

theorem setdin (v : Bit) : Statement (.setdin v) := by unfold Statement; revert v; decide

theorem wait (n : Byte) : Statement (.wait n) := by unfold Statement; revert n; decide

theorem read (row col : Byte) (rh ch : Option Bit) : Statement (.read row col rh ch) := by
  refine ⟨?_, ?_, ?_⟩
  · rw [encode, opField_pack]; rfl
  · simp [hasUnusedBit, mustBeZero, opcodeOfInstr, encode]
  · simp [commandOf, opcodeOfInstr, encode]

theorem write (row col : Byte) (rh ch : Option Bit) : Statement (.write row col rh ch) := by
  refine ⟨?_, ?_, ?_⟩
  · rw [encode, opField_pack]; rfl
  · simp [hasUnusedBit, mustBeZero, opcodeOfInstr, encode]
  · simp [commandOf, opcodeOfInstr, encode]

theorem rasonly (row : Byte) (rh : Option Bit) : Statement (.rasonly row rh) := by
  refine ⟨?_, ?_, ?_⟩
  · rw [encode, opField_pack]; rfl
  · have h := bitsOf_pack_col 4 row rh none
    simp [hasUnusedBit, mustBeZero, opcodeOfInstr, encode]
    simpa using h
  · simp [commandOf, opcodeOfInstr, encode]

end Sys2Proof.Laws.EncodedFields
end

