-- ==== Sys2Proof/Safety.lean ====
section
/-! DEFINITION. What counts as a good run (60_exceptions.md R107), the invariants of the machine, and the premises
the spec's laws about the DRAM's contents rest on (70_reset_and_hazards.md R111, R112). -/

namespace Sys2Proof.Machine

/-- A run *ends well* in `s`: the last operation has ended and nothing was refused (R107). -/
def State.endsWell (s : State) : Bool := decide (s.op = none) && !s.refused

/-- The value CTRL holds after the micro-operations `ops` of an operation that began from CTRL_DEFAULT. -/
def ctrlAfter (ops : List MicroOp) : Lines :=
  ops.foldl (fun c m => match m with
    | .stCtrl v => v.bits
    | .stAddr _ => c
    | .stA8 _ => c
    | .stDin _ => c
    | .nop => c
    | .sample => c) CtrlValue.default.bits

/-- R74: between operations CTRL is CTRL_DEFAULT; inside one it holds what the micro-operations done so far have
left. -/
def State.portInv (s : State) : Prop :=
  match s.op with
  | none => s.ctrl = CtrlValue.default.bits
  | some (cmd, k) => s.ctrl = ctrlAfter ((microOps cmd s.params s.rc).take k)

/-- The DRAM's data is in canonical form: cells that exist, each 0 or 1 (R30, R39), and refresh rows that are row
bytes (R45). -/
def Dram.wf (k : Kind) (d : Dram) : Prop :=
  Memory.wf k d.cells ∧ Sparse.rising d.lastref ∧ (∀ e ∈ d.lastref, e.1 < 256) ∧ ∀ c ∈ d.watch.pend, c.row < 256

/-- The canonical form of the state's memory. -/
def State.memInv (s : State) : Prop := s.dram.wf s.params.kind

/-- A row is latched exactly while RAS is low and a column exactly while CAS is low (R40-R44), and a drive of DOUT
is in progress only while a column is latched (R43). -/
def State.latchInv (s : State) : Prop :=
  s.dram.rlat.isSome = !Ctrl.rasN s.ctrl ∧ s.dram.clat.isSome = !Ctrl.casN s.ctrl
    ∧ (s.dram.clat = none → ∀ v ∈ s.dram.drives, v.rise.isSome)

/-- No time the DRAM or its watch remembers lies after `t`. -/
structure Dram.NotAfter (t : Nat) (d : Dram) : Prop where
  addrAt : ∀ e, d.watch.addrAt = some e → e ≤ t
  a8At : ∀ e, d.watch.a8At = some e → e ≤ t
  dinAt : ∀ e, d.watch.dinAt = some e → e ≤ t
  weFall : ∀ e, d.watch.weFall = some e → e ≤ t
  cas : ∀ x, d.watch.cas = some x → x.1 ≤ t
  prevRise : ∀ e, d.watch.prevRise = some e → e ≤ t
  rlat : ∀ r, d.rlat = some r → r.rfall ≤ t
  clat : ∀ c, d.clat = some c → c.cfall ≤ t
  lastref : ∀ e ∈ d.lastref, e.2 ≤ t
  drives : ∀ v ∈ d.drives, v.cfall ≤ t ∧ (∀ e, v.ref = some e → e ≤ t) ∧ ∀ e, v.rise = some e → e ≤ t
  pend : ∀ c ∈ d.watch.pend, c.rise ≤ t ∧ c.rfall ≤ t ∧ (∀ x, c.cas = some x → x.1 ≤ t)
    ∧ ∀ e, c.refBefore = some e → e ≤ t

/-- Nothing in the DRAM's memory of the run lies in the future (R24). -/
def State.timeInv (s : State) : Prop := s.dram.NotAfter s.t

/-- The ended cycles that are remembered stand newest first, each remembers a credit older than itself, and the
wake-up count holds the credit of each that has one (R44, log entry 8). -/
structure Dram.PendInOrder (d : Dram) : Prop where
  newestFirst : d.watch.pend.Pairwise (fun x y => y.rise < x.rise)
  before : ∀ c ∈ d.watch.pend, ∀ e, c.refBefore = some e → e < c.rise
  counted : d.watch.pend.countP Past.credited ≤ d.wake

/-- No cell gains or changes a value: what `m'` knows, `m` knew. -/
def onlyFades (m m' : List Host.Cell) : Prop := ∀ a b, Memory.read a m' = some b → Memory.read a m = some b

/-- No refresh row decays up to time `t` (R46). -/
def Dram.keptUntil (p : Params) (t : Nat) (d : Dram) : Prop := ∀ e ∈ d.lastref, expired p t e.2 = false

/-- The credit of a cell's refresh row does not run out by time `t` (R46, R49). -/
def State.rowKept (s : State) (cell t : Nat) : Prop :=
  ∀ e ∈ s.dram.lastref, e.1 = cellRow cell → expired s.params t e.2 = false

/-- How long RAS is low in READ: `τE - τR` (R78). -/
def readRasLow (p : Params) (ch : Option Bit) : Nat :=
  p.dRcd + 2 * p.cSt + present ch * p.cA8 + p.dCac + p.cIn + p.cSt

/-- How long RAS is low in WRITE: `τE - τR` (R80). -/
def writeRasLow (p : Params) (ch : Option Bit) : Nat := p.dRcd + 2 * p.cSt + present ch * p.cA8 + p.dCas + p.cSt

/-- The length of each operation in cycles (R121). -/
def opCycles (p : Params) : Instr → Nat
  | .idle => p.cSt
  | .read _ _ rh ch => 5 * p.cSt + (present rh + present ch) * p.cA8 + p.dRcd + p.dCac + p.cIn
  | .write _ _ rh ch => 5 * p.cSt + (present rh + present ch) * p.cA8 + p.dRcd + p.dCas
  | .refresh => 3 * p.cSt + p.dRas
  | .rasonly _ rh => 3 * p.cSt + present rh * p.cA8 + p.dRas
  | .wait n => n.toNat
  | .setdin _ => p.cDin
  | .errpulse => 2 * p.cSt + p.dErr

/-! ### Which cycles break a predicate (R111)

The predicates are read off the times of R78, R80, R83 and R84, for an operation that begins in `s` between
operations. A hold window that a store made after the operation falls into is a matter of its own, below. -/

/-- When RAS falls: `τR`. -/
def rasAt (s : State) (rh : Option Bit) : Nat := s.t + 2 * s.params.cSt + present rh * s.params.cA8

/-- When the column's ADDR store takes effect. -/
def colAt (s : State) (rh : Option Bit) : Nat := rasAt s rh + s.params.dRcd + s.params.cSt

/-- When CAS falls: `τC`. -/
def casAt (s : State) (rh ch : Option Bit) : Nat := colAt s rh + s.params.cSt + present ch * s.params.cA8

/-- When the A8 store before the RAS fall took effect: the operation's own, else the last one. -/
def rowA8At (s : State) (rh : Option Bit) : Option Nat :=
  if rh.isSome then some (s.t + s.params.cSt + s.params.cA8) else s.dram.watch.a8At

/-- When the A8 store before the CAS fall took effect. -/
def colA8At (s : State) (rh ch : Option Bit) : Option Nat :=
  if ch.isSome then some (colAt s rh + s.params.cA8) else rowA8At s rh

/-- P5, and the setup side of P6: RAS high for less than T_RP, or an address store less than T_ASR before RAS falls;
A8 counts on Dram256K only. -/
def rowBreaks (s : State) (rh : Option Bit) : Bool :=
  let p := s.params
  let τR := rasAt s rh
  tooRecent p τR p.tRp s.dram.watch.prevRise || tooRecent p τR p.tAsr (some (s.t + p.cSt))
    || (decide (p.kind = .dram256K) && tooRecent p τR p.tAsr (rowA8At s rh))

/-- P1, the hold side of P6 against the column's address stores, and the setup side of P7. -/
def colBreaks (s : State) (rh ch : Option Bit) : Bool :=
  let p := s.params
  let τR := rasAt s rh
  let τC := casAt s rh ch
  let k := decide (p.kind = .dram256K)
  !atLeast p (τC - τR) p.tRcd
    || inHold p (colAt s rh) τR p.tRah || (k && ch.isSome && inHold p (colAt s rh + p.cA8) τR p.tRah)
    || tooRecent p τC p.tAsc (some (colAt s rh)) || (k && tooRecent p τC p.tAsc (colA8At s rh ch))

/-- P8 and P9 before CAS falls: WE, which falls with RAS, not strictly before it or less than T_WCS before it, or a
DIN store less than T_DS before it. -/
def writeBreaks (s : State) (rh ch : Option Bit) : Bool :=
  let p := s.params
  let τR := rasAt s rh
  let τC := casAt s rh ch
  decide (τC ≤ τR) || !atLeast p (τC - τR) p.tWcs || tooRecent p τC p.tDs s.dram.watch.dinAt

/-- The operation breaks a predicate of R111 by its own times. -/
def State.breaks (s : State) (i : Instr) : Bool :=
  let p := s.params
  let τE := s.t + opCycles p i
  match i with
  | .read _ _ rh ch =>
    let τC := casAt s rh ch
    rowBreaks s rh || colBreaks s rh ch
      || decide (p.dCac < p.lIn) || inHold p (τC + p.dCac - p.lIn) τC p.tCac
      || inHold p τE τC p.tCas || inHold p τE (rasAt s rh) p.tRas
  | .write _ _ rh ch =>
    let τC := casAt s rh ch
    rowBreaks s rh || colBreaks s rh ch || writeBreaks s rh ch
      || inHold p τE τC p.tWch || inHold p τE τC p.tCas || inHold p τE (rasAt s rh) p.tRas
  | .refresh => rowBreaks s none || inHold p τE (rasAt s none) p.tRas
  | .rasonly _ rh => rowBreaks s rh || inHold p τE (rasAt s rh) p.tRas
  | .idle => false
  | .wait _ => false
  | .setdin _ => false
  | .errpulse => false

/-- The CAS fall an operation makes, and its mode. -/
def casFallOf (s : State) (i : Instr) : Option (Nat × CasMode) :=
  match i with
  | .read _ _ rh ch => some (casAt s rh ch, .read)
  | .write _ _ rh ch => some (casAt s rh ch, .write)
  | .refresh => none
  | .rasonly _ _ => none
  | .idle => none
  | .wait _ => none
  | .setdin _ => none
  | .errpulse => none

/-- The row-high operand of an operation. -/
def rowHighOf (i : Instr) : Option Bit :=
  match i with
  | .read _ _ rh _ => rh
  | .write _ _ rh _ => rh
  | .rasonly _ rh => rh
  | .refresh => none
  | .idle => none
  | .wait _ => none
  | .setdin _ => none
  | .errpulse => none

/-- The operation makes a RAS cycle (R78, R80, R83, R84). -/
def makesCycle (i : Instr) : Bool :=
  match i with
  | .read _ _ _ _ => true
  | .write _ _ _ _ => true
  | .refresh => true
  | .rasonly _ _ => true
  | .idle => false
  | .wait _ => false
  | .setdin _ => false
  | .errpulse => false

/-- The pin stores the operation makes. -/
def State.ownStores (s : State) (i : Instr) : List PinStore := storesOf s.params s.t (microOps i s.params s.rc)

/-- The pin stores the host makes after the operation (R73, R93). -/
def State.laterStores (s : State) (i : Instr) : List PinStore :=
  if s.refused then [] else queueStores s.params (s.t + opCycles s.params i) s.host

/-- A pin store falls into a hold window of the operation's cycle (P6, P7, P9). -/
def State.hitBy (s : State) (i : Instr) (e : PinStore) : Bool := e.hits s.params (rasAt s (rowHighOf i)) (casFallOf s i)

/-- None of the stores falls into a hold window of a cycle that has ended. -/
def State.untouched (s : State) (es : List PinStore) : Prop :=
  ∀ c ∈ s.dram.watch.pend, ∀ e ∈ es, c.hitBy s.params e = false

/-! ### R112's figures -/

/-- What R112 asks of the parameters so that the address phases of READ and WRITE meet P1, P6 (setup and row hold)
and P7 (setup), with `ch` the column-high operand. -/
def addressTiming (p : Params) (ch : Option Bit) : Prop :=
  atLeast p (p.dRcd + 2 * p.cSt + present ch * p.cA8) p.tRcd = true ∧ atLeast p p.cSt p.tAsr = true
    ∧ atLeast p (p.dRcd + p.cSt) p.tRah = true ∧ atLeast p p.cSt p.tAsc = true

/-- R112's conditions on the parameters for READ: P1-P4, P6 and the setup of P7. -/
def readTiming (p : Params) (ch : Option Bit) : Prop :=
  addressTiming p ch ∧ p.lIn ≤ p.dCac ∧ atLeast p (p.dCac - p.lIn) p.tCac = true
    ∧ atLeast p (p.dCac + p.cIn + p.cSt) p.tCas = true ∧ atLeast p (readRasLow p ch) p.tRas = true

/-- R112's conditions on the parameters for WRITE: P1, P3, P4, P6, P8 and the setup of P7 and P9. -/
def writeTiming (p : Params) (ch : Option Bit) : Prop :=
  addressTiming p ch ∧ atLeast p (p.dCas + p.cSt) p.tCas = true ∧ atLeast p (writeRasLow p ch) p.tRas = true
    ∧ atLeast p (p.dRcd + 2 * p.cSt + present ch * p.cA8) p.tWcs = true ∧ 1 ≤ p.cSt
    ∧ atLeast p (p.dCas + p.cSt) p.tWch = true ∧ atLeast p (p.dRcd + 4 * p.cSt) p.tDs = true

/-- R112's conditions on the parameters for REFRESH and RASONLY: P4 and the setup of P6. -/
def rasOnlyTiming (p : Params) : Prop :=
  atLeast p (p.dRas + p.cSt) p.tRas = true ∧ atLeast p p.cSt p.tAsr = true

/-- R112's conditions for an operation. -/
def timingMet (p : Params) (i : Instr) : Prop :=
  match i with
  | .read _ _ _ ch => readTiming p ch
  | .write _ _ _ ch => writeTiming p ch
  | .refresh => rasOnlyTiming p
  | .rasonly _ _ => rasOnlyTiming p
  | .idle => True
  | .wait _ => True
  | .setdin _ => True
  | .errpulse => True

/-- RAS has been high long enough for a cycle whose row-high operand is `rh` to begin at once (P5, R112, R114). -/
def precharged (s : State) (rh : Option Bit) : Prop :=
  ∀ e, s.dram.watch.prevRise = some e → atLeast s.params (rasAt s rh - e) s.params.tRp = true

/-- Between operations, the lines idle and the latches empty. Hold windows of ended cycles may be open. -/
def State.quiet (s : State) : Prop := s.ctrl = CtrlValue.default.bits ∧ s.latchInv ∧ s.timeInv

/-- The DRAM is past its power-up (R47, R109): awake, and its RAS falls count. -/
def State.awake (s : State) : Prop := s.params.nWake ≤ s.dram.wake ∧ atLeast s.params s.t s.params.tPwr = true

/-- The row a cycle with these operands latches, with the A8 level before it (R31). -/
def rowOf (s : State) (row : Byte) (rh : Option Bit) : Index := indexOf s.params.kind row (a8After rh s.a8)

/-- The column a cycle with these operands latches: A8 holds the row-high value unless the column-high operand is
present (R31, R77). -/
def colOf (s : State) (col : Byte) (rh ch : Option Bit) : Index :=
  indexOf s.params.kind col (a8After ch (a8After rh s.a8))

/-- The cell a READ or WRITE with these operands reaches (R31). -/
def cellOf (s : State) (row col : Byte) (rh ch : Option Bit) : Nat :=
  cellNo s.params.kind (rowOf s row rh) (colOf s col rh ch)

/-! ### Between a WRITE and the READ of its cell (R49) -/

/-- R49 lets the operation come, `g` cycles after `s`, between the WRITE and the READ of a cell: no cycle is in
violation, by the operation's own times or by a store of its own, it writes no cell of that number, and the credit of
the cell's row does not run out. -/
def State.mayIntervene (s : State) (cell g : Nat) (i : Instr) : Prop :=
  let u := s.pass g
  u.breaks i = false ∧ u.untouched (u.ownStores i) ∧ s.rowKept cell (u.t + opCycles s.params i)
    ∧ ∀ row col rh ch, i = .write row col rh ch → cellOf u row col rh ch ≠ cell

/-- `s` leads to `t` by operations, each after a gap, that may all come between the WRITE and the READ of a cell. -/
def State.leadsTo (cell : Nat) : List (Nat × Instr) → State → State → Prop
  | [], s, t => t = s
  | (g, i) :: rest, s, t => s.mayIntervene cell g i ∧ ∃ u, exec i (s.pass g) = .next u ∧ State.leadsTo cell rest u t

/-! ### What statements say of words, lists and events -/

/-- R58's checks on the numbers of the word's fields, in R58's order. -/
def refusalOf (w : Nat) : Option RefuseCode :=
  let op := w % 16
  if 8 ≤ op then some .reservedOp
  else if (op = 0 ∨ op = 3 ∨ op = 7) ∧ w / 2 ^ 4 ≠ 0 then some .nonzeroUnused
  else if (op = 1 ∨ op = 2) ∧ w / 2 ^ 24 ≠ 0 then some .nonzeroUnused
  else if op = 4 ∧ (w / 2 ^ 22 ≠ 0 ∨ w / 2 ^ 12 % 256 ≠ 0) then some .nonzeroUnused
  else if op = 5 ∧ w / 2 ^ 12 ≠ 0 then some .nonzeroUnused
  else if op = 6 ∧ w / 2 ^ 5 ≠ 0 then some .nonzeroUnused
  else if (op = 1 ∨ op = 2 ∨ op = 4) ∧ w / 2 ^ 20 % 4 = 2 then some .highWithoutPresent
  else if (op = 1 ∨ op = 2) ∧ w / 2 ^ 22 % 4 = 2 then some .highWithoutPresent
  else if op = 5 ∧ 16 < w / 2 ^ 4 % 256 then some .waitRange
  else none

/-- The CTRL values an operation's list stores, in order. -/
def ctrlStores (ops : List MicroOp) : List Lines :=
  ops.filterMap (fun m => match m with
    | .stCtrl v => some v.bits
    | .stAddr _ => none
    | .stA8 _ => none
    | .stDin _ => none
    | .nop => none
    | .sample => none)

/-- The A8 store of a phase: recorded where the high operand is present, at `τ` (R66, R78). -/
def a8StoreEvents (p : Params) (o : Option Bit) (old : Bit) (τ : Nat) : List Event :=
  match o with
  | none => []
  | some b => [.store (.a8 old b) τ (τ + p.cA8)]

/-- The pin store an event records (R25). -/
def Event.pinStore (e : Event) : Option PinStore :=
  match e with
  | .store (.addr _ _) _ teff => some ⟨.addr, teff⟩
  | .store (.a8 _ _) _ teff => some ⟨.a8, teff⟩
  | .store (.din _ _) _ teff => some ⟨.din, teff⟩
  | .store (.ctrl _ _) _ _ => none
  | .opBegin _ _ => none
  | .sample _ _ _ => none
  | .opEnd _ _ => none
  | .refused _ _ _ => none

/-- The value an event says was stored into ADDR (R25). -/
def Event.addrStored (e : Event) : Option Byte :=
  match e with
  | .store (.addr _ new) _ _ => some new
  | .store (.a8 _ _) _ _ => none
  | .store (.din _ _) _ _ => none
  | .store (.ctrl _ _) _ _ => none
  | .opBegin _ _ => none
  | .sample _ _ _ => none
  | .opEnd _ _ => none
  | .refused _ _ _ => none

/-- An event without the value a sample returned. -/
def Event.unseen : Event → Event
  | .sample _ t0 tpin => .sample 0 t0 tpin
  | .opBegin cmd t => .opBegin cmd t
  | .store c t0 teff => .store c t0 teff
  | .opEnd cmd t => .opEnd cmd t
  | .refused w c t => .refused w c t

/-- R46: a row without a credit holds only `?`, but for the row of the cycle in progress. What makes it so: the DRAM
is awake only once RAS falls count (R47). -/
def State.creditInv (s : State) : Prop :=
  1 ≤ s.params.nWake ∧ (1 ≤ s.dram.wake → atLeast s.params s.t s.params.tPwr = true)
    ∧ (∀ r, s.dram.rlat = some r → 1 ≤ s.dram.wake → atLeast s.params r.rfall s.params.tPwr = true)
    ∧ ∀ a b, Memory.read a s.dram.cells = some b → (Sparse.get (cellRow a) s.dram.lastref).isSome = true
      ∨ ∃ r, s.dram.rlat = some r ∧ refRow r.row = cellRow a
        ∧ (s.dram.watch.viol = false → atLeast s.params r.rfall s.params.tPwr = true)

end Sys2Proof.Machine
end

