-- ==== Sys2Proof/Certificates/Slice0/Obligations.lean ====
section
/-! DEFINITION. The statements for the provers, from the numbered rules of spec/. Every statement quantifies over
the parameters (00_scope.md R7), which stand in the state, and over every value of a draw. -/

open Sys2Proof Sys2Proof.Machine

/-! ### Encoding -/

/-- R57, R58, R61: the word of every well-formed command decodes to that command, whatever its operands. -/
def Obligations.DecodeEncode : Prop := ∀ i : Instr, i.wf = true → decode (encode i) = .command i

/-- R58: each accepted command has exactly one word. A word that decodes to a command is that command's word, and
the command is well formed. -/
def Obligations.EncodeDecode : Prop :=
  ∀ (w : CmdWord) (i : Instr), decode w = .command i → i.wf = true ∧ encode i = w

/-- R58, R59, R96: a word is refused exactly for R58's causes, with the code of the first check it breaks; every
other word is a command. -/
def Obligations.RefusedWords : Prop :=
  ∀ w : CmdWord, (∀ c, decode w = .refuse c ↔ refusalOf w.toNat = some c)
    ∧ ((∃ i, decode w = .command i) ↔ refusalOf w.toNat = none)

/-- A word of each operation, and one for each refusal code, as 95_test_vectors.md 2.1 lists them. -/
def Obligations.DecodeWords : Prop :=
  decode 0x00000000 = .command .idle ∧ decode 0x00717421 = .command (.read 0x42 0x17 (some 1) (some 0))
    ∧ decode 0x00F17422 = .command (.write 0x42 0x17 (some 1) (some 1)) ∧ decode 0x00000003 = .command .refresh
    ∧ decode 0x00300054 = .command (.rasonly 0x05 (some 1)) ∧ decode 0x00000105 = .command (.wait 16)
    ∧ decode 0x00000016 = .command (.setdin 1) ∧ decode 0x00000007 = .command .errpulse
    ∧ decode 0x0000000F = .refuse .reservedOp ∧ decode 0x01200001 = .refuse .nonzeroUnused
    ∧ decode 0x00A00001 = .refuse .highWithoutPresent ∧ decode 0x00000115 = .refuse .waitRange

/-! ### Micro-operations -/

/-- R65: st_addr writes its byte into ADDR at the end of the store; no other micro-operation changes ADDR; and over
every step, whatever it does, ADDR ends at the value of the last ADDR store the step records, or as it was. -/
def Obligations.StAddrWritesAddr : Prop :=
  (∀ (s : State) (v : Byte), (s.perform (.stAddr v)).addr = v ∧ (s.perform (.stAddr v)).t = s.t + s.params.cSt
      ∧ (s.perform (.stAddr v)).trace = s.trace ++ [.store (.addr s.addr v) s.t (s.t + s.params.cSt)]
      ∧ ∀ m, (s.perform m).addr ≠ s.addr → ∃ v', m = .stAddr v')
    ∧ ∀ s t : State, step s = .next t →
      ∃ es, t.trace = s.trace ++ es ∧ t.addr = (es.filterMap Event.addrStored).getLastD s.addr

/-- R66: st_a8 writes its bit into A8 at the end of the store, and an operation issues it only with the value of a
high operand that is present. -/
def Obligations.StA8WritesA8 : Prop :=
  (∀ (s : State) (b : Bit), (s.perform (.stA8 b)).a8 = b ∧ (s.perform (.stA8 b)).t = s.t + s.params.cA8
      ∧ (s.perform (.stA8 b)).trace = s.trace ++ [.store (.a8 s.a8 b) s.t (s.t + s.params.cA8)])
    ∧ ∀ (cmd : Instr) (p : Params) (rc : Byte) (b : Bit), .stA8 b ∈ microOps cmd p rc →
      ∃ row col rh ch, (cmd = .read row col rh ch ∨ cmd = .write row col rh ch ∨ (cmd = .rasonly row rh ∧ ch = none))
        ∧ (rh = some b ∨ ch = some b)

/-- R68: st_din writes its bit into DIN at the end of the store, and only SETDIN issues it. -/
def Obligations.StDinWritesDin : Prop :=
  (∀ (s : State) (b : Bit), (s.perform (.stDin b)).din = b ∧ (s.perform (.stDin b)).t = s.t + s.params.cDin)
    ∧ ∀ (cmd : Instr) (p : Params) (rc : Byte) (b : Bit), .stDin b ∈ microOps cmd p rc → cmd = .setdin b

/-- R69: a no-op changes no register, records no event, and takes one cycle. -/
def Obligations.NopOnlyTakesACycle : Prop :=
  ∀ s : State, s.effect .nop = { s with t := s.t + 1, dram := (s.effect .nop).dram }

/-- R70, R29, D24: a sample takes C_IN cycles and records one bit, which it hands on: before time L_IN a draw of its
own of the DOUT register, which holds its reset draw, else the level of the line L_IN cycles before, or the next fresh
draw where the line had none. Two samples before time L_IN take two draws, of which nothing says that they agree or
differ (D24; log entry 19). No register, the DOUT register among them, no line and no cell changes, while no row
decays. The level is the reference DRAM's: that it depends on the stores to come, as far as a hold window outlasts the
sample, is log entries 8 and 13. -/
def Obligations.SampleSeesThePin : Prop :=
  ∀ s : State,
    let level := (s.dram.judgeSample s.params s.pin).dout s.params (s.t - s.params.lIn) s.readEnd s.coming
    ∃ q, s.effect .sample = { s with
      t := s.t + s.params.cIn
      trace := s.trace ++ [.sample q s.t ((s.t : Int) - s.params.lIn)]
      readSample := some q
      draws := (s.effect .sample).draws
      dram := (s.effect .sample).dram }
    ∧ (s.t < s.params.lIn → q = Config.resetSample s.doutReset s.draws
        ∧ (s.effect .sample).draws = s.draws + 1)
    ∧ (∀ b, s.params.lIn ≤ s.t → level = some b → q = b ∧ (s.effect .sample).draws = s.draws)
    ∧ (s.params.lIn ≤ s.t → level = none → q = Config.freeBit s.draws ∧ (s.effect .sample).draws = s.draws + 1)
    ∧ (s.dram.keptUntil s.params (s.t + s.params.cIn) → (s.effect .sample).dram.cells = s.dram.cells)

/-- R71: wait(n) takes exactly n cycles and leaves every register, the trace and the draws alone; wait(a) followed
by wait(b) is wait(a + b). R71 says so for n up to 16; that it holds above 16 too is the model's choice (log entry
17). -/
def Obligations.WaitsAdd : Prop :=
  (∀ (n : Nat) (s : State), s.runOps (waitOps n)
      = { s with t := s.t + n, op := s.op.map (fun o => (o.1, o.2 + n)), dram := (s.runOps (waitOps n)).dram })
    ∧ ∀ (a b : Nat) (s : State), (s.runOps (waitOps a)).runOps (waitOps b) = s.runOps (waitOps (a + b))

/-- R18, R67, R75: the CTRL values each operation stores, bit 4 down to bit 0 being ERR RE WE CAS RAS. -/
def Obligations.ControlSequences : Prop :=
  ∀ (p : Params) (rc : Byte) (cmd : Instr), ctrlStores (microOps cmd p rc) = match cmd with
    | .idle => [0b11111]
    | .read _ _ _ _ => [0b10110, 0b10100, 0b11111]
    | .write _ _ _ _ => [0b11010, 0b11000, 0b11111]
    | .refresh => [0b11110, 0b11111]
    | .rasonly _ _ => [0b11110, 0b11111]
    | .wait _ => []
    | .setdin _ => []
    | .errpulse => [0b01111, 0b11111]

/-! ### What each operation does (completion, result and frame of everything but the DRAM) -/

/-- R86: IDLE stores CTRL_DEFAULT into CTRL, which already holds it, in C_ST cycles. -/
def Obligations.IdleResult : Prop :=
  ∀ s : State, s.ctrl = 0x1F → ∃ t, exec .idle s = .next t ∧ t = { s with
    op := none
    readSample := none
    t := s.t + s.params.cSt
    trace := s.trace ++ [.opBegin .idle s.t, .store (.ctrl 0x1F 0x1F) s.t (s.t + s.params.cSt),
      .opEnd .idle (s.t + s.params.cSt)]
    dram := t.dram }

/-- R87: SETDIN sets DIN, in C_DIN cycles, and nothing else of the driver. -/
def Obligations.SetdinResult : Prop :=
  ∀ (s : State) (v : Bit), s.ctrl = 0x1F → ∃ t, exec (.setdin v) s = .next t ∧ t = { s with
    din := v
    op := none
    readSample := none
    t := s.t + s.params.cDin
    trace := s.trace ++ [.opBegin (.setdin v) s.t, .store (.din s.din v) s.t (s.t + s.params.cDin),
      .opEnd (.setdin v) (s.t + s.params.cDin)]
    dram := t.dram }

/-- R88: ERRPULSE drives ERR low for D_ERR + C_ST cycles and returns it high. For a D_ERR above 16 the length is the
model's choice (log entry 17). -/
def Obligations.ErrpulseResult : Prop :=
  ∀ s : State, s.ctrl = 0x1F → ∃ t, exec .errpulse s = .next t ∧ t = { s with
    op := none
    readSample := none
    t := s.t + 2 * s.params.cSt + s.params.dErr
    trace := s.trace ++ [.opBegin .errpulse s.t, .store (.ctrl 0x1F 0x0F) s.t (s.t + s.params.cSt),
      .store (.ctrl 0x0F 0x1F) (s.t + s.params.cSt + s.params.dErr) (s.t + 2 * s.params.cSt + s.params.dErr),
      .opEnd .errpulse (s.t + 2 * s.params.cSt + s.params.dErr)]
    dram := t.dram }

/-- R76: WAIT n takes exactly n cycles; no line changes; the trace gains only OpBegin and OpEnd. That it does so for
n above 16 too, which no word decodes to, is the model's choice (log entry 9). -/
def Obligations.WaitResult : Prop :=
  ∀ (s : State) (n : Byte), s.ctrl = 0x1F → ∃ t, exec (.wait n) s = .next t ∧ t = { s with
    op := none
    readSample := none
    t := s.t + n.toNat
    trace := s.trace ++ [.opBegin (.wait n) s.t, .opEnd (.wait n) (s.t + n.toNat)]
    dram := t.dram }

/-- R82, R83, R89: REFRESH puts RC on ADDR, pulses RAS alone, and advances RC by one mod 256; A8 and DIN keep
their values. For a D_RAS above 16 the length is the model's choice (log entry 17). -/
def Obligations.RefreshResult : Prop :=
  ∀ s : State, s.ctrl = 0x1F →
    let τR := s.t + 2 * s.params.cSt
    let τE := τR + s.params.dRas + s.params.cSt
    ∃ t, exec .refresh s = .next t ∧ t = { s with
      addr := s.rc
      rc := s.rc + 1
      op := none
      readSample := none
      t := τE
      trace := s.trace ++ [.opBegin .refresh s.t, .store (.addr s.addr s.rc) s.t (s.t + s.params.cSt),
        .store (.ctrl 0x1F 0x1E) (s.t + s.params.cSt) τR, .store (.ctrl 0x1E 0x1F) (τR + s.params.dRas) τE,
        .opEnd .refresh τE]
      dram := t.dram }

/-- R84: RASONLY puts its row on ADDR, its high bit where present on A8, and pulses RAS alone; RC does not
move. For a D_RAS above 16 the length is the model's choice (log entry 17). -/
def Obligations.RasonlyResult : Prop :=
  ∀ (s : State) (row : Byte) (rh : Option Bit), s.ctrl = 0x1F →
    let τ1 := s.t + s.params.cSt
    let τR := s.t + 2 * s.params.cSt + present rh * s.params.cA8
    let τE := τR + s.params.dRas + s.params.cSt
    ∃ t, exec (.rasonly row rh) s = .next t ∧ t = { s with
      addr := row
      a8 := rh.getD s.a8
      op := none
      readSample := none
      t := τE
      trace := s.trace ++ ([.opBegin (.rasonly row rh) s.t, .store (.addr s.addr row) s.t τ1]
        ++ a8StoreEvents s.params rh s.a8 τ1
        ++ [.store (.ctrl 0x1F 0x1E) (τR - s.params.cSt) τR, .store (.ctrl 0x1E 0x1F) (τR + s.params.dRas) τE,
          .opEnd (.rasonly row rh) τE])
      dram := t.dram }

/-- R77, R78: READ's stores and its one sample, each at its time, CTRL idle again at the end, and the sampled bit
handed back. DIN and RC keep their values. For a D_RCD or D_CAC above 16 the times are the model's choice (log entry
17). -/
def Obligations.ReadResult : Prop :=
  ∀ (s : State) (row col : Byte) (rh ch : Option Bit), s.ctrl = 0x1F →
    let p := s.params
    let τ1 := s.t + p.cSt
    let τR := s.t + 2 * p.cSt + present rh * p.cA8
    let τ2 := τR + p.dRcd + p.cSt
    let τC := τR + p.dRcd + 2 * p.cSt + present ch * p.cA8
    let τS := τC + p.dCac
    let τE := τS + p.cIn + p.cSt
    ∃ t q, exec (.read row col rh ch) s = .next t ∧ t = { s with
      addr := col
      a8 := ch.getD (rh.getD s.a8)
      op := none
      readSample := some q
      t := τE
      trace := s.trace ++ ([.opBegin (.read row col rh ch) s.t, .store (.addr s.addr row) s.t τ1]
        ++ a8StoreEvents p rh s.a8 τ1
        ++ [.store (.ctrl 0x1F 0x16) (τR - p.cSt) τR, .store (.addr row col) (τR + p.dRcd) τ2]
        ++ a8StoreEvents p ch (rh.getD s.a8) τ2
        ++ [.store (.ctrl 0x16 0x14) (τC - p.cSt) τC, .sample q τS ((τS : Int) - p.lIn),
          .store (.ctrl 0x14 0x1F) (τS + p.cIn) τE, .opEnd (.read row col rh ch) τE])
      draws := t.draws
      dram := t.dram }

/-- R79, R80: WRITE's stores, each at its time, WE falling with RAS and strictly before CAS, CTRL idle again at
the end. No sample is read; DIN and RC keep their values. For a D_RCD or D_CAS above 16 the times are the model's
choice (log entry 17). -/
def Obligations.WriteResult : Prop :=
  ∀ (s : State) (row col : Byte) (rh ch : Option Bit), s.ctrl = 0x1F →
    let p := s.params
    let τ1 := s.t + p.cSt
    let τR := s.t + 2 * p.cSt + present rh * p.cA8
    let τ2 := τR + p.dRcd + p.cSt
    let τC := τR + p.dRcd + 2 * p.cSt + present ch * p.cA8
    let τE := τC + p.dCas + p.cSt
    ∃ t, exec (.write row col rh ch) s = .next t ∧ t = { s with
      addr := col
      a8 := ch.getD (rh.getD s.a8)
      op := none
      readSample := none
      t := τE
      trace := s.trace ++ ([.opBegin (.write row col rh ch) s.t, .store (.addr s.addr row) s.t τ1]
        ++ a8StoreEvents p rh s.a8 τ1
        ++ [.store (.ctrl 0x1F 0x1A) (τR - p.cSt) τR, .store (.addr row col) (τR + p.dRcd) τ2]
        ++ a8StoreEvents p ch (rh.getD s.a8) τ2
        ++ [.store (.ctrl 0x1A 0x18) (τC - p.cSt) τC, .store (.ctrl 0x18 0x1F) (τC + p.dCas) τE,
          .opEnd (.write row col rh ch) τE])
      dram := t.dram }

/-- R121: the length of every operation, whatever the state. For a WAIT above 16, which no word decodes to, it is
the model's choice (log entry 9), and so it is for a wait parameter above 16 (log entry 17). -/
def Obligations.CycleCounts : Prop :=
  ∀ (i : Instr) (s t : State), exec i s = .next t → t.t = s.t + opCycles s.params i

/-! ### The DRAM's cells -/

/-- R37, R46, R48: IDLE, READ, REFRESH, RASONLY, WAIT, SETDIN and ERRPULSE store into no cell: at every address
what a cell holds after, it held before. A cell can only become `?`. -/
def Obligations.NonStoringMemoryFrame : Prop :=
  ∀ (i : Instr) (s t : State), exec i s = .next t → (∀ row col rh ch, i ≠ .write row col rh ch) →
    onlyFades s.dram.cells t.dram.cells

/-- R79, R41: WRITE stores into the cell its operands address and into no other: at every other address what a cell
holds after, it held before. The address is computed as the meaning does, from the levels its stores put out; the
number a cell has is the model's choice (log entry 7). -/
def Obligations.WriteMemoryFrame : Prop :=
  ∀ (row col : Byte) (rh ch : Option Bit) (s t : State), exec (.write row col rh ch) s = .next t →
    ∀ a, a ≠ cellOf s row col rh ch → ∀ b, Memory.read a t.dram.cells = some b → Memory.read a s.dram.cells = some b

/-- R46, R76, R86, R88: IDLE, WAIT and ERRPULSE make no edge of RAS, CAS or WE: while no row decays they leave the
DRAM exactly as it was. -/
def Obligations.PortOperationsLeaveDram : Prop :=
  ∀ (i : Instr) (s t : State), (i = .idle ∨ i = .errpulse ∨ ∃ n, i = .wait n) → exec i s = .next t →
    s.dram.keptUntil s.params t.t → t.dram = s.dram

/-- R87, R111 P9: SETDIN leaves every cell, every credit and both latches exactly as they were, while no row decays
and its store falls into no hold window of an ended cycle. That an ended cycle is judged when a store comes is log
entry 8. -/
def Obligations.SetdinLeavesCells : Prop :=
  ∀ (v : Bit) (s t : State), s.quiet → s.untouched (s.ownStores (.setdin v)) → exec (.setdin v) s = .next t →
    s.dram.keptUntil s.params t.t → t.dram = { s.dram with watch := { s.dram.watch with dinAt := some t.t } }

/-- R42, R44, R77: on a DRAM that is awake, READ by times that break no predicate of R111 leaves every cell as it was
and credits the row. It returns the bit of the cell its operands address, unless that is `?` or a store made later
falls into a hold window of its cycle or of one that ended before it (R48, log entry 8): a window that is open and
hit by no store changes nothing. -/
def Obligations.ReadReturnsTheCell : Prop :=
  ∀ (s : State) (row col : Byte) (rh ch : Option Bit),
    let i := Instr.read row col rh ch
    s.quiet → s.awake → s.breaks i = false → s.untouched (s.ownStores i) →
    s.dram.keptUntil s.params (s.t + opCycles s.params i) →
    ∃ t, exec i s = .next t
      ∧ (∀ b, Memory.read (cellOf s row col rh ch) s.dram.cells = some b →
        s.untouched (s.laterStores i) → (∀ e ∈ s.laterStores i, s.hitBy i e = false) →
        t.readSample = some b ∧ t.draws = s.draws)
      ∧ t.dram.cells = s.dram.cells ∧ t.dram.lastref = Sparse.put row.toNat t.t s.dram.lastref
      ∧ t.dram.wake = s.dram.wake + 1 ∧ t.quiet

/-- R42, R48 (a, c): READ takes a fresh draw where a store made later falls into a hold window of its cycle, or a store
of its own or a later one into that of a cycle that ended before it (P6, P7, P9). That the host's queue says which
stores are made later is log entry 8. -/
def Obligations.ReadSpoiledByALaterStoreDraws : Prop :=
  ∀ (s : State) (row col : Byte) (rh ch : Option Bit),
    let i := Instr.read row col rh ch
    s.quiet → s.t + s.params.lIn ≤ casAt s rh ch + s.params.dCac →
    ((∃ e ∈ s.laterStores i, s.hitBy i e = true)
      ∨ ∃ e ∈ s.ownStores i ++ s.laterStores i, ∃ c ∈ s.dram.watch.pend, c.hitBy s.params e = true) →
    ∃ t, exec i s = .next t ∧ t.readSample = some (Config.freeBit s.draws) ∧ t.draws = s.draws + 1

/-- R39, R42, R113: READ of a cell that is `?`, or one that looks at DOUT before T_CAC has passed since CAS fell (with
D_CAC below L_IN, before CAS has fallen at all), returns the next fresh draw. The premise is that it looks at a time
of its own, not before it began. -/
def Obligations.ReadOfUnknownDraws : Prop :=
  ∀ (s : State) (row col : Byte) (rh ch : Option Bit), s.quiet →
    s.t + s.params.lIn ≤ casAt s rh ch + s.params.dCac →
    (Memory.read (cellOf s row col rh ch) s.dram.cells = none ∨ s.params.dCac < s.params.lIn
      ∨ atLeast s.params (s.params.dCac - s.params.lIn) s.params.tCac = false) →
    ∃ t, exec (.read row col rh ch) s = .next t ∧ t.readSample = some (Config.freeBit s.draws)
      ∧ t.draws = s.draws + 1

/-- R41, R44, R79: on a DRAM that is awake, WRITE by times that break no predicate of R111 stores DIN into the cell
its operands address (`?` while DIN holds its reset draw), leaves every other cell as it was, and credits the row. Where
a store made after it falls into a hold window of its cycle (P6, P7, P9), R48 puts the cycle in violation; that the
state holds the bit and the credit until that store comes is log entry 8 (DEDUCED). -/
def Obligations.WriteStoresDin : Prop :=
  ∀ (s : State) (row col : Byte) (rh ch : Option Bit),
    let i := Instr.write row col rh ch
    s.quiet → s.awake → s.breaks i = false → s.untouched (s.ownStores i) →
    s.dram.keptUntil s.params (s.t + opCycles s.params i) →
    ∃ t, exec i s = .next t
      ∧ Memory.read (cellOf s row col rh ch) t.dram.cells = s.dram.watch.dinAt.map (fun _ => s.din)
      ∧ (∀ a, a ≠ cellOf s row col rh ch → Memory.read a t.dram.cells = Memory.read a s.dram.cells)
      ∧ t.dram.lastref = Sparse.put row.toNat t.t s.dram.lastref ∧ t.dram.wake = s.dram.wake + 1 ∧ t.quiet

/-- R44, R45, R47, R82, R84: a RAS-only cycle by times that break no predicate of R111 leaves every cell as it was. It
credits its row byte, A8 ignored, and counts toward the wake-up, exactly where its RAS fall comes at T_PWR or later. Where a
store made after it falls into its row hold (P6), R48 puts the cycle in violation; that the state holds cells and
credit until that store comes is log entry 8 (DEDUCED). -/
def Obligations.RasOnlyCreditsTheRow : Prop :=
  ∀ (s : State) (i : Instr) (row : Byte) (rh : Option Bit),
    (i = .rasonly row rh ∨ (i = .refresh ∧ row = s.rc ∧ rh = none)) →
    s.quiet → s.breaks i = false → s.untouched (s.ownStores i) →
    s.dram.keptUntil s.params (s.t + opCycles s.params i) →
    let counts := atLeast s.params (rasAt s rh) s.params.tPwr
    ∃ t, exec i s = .next t ∧ t.dram.cells = s.dram.cells
      ∧ t.dram.lastref = (if counts then Sparse.put row.toNat t.t s.dram.lastref else s.dram.lastref)
      ∧ t.dram.wake = (if counts then s.dram.wake + 1 else s.dram.wake) ∧ t.quiet

/-- R112: an operation on a port that is idle, with parameters that meet R112's figures and RAS precharged, breaks no
predicate of R111 by its own times. -/
def Obligations.TimingFiguresSuffice : Prop :=
  ∀ (s : State) (i : Instr), s.timeInv → timingMet s.params i → precharged s (rowHighOf i) → s.breaks i = false

/-- R49: SETDIN v, WRITE of a cell, any operations that write no cell of that number, READ of the cell, by whatever
tuples and after whatever gaps of the host, gives v. The premises are R49's: the DRAM is awake, no cycle from the WRITE
on is in violation, by its own times or by a store that falls into its hold windows (the READ's later ones by the
host's queue: log entry 8), and the credit of the cell's row does not run out. -/
def Obligations.RoundTrip : Prop :=
  ∀ (s : State) (v : Bit), s.quiet → ∃ t1, exec (.setdin v) s = .next t1
    ∧ ∀ (gap : Nat) (row col : Byte) (rh ch : Option Bit),
      let w := Instr.write row col rh ch
      let s1 := t1.pass gap
      let cell := cellOf s1 row col rh ch
      s1.params.nWake ≤ s1.dram.wake → s1.breaks w = false → s1.untouched (s1.ownStores w) →
      s1.rowKept cell (s1.t + opCycles s1.params w) → ∃ t2, exec w s1 = .next t2
    ∧ ∀ (between : List (Nat × Instr)) (t3 : State), State.leadsTo cell between t2 t3 →
      ∀ (gap' : Nat) (row' col' : Byte) (rh' ch' : Option Bit),
      let r := Instr.read row' col' rh' ch'
      let s3 := t3.pass gap'
      cellOf s3 row' col' rh' ch' = cell →
      s3.breaks r = false → s3.untouched (s3.ownStores r ++ s3.laterStores r) →
      (∀ e ∈ s3.laterStores r, s3.hitBy r e = false) →
      t3.rowKept cell (s3.t + opCycles s3.params r) →
      ∃ t4, exec r s3 = .next t4 ∧ t4.readSample = some v

/-- R47, R48: while the DRAM is not awake, READ and WRITE are violations: every cell is `?` afterwards, no refresh is
credited (the credits are those from before, less what decays, unless a store takes an earlier cycle's back), and
what a READ returns is a fresh draw. -/
def Obligations.AsleepDataCyclesLoseAll : Prop :=
  ∀ (s t : State) (i : Instr) (row col : Byte) (rh ch : Option Bit),
    (i = .read row col rh ch ∨ i = .write row col rh ch) → exec i s = .next t → s.dram.wake < s.params.nWake →
    t.dram.cells = [] ∧ t.dram.wake ≤ s.dram.wake
      ∧ (s.untouched (s.ownStores i) →
        t.dram.lastref = (s.dram.decay s.params t.t).lastref ∧ t.dram.wake = s.dram.wake)
      ∧ (i = .read row col rh ch → s.quiet → s.untouched (s.ownStores i) →
        s.t + s.params.lIn ≤ casAt s rh ch + s.params.dCac →
        t.readSample = some (Config.freeBit s.draws) ∧ t.draws = s.draws + 1)

/-- R48, R111: a READ, WRITE, REFRESH or RASONLY that breaks one of P1-P9 by its own times makes every cell `?` and
credits no refresh: the credits are those from before, less what decays (R46). A READ that breaks one returns a
fresh draw. -/
def Obligations.BrokenCyclesLoseAll : Prop :=
  ∀ (s : State) (i : Instr), s.quiet → s.untouched (s.ownStores i) → s.breaks i = true →
    ∃ t, exec i s = .next t ∧ t.dram.cells = [] ∧ t.dram.lastref = (s.dram.decay s.params t.t).lastref
      ∧ t.dram.wake = s.dram.wake
      ∧ ∀ row col rh ch, i = .read row col rh ch → s.t + s.params.lIn ≤ casAt s rh ch + s.params.dCac →
        t.readSample = some (Config.freeBit s.draws) ∧ t.draws = s.draws + 1

/-- R48, R111 P6, P7, P9: a store that falls into a hold window of a cycle that has ended puts it in violation: from
then on every cell is `?`, and the cycle has credited nothing, neither its row nor the wake-up. R48 judges the cycle
at its RAS rise; that the model takes its effects back when the store comes is log entry 8 (DEDUCED). -/
def Obligations.LateStoreTakesTheCycleBack : Prop :=
  ∀ (s t : State) (i : Instr) (g : Nat) (m : MicroOp) (e : PinStore),
    s.quiet → makesCycle i = true → (∀ x, casFallOf s i = some x → s.params.nWake ≤ s.dram.wake) →
    s.breaks i = false → s.untouched (s.ownStores i) → exec i s = .next t →
    storesOf s.params (t.t + g) [m] = [e] → s.hitBy i e = true → s.untouched [e] →
    s.dram.keptUntil s.params e.teff → t.dram.keptUntil s.params e.teff →
    let u := (t.pass g).perform m
    u.dram.cells = [] ∧ u.dram.wake = s.dram.wake ∧ ∀ r, Sparse.get r u.dram.lastref = Sparse.get r s.dram.lastref

/-- R48, R111 P6, P7, P9: an operation whose own ADDR, A8 or DIN store falls into a hold window of a cycle that ended
before it puts that cycle in violation. No cell keeps a value from before: at most the cell the operation itself writes
holds the DIN level. The credit of every cycle hit is gone, from its row and from the wake-up, and a READ returns a
fresh draw. That the model takes the cycle back when the store comes is log entry 8; the premises are its invariants
and that every occupancy is at least 1 (R63). -/
def Obligations.OwnStoreTakesEarlierCyclesBack : Prop :=
  ∀ (s : State) (i : Instr), s.quiet → s.memInv → s.dram.PendInOrder → s.params.legal = true →
    (∃ c ∈ s.dram.watch.pend, ∃ e ∈ s.ownStores i, c.hitBy s.params e = true) →
    ∃ t, exec i s = .next t
      ∧ (∀ a b, Memory.read a t.dram.cells = some b →
        b = s.din ∧ ∃ row col rh ch, i = .write row col rh ch ∧ a = cellOf s row col rh ch)
      ∧ (∀ c ∈ s.dram.watch.pend, c.credited = true → (∃ e ∈ s.ownStores i, c.hitBy s.params e = true) →
        Sparse.get c.row t.dram.lastref ≠ some c.rise)
      ∧ t.dram.wake + s.dram.watch.pend.countP (fun c => c.credited && (s.ownStores i).any (fun e => c.hitBy s.params e))
        ≤ s.dram.wake + (if makesCycle i then 1 else 0)
      ∧ ∀ row col rh ch, i = .read row col rh ch → s.t + s.params.lIn ≤ casAt s rh ch + s.params.dCac →
        t.readSample = some (Config.freeBit s.draws) ∧ t.draws = s.draws + 1

/-- R45: the refresh row of a latched row is the ADDR level at the RAS fall; A8 is ignored on both kinds. -/
def Obligations.RefreshRowIsTheRowByte : Prop :=
  ∀ (k : Kind) (addr : Byte) (a8 : Bit), refRow (indexOf k addr a8) = addr.toNat

/-- R32: on a Dram64K, two tuples that differ only in rh or ch reach the same cell, whatever A8 held. -/
def Obligations.A8IsNoAddressOnDram64K : Prop :=
  ∀ (s s' : State) (row col : Byte) (rh ch rh' ch' : Option Bit), s.params.kind = .dram64K →
    s'.params.kind = .dram64K → cellOf s row col rh ch = cellOf s' row col rh' ch'

/-- R30, R31, R33, on the model's own numbering of the cells (log entry 7): every tuple, its high bits present or
absent, reaches a cell that exists. On a Dram256K two tuples reach the same cell exactly where rows, columns and the
A8 levels at the two strobes agree; on a Dram64K exactly where rows and columns do. -/
def Obligations.TuplesNameCells : Prop :=
  ∀ (s s' : State) (row col row' col' : Byte) (rh ch rh' ch' : Option Bit), s'.params.kind = s.params.kind →
    let rl := a8After rh s.a8
    let rl' := a8After rh' s'.a8
    cellOf s row col rh ch < cellCount s.params.kind
      ∧ (s.params.kind = .dram256K → (cellOf s row col rh ch = cellOf s' row' col' rh' ch' ↔
        row = row' ∧ col = col' ∧ rl = rl' ∧ a8After ch rl = a8After ch' rl'))
      ∧ (s.params.kind = .dram64K → (cellOf s row col rh ch = cellOf s' row' col' rh' ch' ↔ row = row' ∧ col = col'))

/-- R24, R46: an idle cycle of the host (an empty queue: the model's own, log entry 4) passes one cycle and decays
exactly the rows credited longer than T_REF ago: they lose their credit, their cells become `?`, and every other cell
keeps its value. -/
def Obligations.DecayAsTimePasses : Prop :=
  ∀ s : State, s.op = none → s.refused = false → s.host = [] → ∃ t, step s = .next t
    ∧ t = { s with t := s.t + 1, dram := t.dram }
    ∧ (∀ e, e ∈ t.dram.lastref ↔ e ∈ s.dram.lastref ∧ ¬ tRef s.params * s.params.fCpu < (s.t + 1 - e.2) * 10 ^ 12)
    ∧ ∀ a, Memory.read a t.dram.cells =
      if ∃ e ∈ s.dram.lastref, e.1 = cellRow a ∧ tRef s.params * s.params.fCpu < (s.t + 1 - e.2) * 10 ^ 12
      then none else Memory.read a s.dram.cells

/-! ### One step -/

/-- R73: the driver's next word, the first of the host's queue (the model's own, log entry 4), taken after the host's
gap of at least G_MIN, runs as its command; no line changes during the gap. -/
def Obligations.StepRunsTheCommand : Prop :=
  ∀ (s : State) (i : Issue) (rest : List Issue) (cmd : Instr),
    s.op = none → s.refused = false → s.host = i :: rest → decode i.word = .command cmd →
    ∃ s', step s = exec cmd s' ∧ s' = { s with
      host := rest
      t := s.t + (s.params.gMin + i.extra)
      dram := s.dram.decay s.params (s.t + (s.params.gMin + i.extra)) }

/-- R93, R96: a word the decoder refuses is recorded with its code, `refused` is set, and no register and no line
changes. No further step is taken; that the model says so by the fault runEnded is its own choice (log entry 10). -/
def Obligations.StepRefusesTheWord : Prop :=
  ∀ (s : State) (i : Issue) (rest : List Issue) (c : RefuseCode),
    s.op = none → s.refused = false → s.host = i :: rest → decode i.word = .refuse c →
    ∃ t, step s = .next t ∧ step t = .fault .runEnded ∧ t = { s with
      host := rest
      refused := true
      t := s.t + (s.params.gMin + i.extra)
      trace := s.trace ++ [.refused i.word c (s.t + (s.params.gMin + i.extra))]
      dram := t.dram }

/-- R26: `refused` is false at reset, no step clears it, a step sets it exactly when it refuses a word, and no run
that has it ends well. -/
def Obligations.RefusedForGood : Prop :=
  (∀ p, (State.resetWith p).refused = false) ∧ (∀ s t : State, step s = .next t → s.refused = true → t.refused = true)
    ∧ (∀ s t : State, step s = .next t → s.refused = false → (t.refused = true ↔
        s.op = none ∧ ∃ i rest c, s.host = i :: rest ∧ decode i.word = .refuse c))
    ∧ ∀ s : State, s.refused = true → s.endsWell = false

/-- R94: every operation started from a port that is not CTRL_DEFAULT raises CtrlNotIdle, and none does from
CTRL_DEFAULT. -/
def Obligations.CtrlNotIdleExactly : Prop :=
  ∀ (i : Instr) (s : State), exec i s = .fault .ctrlNotIdle ↔ s.ctrl ≠ 0x1F

/-- R14, R72: small steps and the big step give the same: from the begin of any operation, one micro-operation per
step ends in the state `exec` answers. -/
def Obligations.SmallStepsAgree : Prop :=
  ∀ (i : Instr) (s : State), s.ctrl = 0x1F →
    exec i s = Host.Core.run core (max 1 (microOps i s.params s.rc).length) (s.beginOp i)

/-- R24, R25: time never goes back and the trace only grows, at every step. -/
def Obligations.TraceOnlyGrows : Prop :=
  ∀ s t : State, step s = .next t → s.t ≤ t.t ∧ ∃ es, t.trace = s.trace ++ es

/-- R72, R73, R93: the stores to ADDR, A8 and DIN that the model foresees are exactly those it makes: at every step
the foreseen ones are those it records and the ones still foreseen after it. That the host's queue holds its whole
future is the model's (log entry 8). -/
def Obligations.ForeseenStoresAreMade : Prop :=
  ∀ s t : State, step s = .next t →
    ∃ es, t.trace = s.trace ++ es ∧ s.coming = es.filterMap Event.pinStore ++ t.coming

/-- R19-R23, R27: who writes what. ADDR changes only in operations that strobe, A8 only where a high operand is
present, DIN only in SETDIN, RC only in REFRESH; every operation ends with CTRL_DEFAULT. -/
def Obligations.SingleWriters : Prop :=
  ∀ (i : Instr) (s t : State), exec i s = .next t →
    t.ctrl = 0x1F ∧ t.params = s.params ∧ t.host = s.host
      ∧ (t.rc ≠ s.rc → i = .refresh) ∧ (t.din ≠ s.din → ∃ v, i = .setdin v)
      ∧ (t.a8 ≠ s.a8 → ∃ row col rh ch, (i = .read row col rh ch ∨ i = .write row col rh ch
            ∨ (i = .rasonly row rh ∧ ch = none)) ∧ (rh.isSome = true ∨ ch.isSome = true))
      ∧ (t.addr ≠ s.addr → i = .refresh ∨ ∃ row col rh ch,
          i = .read row col rh ch ∨ i = .write row col rh ch ∨ i = .rasonly row rh)

/-- R72: nothing the DRAM returns affects what the driver does. Two states that differ only in the DRAM, the DOUT
register and the draws go through the same stores at the same times, to the same registers. -/
def Obligations.DramNeverSteersTheDriver : Prop :=
  ∀ (i : Instr) (s s' t t' : State),
    s' = { s with dram := s'.dram, doutReset := s'.doutReset, draws := s'.draws, readSample := s'.readSample } →
    exec i s = .next t → exec i s' = .next t' →
    t'.trace.map Event.unseen = t.trace.map Event.unseen
      ∧ t' = { t with
        trace := t'.trace
        dram := t'.dram
        doutReset := t'.doutReset
        draws := t'.draws
        readSample := t'.readSample }

/-! ### Reset and invariants -/

/-- R29: after reset CTRL is CTRL_DEFAULT, RC is RC0, no operation is in progress, t is 0, the trace is empty and
nothing is refused; R39: every cell is `?`. -/
def Obligations.ResetState : Prop :=
  ∀ p, (State.resetWith p).ctrl = 0x1F ∧ (State.resetWith p).rc = p.rc0 ∧ (State.resetWith p).op = none
    ∧ (State.resetWith p).t = 0 ∧ (State.resetWith p).trace = [] ∧ (State.resetWith p).refused = false
    ∧ (State.resetWith p).params = p ∧ ∀ a, Memory.read a (State.resetWith p).dram.cells = none

/-- R74: between operations CTRL is CTRL_DEFAULT, inside one it holds what the stores so far have left; every step
keeps this, and from such a state the fault CtrlNotIdle is never raised. -/
def Obligations.PortIdleBetweenOperations : Prop :=
  ∀ s : State, s.portInv → step s ≠ .fault .ctrlNotIdle ∧ ∀ t, step s = .next t → t.portInv

/-- R30, R39, R45: the cells and credits stay in canonical form at every step. -/
def Obligations.MemoryStaysCanonical : Prop := ∀ s t : State, s.memInv → step s = .next t → t.memInv

/-- R40-R44: at every step a row stays latched exactly while RAS is low, a column exactly while CAS is low, and
DOUT is driven only while a column is. -/
def Obligations.LatchesFollowTheLines : Prop :=
  ∀ s t : State, s.portInv → s.latchInv → step s = .next t → t.latchInv

/-- R24: at every step no time that the DRAM or its predicates remember lies in the future (`Dram.NotAfter` lists
them all). -/
def Obligations.NothingFromTheFuture : Prop := ∀ s t : State, s.timeInv → step s = .next t → t.timeInv

/-- R44, R48, R111: every step keeps it that the ended cycles still remembered stand newest first, each with a credit
older than its own to fall back on, and that the wake-up count holds their credits. The memory of ended cycles is the
model's (log entry 8). -/
def Obligations.PendingCyclesInOrder : Prop :=
  ∀ s t : State, s.timeInv → s.params.legal = true → s.dram.PendInOrder → step s = .next t → t.dram.PendInOrder

/-- R46: every step keeps it that a row without a credit holds only `?`. -/
def Obligations.UncreditedRowsAreUnknown : Prop :=
  ∀ s t : State, s.portInv → s.latchInv → s.timeInv → s.creditInv → step s = .next t → t.creditInv

/-- Every invariant above holds after reset. That no row is latched or credited then is the model's choice (log
entry 2). -/
def Obligations.ResetMeetsTheInvariants : Prop :=
  ∀ p, (State.resetWith p).portInv ∧ (State.resetWith p).memInv ∧ (State.resetWith p).latchInv
    ∧ (State.resetWith p).timeInv ∧ (State.resetWith p).dram.PendInOrder ∧ (1 ≤ p.nWake → (State.resetWith p).creditInv)
end

