-- ==== Sys2Proof/Laws/Sparse.lean ====
section
/-! SUPPORT. Sparse data and the cells: read after write, and every operation keeps the canonical form. -/

namespace Sys2Proof.Laws

open Sys2Proof.Machine

section
variable {α : Type} (k : Nat) (v : α) (l : List (Nat × α))

/-- Every listed entry is the new one or an old one. -/
theorem mem_put {e : Nat × α} (h : e ∈ Sparse.put k v l) : e = (k, v) ∨ e ∈ l := by
  induction l with
  | nil => simpa [Sparse.put] using h
  | cons a as ih =>
    unfold Sparse.put at h
    split at h
    · simpa using h
    · split at h
      · rcases List.mem_cons.1 h with h | h
        · exact .inl h
        · exact .inr (List.mem_cons_of_mem _ h)
      · rcases List.mem_cons.1 h with h | h
        · exact .inr (h ▸ List.mem_cons_self)
        · rcases ih h with h | h
          · exact .inl h
          · exact .inr (List.mem_cons_of_mem _ h)

/-- Listing a value keeps the numbers rising. -/
theorem rising_put (h : Sparse.rising l) : Sparse.rising (Sparse.put k v l) := by
  induction l with
  | nil => simp [Sparse.put]
  | cons a as ih =>
    obtain ⟨ha, has⟩ := List.pairwise_cons.1 h
    unfold Sparse.put
    split
    · next hk =>
      refine List.pairwise_cons.2 ⟨fun b hb => ?_, h⟩
      rcases List.mem_cons.1 hb with rfl | hb
      · exact hk
      · exact Nat.lt_trans hk (ha b hb)
    · split
      · next hk => exact List.pairwise_cons.2 ⟨fun b hb => by simpa [hk] using ha b hb, has⟩
      · next h1 h2 =>
        refine List.pairwise_cons.2 ⟨fun b hb => ?_, ih has⟩
        rcases mem_put k v as hb with rfl | hb
        · exact by simp only; omega
        · exact ha b hb

/-- Listing nothing keeps the numbers rising. -/
theorem rising_filter (f : Nat × α → Bool) (h : Sparse.rising l) : Sparse.rising (l.filter f) := h.filter f

theorem rising_set (o : Option α) (h : Sparse.rising l) : Sparse.rising (Sparse.set k o l) := by
  cases o with
  | none => exact rising_filter l _ h
  | some v => exact rising_put k v l h

/-- A value is read back where it was listed. -/
@[simp] theorem get_put_same : Sparse.get k (Sparse.put k v l) = some v := by
  induction l with
  | nil => simp [Sparse.put, Sparse.get]
  | cons a as ih =>
    unfold Sparse.put
    split
    · simp [Sparse.get]
    · split
      · simp [Sparse.get]
      · next _ h => simp [Sparse.get, ih, Ne.symm h]

/-- Every other number keeps its value. -/
theorem get_put_other {j : Nat} (hj : j ≠ k) : Sparse.get j (Sparse.put k v l) = Sparse.get j l := by
  induction l with
  | nil => simp [Sparse.put, Sparse.get, Ne.symm hj]
  | cons a as ih =>
    unfold Sparse.put
    split
    · simp [Sparse.get, Ne.symm hj]
    · split
      · next _ h => simp [Sparse.get, Ne.symm hj, ← h]
      · simp only [Sparse.get, ih]

/-- Nothing is read where nothing is listed. -/
@[simp] theorem get_drop_same : Sparse.get k (Sparse.drop k l) = none := by
  induction l with
  | nil => rfl
  | cons a as ih =>
    unfold Sparse.drop at *
    by_cases h : a.1 = k <;> simp [Sparse.get, h, ih]

theorem get_drop_other {j : Nat} (hj : j ≠ k) : Sparse.get j (Sparse.drop k l) = Sparse.get j l := by
  induction l with
  | nil => rfl
  | cons a as ih =>
    unfold Sparse.drop at *
    by_cases h : a.1 = k
    · simp [Sparse.get, h, ih, Ne.symm hj]
    · simp [Sparse.get, h, ih]

@[simp] theorem get_set_same (o : Option α) : Sparse.get k (Sparse.set k o l) = o := by
  cases o <;> simp [Sparse.set]

theorem get_set_other {j : Nat} (hj : j ≠ k) (o : Option α) : Sparse.get j (Sparse.set k o l) = Sparse.get j l := by
  cases o with
  | none => exact get_drop_other k l hj
  | some v => exact get_put_other k v l hj

/-- What is read is listed. -/
theorem get_mem (h : Sparse.get k l = some v) : (k, v) ∈ l := by
  induction l with
  | nil => simp [Sparse.get] at h
  | cons a as ih =>
    unfold Sparse.get at h
    split at h
    · next hk =>
      have : a = (k, v) := by rw [← hk]; exact Prod.ext rfl (by simpa using h)
      exact this ▸ List.mem_cons_self
    · exact List.mem_cons_of_mem _ (ih h)

/-- In the canonical form, what is listed is read. -/
theorem get_of_mem (hl : Sparse.rising l) (h : (k, v) ∈ l) : Sparse.get k l = some v := by
  induction l with
  | nil => simp at h
  | cons a as ih =>
    obtain ⟨ha, has⟩ := List.pairwise_cons.1 hl
    rcases List.mem_cons.1 h with h | h
    · subst h; simp [Sparse.get]
    · have : a.1 ≠ k := Nat.ne_of_lt (ha _ h)
      simp [Sparse.get, this, ih has h]

/-- In the canonical form, filtering reads as the filter says. -/
theorem get_filter (hl : Sparse.rising l) (f : Nat × α → Bool) :
    Sparse.get k (l.filter f) = (Sparse.get k l).filter (fun x => f (k, x)) := by
  cases h : Sparse.get k l with
  | none =>
    cases h' : Sparse.get k (l.filter f) with
    | none => rfl
    | some x =>
      have := get_of_mem k x l hl (List.mem_filter.1 (get_mem k x _ h')).1
      simp [h] at this
  | some x =>
    have hx := get_mem k x l h
    cases hf : f (k, x) with
    | true =>
      rw [get_of_mem k x _ (rising_filter l f hl) (List.mem_filter.2 ⟨hx, hf⟩)]
      simp [Option.filter, hf]
    | false =>
      cases h' : Sparse.get k (l.filter f) with
      | none => simp [Option.filter, hf]
      | some y =>
        obtain ⟨hy, hfy⟩ := List.mem_filter.1 (get_mem k y _ h')
        have : some x = some y := h ▸ get_of_mem k y l hl hy
        cases this
        simp [hf] at hfy

end

/-- A bit is the bit its byte stands for. -/
@[simp] theorem cellBit_cellByte (b : Bit) : cellBit (cellByte b) = b := by revert b; decide

/-- A bit's byte is 0 or 1. -/
theorem cellByte_le (b : Bit) : (cellByte b).toNat ≤ 1 := by revert b; decide

/-- A cell reads as written, `?` included. -/
@[simp] theorem read_write_same (a : Nat) (o : Option Bit) (m : List Host.Cell) :
    Memory.read a (Memory.write a o m) = o := by
  cases o <;> simp [Memory.read, Memory.write]

/-- A write leaves every other cell alone. -/
theorem read_write_other {a b : Nat} (h : b ≠ a) (o : Option Bit) (m : List Host.Cell) :
    Memory.read b (Memory.write a o m) = Memory.read b m := by
  simp [Memory.read, Memory.write, get_set_other a m h]

@[simp] theorem read_nil (a : Nat) : Memory.read a [] = none := rfl

/-- No cell is listed: the canonical form of a part whose every cell is `?`. -/
theorem wf_nil (k : Kind) : Memory.wf k [] := by simp [Memory.wf]

/-- Making cells `?` keeps the canonical form. -/
theorem wf_filter {k : Kind} {m : List Host.Cell} (f : Host.Cell → Bool) (h : Memory.wf k m) : Memory.wf k (m.filter f) :=
  ⟨rising_filter m f h.1, fun c hc => h.2 c (List.mem_filter.1 hc).1⟩

/-- A write to a cell that exists keeps the canonical form. -/
theorem wf_write {k : Kind} {m : List Host.Cell} {a : Nat} (ha : a < cellCount k) (o : Option Bit) (h : Memory.wf k m) :
    Memory.wf k (Memory.write a o m) := by
  refine ⟨rising_set a m _ h.1, fun c hc => ?_⟩
  cases o with
  | none => exact h.2 c (List.mem_filter.1 hc).1
  | some b =>
    rcases mem_put a (cellByte b) m hc with rfl | hc
    · exact ⟨ha, cellByte_le b⟩
    · exact h.2 c hc

/-- Every cell number a cycle can form exists (R30, R33). -/
theorem cellNo_lt (k : Kind) (row col : Index) : cellNo k row col < cellCount k := by
  have := row.isLt; have := col.isLt
  cases k <;> simp only [cellNo, cellCount] <;> omega

/-- The row byte of a cell's number is the refresh row of the latched row (R45). -/
theorem cellRow_cellNo (k : Kind) (row col : Index) : cellRow (cellNo k row col) = refRow row := by
  cases k <;> simp only [cellNo, cellRow, refRow] <;> omega

end Sys2Proof.Laws
end

