-- ==== Sys2Proof/Laws/Dram.lean ====
section
/-! SUPPORT. What each operation of the reference DRAM can do: the fields it leaves alone, that it keeps the
canonical form (`Dram.wf`), and that no cell gains or changes a value but by an early write (`onlyFades`). -/

namespace Sys2Proof.Laws

open Sys2Proof.Machine

/-! ### Reading filtered cells -/

/-- A filter on numbers reads as the filter says. -/
theorem get_filter_key {α : Type} (k : Nat) (f : Nat → Bool) (l : List (Nat × α)) :
    Sparse.get k (l.filter (fun e => f e.1)) = if f k then Sparse.get k l else none := by
  induction l with
  | nil => simp [Sparse.get]
  | cons a as ih =>
    by_cases ha : f a.1 = true
    · by_cases hk : a.1 = k
      · subst hk; simp [Sparse.get, ha]
      · simp [Sparse.get, ha, hk, ih]
    · by_cases hk : a.1 = k
      · subst hk; simp [ha, ih]
      · simp [Sparse.get, ha, hk, ih]

theorem onlyFades_refl (m : List Host.Cell) : onlyFades m m := fun _ _ h => h

theorem onlyFades_trans {m₁ m₂ m₃ : List Host.Cell} (h : onlyFades m₁ m₂) (h' : onlyFades m₂ m₃) : onlyFades m₁ m₃ :=
  fun a b hb => h a b (h' a b hb)

theorem onlyFades_nil (m : List Host.Cell) : onlyFades m [] := fun a b h => by simp at h

theorem onlyFades_filter_key (m : List Host.Cell) (f : Nat → Bool) : onlyFades m (m.filter (fun c => f c.1)) := by
  intro a b h
  simp only [Memory.read, get_filter_key] at h
  split at h
  · exact h
  · simp at h

/-! ### Decay (R46) -/

section
variable (p : Params) (τ : Nat) (d : Dram)

@[simp] theorem decay_rlat : (d.decay p τ).rlat = d.rlat := rfl
@[simp] theorem decay_clat : (d.decay p τ).clat = d.clat := rfl
@[simp] theorem decay_wake : (d.decay p τ).wake = d.wake := rfl
@[simp] theorem decay_drives : (d.decay p τ).drives = d.drives := rfl
@[simp] theorem decay_watch : (d.decay p τ).watch = d.watch := rfl
@[simp] theorem decay_lastref : (d.decay p τ).lastref = d.lastref.filter (fun e => !expired p τ e.2) := rfl

/-- The cells decay leaves listed: those of rows with no expired credit (R46). -/
theorem decay_cells : (d.decay p τ).cells =
    d.cells.filter (fun c => !(d.lastref.filter (fun e => expired p τ e.2)).any (fun e => e.1 == cellRow c.1)) := rfl

/-- A cell survives decay exactly when no credit of its row has expired (R46). -/
theorem decay_read (a : Nat) :
    Memory.read a (d.decay p τ).cells =
      if (d.lastref.filter (fun e => expired p τ e.2)).any (fun e => e.1 == cellRow a) then none
      else Memory.read a d.cells := by
  rw [decay_cells]
  generalize d.lastref.filter (fun e => expired p τ e.2) = dead
  simp only [Memory.read, get_filter_key a (fun a => !dead.any (fun e => e.1 == cellRow a)) d.cells]
  cases dead.any (fun e => e.1 == cellRow a) <;> simp

theorem decay_onlyFades : onlyFades d.cells (d.decay p τ).cells := by
  intro a b h
  rw [decay_read] at h
  split at h
  · simp at h
  · exact h

/-- Where no credit has expired, nothing decays. -/
theorem decay_eq_self (h : d.keptUntil p τ) : d.decay p τ = d := by
  have h1 : d.lastref.filter (fun e => !expired p τ e.2) = d.lastref :=
    List.filter_eq_self.2 (fun e he => by simp [h e he])
  have h2 : d.lastref.filter (fun e => expired p τ e.2) = [] :=
    List.filter_eq_nil_iff.2 (fun e he => by simp [h e he])
  have h3 : d.cells.filter (fun c => !List.any [] (fun e : Nat × Nat => e.1 == cellRow c.1)) = d.cells :=
    List.filter_eq_self.2 (fun _ _ => rfl)
  simp only [Dram.decay, h1, h2, h3]

theorem wf_decay {k : Kind} (h : d.wf k) : (d.decay p τ).wf k :=
  ⟨wf_filter _ h.1, rising_filter _ _ h.2.1, fun e he => h.2.2.1 e (List.mem_filter.1 he).1, h.2.2.2⟩

end

/-- What lasts until a time lasts until any earlier one. -/
theorem keptUntil_mono {p : Params} {τ τ' : Nat} {d : Dram} (hle : τ ≤ τ') (h : d.keptUntil p τ') : d.keptUntil p τ := by
  intro e he
  have h := h e he
  simp only [expired, exceeds, decide_eq_false_iff_not, Nat.not_lt] at h ⊢
  exact Nat.le_trans (Nat.mul_le_mul_right _ (by omega)) h

/-! ### Flagging a violation (R48) -/

section
variable (b : Bool) (d : Dram)

@[simp] theorem flag_cells : (d.flag b).cells = d.cells := rfl
@[simp] theorem flag_rlat : (d.flag b).rlat = d.rlat := rfl
@[simp] theorem flag_clat : (d.flag b).clat = d.clat := rfl
@[simp] theorem flag_lastref : (d.flag b).lastref = d.lastref := rfl
@[simp] theorem flag_wake : (d.flag b).wake = d.wake := rfl
@[simp] theorem flag_drives : (d.flag b).drives = d.drives := rfl
@[simp] theorem flag_viol : (d.flag b).watch.viol = (d.watch.viol || b) := rfl
@[simp] theorem flag_cas : (d.flag b).watch.cas = d.watch.cas := rfl
@[simp] theorem flag_weFall : (d.flag b).watch.weFall = d.watch.weFall := rfl
@[simp] theorem flag_pend : (d.flag b).watch.pend = d.watch.pend := rfl
@[simp] theorem flag_addrAt : (d.flag b).watch.addrAt = d.watch.addrAt := rfl
@[simp] theorem flag_a8At : (d.flag b).watch.a8At = d.watch.a8At := rfl
@[simp] theorem flag_dinAt : (d.flag b).watch.dinAt = d.watch.dinAt := rfl
@[simp] theorem flag_prevRise : (d.flag b).watch.prevRise = d.watch.prevRise := rfl

@[simp] theorem flag_false : d.flag false = d := by simp [Dram.flag]

theorem wf_flag {k : Kind} (h : d.wf k) : (d.flag b).wf k := h

end

/-! ### Taking back an ended cycle (R48, log entry 8) -/

section
variable (c x : Past)

@[simp] theorem without_row : (c.without x).row = x.row := by unfold Past.without; split <;> rfl
@[simp] theorem without_rfall : (c.without x).rfall = x.rfall := by unfold Past.without; split <;> rfl
@[simp] theorem without_cas : (c.without x).cas = x.cas := by unfold Past.without; split <;> rfl
@[simp] theorem without_rise : (c.without x).rise = x.rise := by unfold Past.without; split <;> rfl
@[simp] theorem without_credited : (c.without x).credited = x.credited := by unfold Past.without; split <;> rfl

/-- The credit remembered is the one before, or that of the cycle taken back. -/
theorem without_refBefore : (c.without x).refBefore = x.refBefore ∨ (c.without x).refBefore = c.refBefore := by
  unfold Past.without; split
  · exact .inr rfl
  · exact .inl rfl

end

section
variable (p : Params) (τ : Nat) (d : Dram) (c : Past)

@[simp] theorem takeBack_cells : (d.takeBack p τ c).cells = d.cells := rfl
@[simp] theorem takeBack_rlat : (d.takeBack p τ c).rlat = d.rlat := rfl
@[simp] theorem takeBack_clat : (d.takeBack p τ c).clat = d.clat := rfl
@[simp] theorem takeBack_watch :
    (d.takeBack p τ c).watch = { d.watch with pend := d.watch.pend.map c.without } := rfl

/-- A credit after a cycle is taken back was one before, or is the one the cycle had overwritten. -/
theorem mem_takeBack_lastref {e : Nat × Nat} (h : e ∈ (d.takeBack p τ c).lastref) :
    e ∈ d.lastref ∨ e.1 = c.row ∧ c.refBefore = some e.2 := by
  simp only [Dram.takeBack] at h
  split at h
  · cases hr : c.refBefore.filter (fun e => !expired p τ e) with
    | none => rw [hr] at h; exact .inl (List.mem_filter.1 h).1
    | some v =>
      rw [hr] at h
      rcases mem_put _ _ _ h with rfl | h
      · right
        cases hb : c.refBefore with
        | none => rw [hb] at hr; cases hr
        | some w =>
          rw [hb] at hr
          simp only [Option.filter] at hr
          split at hr
          · exact ⟨rfl, hr⟩
          · cases hr
      · exact .inl h
  · exact .inl h

theorem wf_takeBack {k : Kind} (hc : c.row < 256) (h : d.wf k) : (d.takeBack p τ c).wf k := by
  obtain ⟨h1, h2, h3, h4⟩ := h
  refine ⟨h1, ?_, ?_, ?_⟩
  · simp only [Dram.takeBack]; split
    · exact rising_set _ _ _ h2
    · exact h2
  · intro e he
    rcases mem_takeBack_lastref p τ d c he with he | ⟨he, _⟩
    · exact h3 e he
    · omega
  · intro x hx
    obtain ⟨y, hy, rfl⟩ := List.mem_map.1 hx
    simpa using h4 y hy

end

section
variable (p : Params) (τ : Nat)

theorem foldl_takeBack (cs : List Past) (d : Dram) :
    (cs.foldl (Dram.takeBack p τ) d).cells = d.cells ∧ (cs.foldl (Dram.takeBack p τ) d).rlat = d.rlat
      ∧ (cs.foldl (Dram.takeBack p τ) d).clat = d.clat ∧ (cs.foldl (Dram.takeBack p τ) d).watch
        = { d.watch with pend := (cs.foldl (Dram.takeBack p τ) d).watch.pend } := by
  induction cs generalizing d with
  | nil => exact ⟨rfl, rfl, rfl, rfl⟩
  | cons c cs ih => simpa using ih (d.takeBack p τ c)

theorem foldl_takeBack_wake (cs : List Past) (d : Dram) : (cs.foldl (Dram.takeBack p τ) d).wake ≤ d.wake := by
  induction cs generalizing d with
  | nil => exact Nat.le_refl _
  | cons c cs ih =>
    have hc : (d.takeBack p τ c).wake ≤ d.wake := by simp only [Dram.takeBack]; split <;> omega
    exact Nat.le_trans (ih _) hc

theorem foldl_takeBack_drives (cs : List Past) (d : Dram) :
    ∀ v ∈ (cs.foldl (Dram.takeBack p τ) d).drives, v ∈ d.drives := by
  induction cs generalizing d with
  | nil => exact fun v h => h
  | cons c cs ih => exact fun v hv => (List.mem_filter.1 (ih _ v hv)).1

theorem wf_foldl_takeBack {k : Kind} (cs : List Past) (d : Dram) (hc : ∀ c ∈ cs, c.row < 256) (h : d.wf k) :
    (cs.foldl (Dram.takeBack p τ) d).wf k := by
  induction cs generalizing d with
  | nil => exact h
  | cons c cs ih =>
    exact ih (d.takeBack p τ c) (fun c' hc' => hc c' (List.mem_cons_of_mem _ hc'))
      (wf_takeBack p τ d c (hc c List.mem_cons_self) h)

end

section
variable (p : Params) (e : PinStore) (d : Dram)

@[simp] theorem lateHit_rlat : (d.lateHit p e).rlat = d.rlat := by
  unfold Dram.lateHit; split
  · exact (foldl_takeBack _ _ _ _).2.1
  · rfl

@[simp] theorem lateHit_clat : (d.lateHit p e).clat = d.clat := by
  unfold Dram.lateHit; split
  · exact (foldl_takeBack _ _ _ _).2.2.1
  · rfl

/-- A store that hits ended cycles takes wake credits back and gives none. -/
theorem lateHit_wake : (d.lateHit p e).wake ≤ d.wake := by
  unfold Dram.lateHit; split
  · exact foldl_takeBack_wake _ _ _ _
  · exact Nat.le_refl _

/-- It takes drives back and starts none. -/
theorem lateHit_drives : ∀ v ∈ (d.lateHit p e).drives, v ∈ d.drives := by
  unfold Dram.lateHit; split
  · exact foldl_takeBack_drives _ _ _ _
  · exact fun v h => h

/-- Of what the predicates know it changes the pending cycles only. -/
theorem lateHit_watch : (d.lateHit p e).watch = { d.watch with pend := (d.lateHit p e).watch.pend } := by
  unfold Dram.lateHit; split
  · have hw := (foldl_takeBack p e.teff (d.watch.pend.filter (Past.hitBy p e)) d).2.2.2
    dsimp only; rw [hw]
  · rfl

theorem lateHit_viol : (d.lateHit p e).watch.viol = d.watch.viol := by rw [lateHit_watch]

/-- With no ended cycle hit, nothing is taken back. -/
theorem lateHit_eq_self (h : ∀ c ∈ d.watch.pend, c.hitBy p e = false) : d.lateHit p e = d := by
  unfold Dram.lateHit
  simp only [if_neg (show ¬ d.watch.pend.any (Past.hitBy p e) = true by simpa using h)]

/-- With one hit, no cell holds a value (R48 c). -/
theorem lateHit_cells {c : Past} (hc : c ∈ d.watch.pend) (h : c.hitBy p e = true) : (d.lateHit p e).cells = [] := by
  unfold Dram.lateHit
  simp only [if_pos (List.any_eq_true.2 ⟨c, hc, h⟩)]

theorem lateHit_onlyFades : onlyFades d.cells (d.lateHit p e).cells := by
  unfold Dram.lateHit; split
  · exact onlyFades_nil _
  · exact onlyFades_refl _

theorem wf_lateHit {k : Kind} (h : d.wf k) : (d.lateHit p e).wf k := by
  unfold Dram.lateHit; split
  · obtain ⟨_, h2, h3, h4⟩ := wf_foldl_takeBack p e.teff (d.watch.pend.filter (Past.hitBy p e)) d
      (fun c hc => h.2.2.2 c (List.mem_filter.1 hc).1) h
    exact ⟨wf_nil k, h2, h3, fun c hc => h4 c (List.mem_filter.1 hc).1⟩
  · exact h

/-! ### Stores of ADDR, A8 and DIN -/

@[simp] theorem pinStore_rlat : (d.pinStore p e).rlat = d.rlat := by simp [Dram.pinStore]
@[simp] theorem pinStore_clat : (d.pinStore p e).clat = d.clat := by simp [Dram.pinStore]

theorem pinStore_onlyFades : onlyFades d.cells (d.pinStore p e).cells := lateHit_onlyFades p e (d.flag (d.hitNow p e))

theorem wf_pinStore {k : Kind} (h : d.wf k) : (d.pinStore p e).wf k := wf_lateHit p e (d.flag (d.hitNow p e)) h

theorem pinStore_viol : (d.pinStore p e).watch.viol = (d.watch.viol || d.hitNow p e) :=
  lateHit_viol p e (d.flag (d.hitNow p e))

/-- With no ended cycle hit, a store at most flags the cycle in progress. -/
theorem pinStore_quiet (h : ∀ c ∈ d.watch.pend, c.hitBy p e = false) :
    d.pinStore p e = d.flag (d.hitNow p e) := lateHit_eq_self p e (d.flag (d.hitNow p e)) h

end

section
variable (p : Params) (τ : Nat) (d : Dram)

@[simp] theorem addrStore_rlat : (d.addrStore p τ).rlat = d.rlat := by simp [Dram.addrStore]
@[simp] theorem addrStore_clat : (d.addrStore p τ).clat = d.clat := by simp [Dram.addrStore]
@[simp] theorem a8Store_rlat : (d.a8Store p τ).rlat = d.rlat := by simp [Dram.a8Store]
@[simp] theorem a8Store_clat : (d.a8Store p τ).clat = d.clat := by simp [Dram.a8Store]
@[simp] theorem dinStore_rlat : (d.dinStore p τ).rlat = d.rlat := by simp [Dram.dinStore]
@[simp] theorem dinStore_clat : (d.dinStore p τ).clat = d.clat := by simp [Dram.dinStore]

/-- With no ended cycle hit, an ADDR store remembers its time and flags the cycle in progress if it hits that. -/
theorem addrStore_unhit (h : ∀ c ∈ d.watch.pend, c.hitBy p ⟨.addr, τ⟩ = false) :
    d.addrStore p τ = { d with
      watch := { d.watch with addrAt := some τ, viol := d.watch.viol || d.hitNow p ⟨.addr, τ⟩ } } := by
  unfold Dram.addrStore; rw [pinStore_quiet _ _ _ h]; rfl

/-- With no ended cycle hit, an A8 store remembers its time and flags the cycle in progress if it hits that. -/
theorem a8Store_unhit (h : ∀ c ∈ d.watch.pend, c.hitBy p ⟨.a8, τ⟩ = false) :
    d.a8Store p τ = { d with
      watch := { d.watch with a8At := some τ, viol := d.watch.viol || d.hitNow p ⟨.a8, τ⟩ } } := by
  unfold Dram.a8Store; rw [pinStore_quiet _ _ _ h]; rfl

/-- With no ended cycle hit, a DIN store remembers its time and flags the cycle in progress if it hits that. -/
theorem dinStore_unhit (h : ∀ c ∈ d.watch.pend, c.hitBy p ⟨.din, τ⟩ = false) :
    d.dinStore p τ = { d with
      watch := { d.watch with dinAt := some τ, viol := d.watch.viol || d.hitNow p ⟨.din, τ⟩ } } := by
  unfold Dram.dinStore; rw [pinStore_quiet _ _ _ h]; rfl

theorem addrStore_onlyFades : onlyFades d.cells (d.addrStore p τ).cells := pinStore_onlyFades p ⟨.addr, τ⟩ d
theorem a8Store_onlyFades : onlyFades d.cells (d.a8Store p τ).cells := pinStore_onlyFades p ⟨.a8, τ⟩ d
theorem dinStore_onlyFades : onlyFades d.cells (d.dinStore p τ).cells := pinStore_onlyFades p ⟨.din, τ⟩ d

theorem wf_addrStore {k : Kind} (h : d.wf k) : (d.addrStore p τ).wf k := wf_pinStore p ⟨.addr, τ⟩ d h
theorem wf_a8Store {k : Kind} (h : d.wf k) : (d.a8Store p τ).wf k := wf_pinStore p ⟨.a8, τ⟩ d h
theorem wf_dinStore {k : Kind} (h : d.wf k) : (d.dinStore p τ).wf k := wf_pinStore p ⟨.din, τ⟩ d h

end

/-! ### Edges of the control lines -/

section
variable (p : Params) (τ : Nat) (d : Dram)

@[simp] theorem rasFall_cells (casN : Bool) (addr : Byte) (a8 : Bit) : (d.rasFall p τ casN addr a8).cells = d.cells := rfl
@[simp] theorem rasFall_clat (casN : Bool) (addr : Byte) (a8 : Bit) : (d.rasFall p τ casN addr a8).clat = d.clat := rfl
@[simp] theorem rasFall_rlat (casN : Bool) (addr : Byte) (a8 : Bit) :
    (d.rasFall p τ casN addr a8).rlat = some ⟨indexOf p.kind addr a8, τ⟩ := rfl
@[simp] theorem weFall_cells : (d.weFall τ).cells = d.cells := rfl
@[simp] theorem weFall_rlat : (d.weFall τ).rlat = d.rlat := rfl
@[simp] theorem weFall_clat : (d.weFall τ).clat = d.clat := rfl
@[simp] theorem weRise_cells : (d.weRise p τ).cells = d.cells := rfl
@[simp] theorem weRise_rlat : (d.weRise p τ).rlat = d.rlat := rfl
@[simp] theorem weRise_clat : (d.weRise p τ).clat = d.clat := rfl
@[simp] theorem casRise_cells : (d.casRise p τ).cells = d.cells := rfl
@[simp] theorem casRise_rlat : (d.casRise p τ).rlat = d.rlat := rfl
@[simp] theorem casRise_clat : (d.casRise p τ).clat = none := rfl
@[simp] theorem rasRise_rlat : (d.rasRise p τ).rlat = none := rfl
@[simp] theorem rasRise_clat : (d.rasRise p τ).clat = d.clat := by
  unfold Dram.rasRise
  cases d.rlat with
  | none => rfl
  | some r => dsimp only; split <;> rfl
@[simp] theorem judgeSample_cells (pin : Int) : (d.judgeSample p pin).cells = d.cells := rfl
@[simp] theorem judgeSample_rlat (pin : Int) : (d.judgeSample p pin).rlat = d.rlat := rfl
@[simp] theorem judgeSample_clat (pin : Int) : (d.judgeSample p pin).clat = d.clat := rfl

theorem wf_rasFall {k : Kind} (casN : Bool) (addr : Byte) (a8 : Bit) (h : d.wf k) : (d.rasFall p τ casN addr a8).wf k := h
theorem wf_weFall {k : Kind} (h : d.wf k) : (d.weFall τ).wf k := h
theorem wf_weRise {k : Kind} (h : d.wf k) : (d.weRise p τ).wf k := h
theorem wf_casRise {k : Kind} (h : d.wf k) : (d.casRise p τ).wf k := h
theorem wf_judgeSample {k : Kind} (pin : Int) (h : d.wf k) : (d.judgeSample p pin).wf k := h

/-- A refresh row is a row byte (R45). -/
theorem refRow_lt (r : Index) : refRow r < 256 := Nat.mod_lt _ (by decide)

theorem wf_casFall (rasN weN : Bool) (addr : Byte) (a8 din : Bit) (h : d.wf p.kind) :
    (d.casFall p τ rasN weN addr a8 din).wf p.kind := by
  obtain ⟨h1, h2, h3, h4⟩ := h
  unfold Dram.casFall
  split
  · refine ⟨?_, h2, h3, h4⟩
    cases weN
    · exact wf_write (cellNo_lt _ _ _) _ h1
    · exact h1
  · exact ⟨wf_nil _, h2, h3, h4⟩

theorem wf_rasRise {k : Kind} (h : d.wf k) : (d.rasRise p τ).wf k := by
  obtain ⟨h1, h2, h3, h4⟩ := h
  unfold Dram.rasRise
  cases d.rlat with
  | none => exact ⟨h1, h2, h3, h4⟩
  | some r =>
    dsimp only; split
    · exact ⟨wf_nil k, h2, h3, h4⟩
    · refine ⟨h1, ?_, ?_, ?_⟩
      · simp only [Dram.endWell]; split
        · exact rising_put _ _ _ h2
        · exact h2
      · simp only [Dram.endWell]; split
        · intro e he
          rcases mem_put _ _ _ he with rfl | he
          · exact refRow_lt _
          · exact h3 e he
        · exact h3
      · intro c hc
        rcases List.mem_cons.1 (List.mem_filter.1 hc).1 with rfl | hc
        · exact refRow_lt _
        · exact h4 c hc

@[simp] theorem onEdge_true (f : Dram → Dram) : d.onEdge true f = f d := rfl
@[simp] theorem onEdge_false (f : Dram → Dram) : d.onEdge false f = d := rfl

/-- What holds with and without the edge holds after it. -/
theorem onEdge_of {P : Dram → Prop} {f : Dram → Dram} {d : Dram} (b : Bool) (h : P d) (hf : P (f d)) :
    P (d.onEdge b f) := by
  cases b <;> assumption

theorem wf_edges (old new : Lines) (addr : Byte) (a8 din : Bit) (h : d.wf p.kind) :
    (d.edges p τ old new addr a8 din).wf p.kind := by
  unfold Dram.edges
  have h := onEdge_of (fell (Ctrl.rasN old) (Ctrl.rasN new)) h (wf_rasFall p τ d (Ctrl.casN new) addr a8 h)
  have h := onEdge_of (fell (Ctrl.weN old) (Ctrl.weN new)) h (wf_weFall τ _ h)
  have h := onEdge_of (fell (Ctrl.casN old) (Ctrl.casN new)) h
    (wf_casFall p τ _ (Ctrl.rasN new) (Ctrl.weN new) addr a8 din h)
  have h := onEdge_of (rose (Ctrl.weN old) (Ctrl.weN new)) h (wf_weRise p τ _ h)
  have h := onEdge_of (rose (Ctrl.casN old) (Ctrl.casN new)) h (wf_casRise p τ _ h)
  exact onEdge_of _ h (wf_rasRise p τ _ h)

/-- A RAS rise gives no cell a value: at most it makes every cell `?` (R48). -/
theorem rasRise_onlyFades : onlyFades d.cells (d.rasRise p τ).cells := by
  unfold Dram.rasRise
  cases d.rlat with
  | none => exact onlyFades_refl _
  | some r =>
    dsimp only; split
    · exact onlyFades_nil _
    · exact onlyFades_refl _

/-- What a CAS fall can do to the cells: an early write of the addressed cell, or nothing more than fading. -/
theorem casFall_cells (rasN weN : Bool) (addr : Byte) (a8 din : Bit) :
    onlyFades d.cells (d.casFall p τ rasN weN addr a8 din).cells ∨ ∃ r, d.rlat = some r ∧ weN = false ∧
      (d.casFall p τ rasN weN addr a8 din).cells =
        Memory.write (cellNo p.kind r.row (indexOf p.kind addr a8)) (writtenBit din d.watch) d.cells := by
  unfold Dram.casFall
  split
  · next r hr =>
    cases weN
    · exact .inr ⟨r, hr, rfl, rfl⟩
    · exact .inl (onlyFades_refl _)
  · exact .inl (onlyFades_nil _)

/-- A CTRL store that makes no write edge (no CAS fall with WE low) gives no cell a value. -/
theorem edges_onlyFades (old new : Lines) (addr : Byte) (a8 din : Bit)
    (h : fell (Ctrl.casN old) (Ctrl.casN new) = false ∨ Ctrl.weN new = true) :
    onlyFades d.cells (d.edges p τ old new addr a8 din).cells := by
  unfold Dram.edges
  have h0 := onlyFades_refl d.cells
  have h1 := onEdge_of (P := fun x => onlyFades d.cells x.cells) (f := Dram.rasFall p τ (Ctrl.casN new) addr a8)
    (fell (Ctrl.rasN old) (Ctrl.rasN new)) h0 h0
  have h2 := onEdge_of (P := fun x => onlyFades d.cells x.cells) (f := Dram.weFall τ)
    (fell (Ctrl.weN old) (Ctrl.weN new)) h1 h1
  generalize (d.onEdge (fell (Ctrl.rasN old) (Ctrl.rasN new)) (Dram.rasFall p τ (Ctrl.casN new) addr a8)).onEdge
    (fell (Ctrl.weN old) (Ctrl.weN new)) (Dram.weFall τ) = d2 at h2 ⊢
  have h3 : onlyFades d.cells (d2.onEdge (fell (Ctrl.casN old) (Ctrl.casN new))
      (Dram.casFall p τ (Ctrl.rasN new) (Ctrl.weN new) addr a8 din)).cells := by
    cases hc : fell (Ctrl.casN old) (Ctrl.casN new) with
    | false => exact h2
    | true =>
      rcases casFall_cells p τ d2 (Ctrl.rasN new) (Ctrl.weN new) addr a8 din with hf | ⟨r, _, hw, _⟩
      · exact onlyFades_trans h2 hf
      · rcases h with h | h
        · simp [hc] at h
        · simp [hw] at h
  have h4 := onEdge_of (P := fun x => onlyFades d.cells x.cells) (f := Dram.weRise p τ)
    (rose (Ctrl.weN old) (Ctrl.weN new)) h3 h3
  have h5 := onEdge_of (P := fun x => onlyFades d.cells x.cells) (f := Dram.casRise p τ)
    (rose (Ctrl.casN old) (Ctrl.casN new)) h4 h4
  exact onEdge_of (P := fun x => onlyFades d.cells x.cells) _ h5 (onlyFades_trans h5 (rasRise_onlyFades p τ _))

end

end Sys2Proof.Laws
end

