-- ==== Sys2Proof/Laws/State.lean ====
section
/-! SUPPORT. One lemma per field per update of the state, true by unfolding, so that no proof unfolds a record
update. -/

namespace Sys2Proof.Laws

open Sys2Proof.Machine

section
variable (s : State) (g : Nat)
@[simp] theorem pass_addr : (s.pass g).addr = s.addr := rfl
@[simp] theorem pass_a8 : (s.pass g).a8 = s.a8 := rfl
@[simp] theorem pass_ctrl : (s.pass g).ctrl = s.ctrl := rfl
@[simp] theorem pass_din : (s.pass g).din = s.din := rfl
@[simp] theorem pass_rc : (s.pass g).rc = s.rc := rfl
@[simp] theorem pass_op : (s.pass g).op = s.op := rfl
@[simp] theorem pass_t : (s.pass g).t = s.t + g := rfl
@[simp] theorem pass_trace : (s.pass g).trace = s.trace := rfl
@[simp] theorem pass_refused : (s.pass g).refused = s.refused := rfl
@[simp] theorem pass_doutReset : (s.pass g).doutReset = s.doutReset := rfl
@[simp] theorem pass_dram : (s.pass g).dram = s.dram.decay s.params (s.t + g) := rfl
@[simp] theorem pass_params : (s.pass g).params = s.params := rfl
@[simp] theorem pass_host : (s.pass g).host = s.host := rfl
@[simp] theorem pass_readSample : (s.pass g).readSample = s.readSample := rfl
@[simp] theorem pass_draws : (s.pass g).draws = s.draws := rfl
end

section
variable (s : State) (e : Event)
@[simp] theorem emit_addr : (s.emit e).addr = s.addr := rfl
@[simp] theorem emit_a8 : (s.emit e).a8 = s.a8 := rfl
@[simp] theorem emit_ctrl : (s.emit e).ctrl = s.ctrl := rfl
@[simp] theorem emit_din : (s.emit e).din = s.din := rfl
@[simp] theorem emit_rc : (s.emit e).rc = s.rc := rfl
@[simp] theorem emit_op : (s.emit e).op = s.op := rfl
@[simp] theorem emit_t : (s.emit e).t = s.t := rfl
@[simp] theorem emit_trace : (s.emit e).trace = s.trace ++ [e] := rfl
@[simp] theorem emit_refused : (s.emit e).refused = s.refused := rfl
@[simp] theorem emit_doutReset : (s.emit e).doutReset = s.doutReset := rfl
@[simp] theorem emit_dram : (s.emit e).dram = s.dram := rfl
@[simp] theorem emit_params : (s.emit e).params = s.params := rfl
@[simp] theorem emit_host : (s.emit e).host = s.host := rfl
@[simp] theorem emit_readSample : (s.emit e).readSample = s.readSample := rfl
@[simp] theorem emit_draws : (s.emit e).draws = s.draws := rfl
end

section
variable (s : State) (v : Byte)
@[simp] theorem stAddr_addr : (s.stAddr v).addr = v := rfl
@[simp] theorem stAddr_a8 : (s.stAddr v).a8 = s.a8 := rfl
@[simp] theorem stAddr_ctrl : (s.stAddr v).ctrl = s.ctrl := rfl
@[simp] theorem stAddr_din : (s.stAddr v).din = s.din := rfl
@[simp] theorem stAddr_rc : (s.stAddr v).rc = s.rc := rfl
@[simp] theorem stAddr_op : (s.stAddr v).op = s.op := rfl
@[simp] theorem stAddr_t : (s.stAddr v).t = s.t + s.params.cSt := rfl
@[simp] theorem stAddr_trace : (s.stAddr v).trace = s.trace ++ [.store (.addr s.addr v) s.t (s.t + s.params.cSt)] := rfl
@[simp] theorem stAddr_refused : (s.stAddr v).refused = s.refused := rfl
@[simp] theorem stAddr_doutReset : (s.stAddr v).doutReset = s.doutReset := rfl
@[simp] theorem stAddr_dram : (s.stAddr v).dram = (s.dram.decay s.params (s.t + s.params.cSt)).addrStore s.params (s.t + s.params.cSt) := rfl
@[simp] theorem stAddr_params : (s.stAddr v).params = s.params := rfl
@[simp] theorem stAddr_host : (s.stAddr v).host = s.host := rfl
@[simp] theorem stAddr_readSample : (s.stAddr v).readSample = s.readSample := rfl
@[simp] theorem stAddr_draws : (s.stAddr v).draws = s.draws := rfl
end

section
variable (s : State) (b : Bit)
@[simp] theorem stA8_addr : (s.stA8 b).addr = s.addr := rfl
@[simp] theorem stA8_a8 : (s.stA8 b).a8 = b := rfl
@[simp] theorem stA8_ctrl : (s.stA8 b).ctrl = s.ctrl := rfl
@[simp] theorem stA8_din : (s.stA8 b).din = s.din := rfl
@[simp] theorem stA8_rc : (s.stA8 b).rc = s.rc := rfl
@[simp] theorem stA8_op : (s.stA8 b).op = s.op := rfl
@[simp] theorem stA8_t : (s.stA8 b).t = s.t + s.params.cA8 := rfl
@[simp] theorem stA8_trace : (s.stA8 b).trace = s.trace ++ [.store (.a8 s.a8 b) s.t (s.t + s.params.cA8)] := rfl
@[simp] theorem stA8_refused : (s.stA8 b).refused = s.refused := rfl
@[simp] theorem stA8_doutReset : (s.stA8 b).doutReset = s.doutReset := rfl
@[simp] theorem stA8_dram : (s.stA8 b).dram = (s.dram.decay s.params (s.t + s.params.cA8)).a8Store s.params (s.t + s.params.cA8) := rfl
@[simp] theorem stA8_params : (s.stA8 b).params = s.params := rfl
@[simp] theorem stA8_host : (s.stA8 b).host = s.host := rfl
@[simp] theorem stA8_readSample : (s.stA8 b).readSample = s.readSample := rfl
@[simp] theorem stA8_draws : (s.stA8 b).draws = s.draws := rfl
end

section
variable (s : State) (v : CtrlValue)
@[simp] theorem stCtrl_addr : (s.stCtrl v).addr = s.addr := rfl
@[simp] theorem stCtrl_a8 : (s.stCtrl v).a8 = s.a8 := rfl
@[simp] theorem stCtrl_ctrl : (s.stCtrl v).ctrl = v.bits := rfl
@[simp] theorem stCtrl_din : (s.stCtrl v).din = s.din := rfl
@[simp] theorem stCtrl_rc : (s.stCtrl v).rc = s.rc := rfl
@[simp] theorem stCtrl_op : (s.stCtrl v).op = s.op := rfl
@[simp] theorem stCtrl_t : (s.stCtrl v).t = s.t + s.params.cSt := rfl
@[simp] theorem stCtrl_trace : (s.stCtrl v).trace = s.trace ++ [.store (.ctrl s.ctrl v.bits) s.t (s.t + s.params.cSt)] := rfl
@[simp] theorem stCtrl_refused : (s.stCtrl v).refused = s.refused := rfl
@[simp] theorem stCtrl_doutReset : (s.stCtrl v).doutReset = s.doutReset := rfl
@[simp] theorem stCtrl_dram : (s.stCtrl v).dram = (s.dram.decay s.params (s.t + s.params.cSt)).edges s.params (s.t + s.params.cSt) s.ctrl v.bits s.addr s.a8 s.din := rfl
@[simp] theorem stCtrl_params : (s.stCtrl v).params = s.params := rfl
@[simp] theorem stCtrl_host : (s.stCtrl v).host = s.host := rfl
@[simp] theorem stCtrl_readSample : (s.stCtrl v).readSample = s.readSample := rfl
@[simp] theorem stCtrl_draws : (s.stCtrl v).draws = s.draws := rfl
end

section
variable (s : State) (b : Bit)
@[simp] theorem stDin_addr : (s.stDin b).addr = s.addr := rfl
@[simp] theorem stDin_a8 : (s.stDin b).a8 = s.a8 := rfl
@[simp] theorem stDin_ctrl : (s.stDin b).ctrl = s.ctrl := rfl
@[simp] theorem stDin_din : (s.stDin b).din = b := rfl
@[simp] theorem stDin_rc : (s.stDin b).rc = s.rc := rfl
@[simp] theorem stDin_op : (s.stDin b).op = s.op := rfl
@[simp] theorem stDin_t : (s.stDin b).t = s.t + s.params.cDin := rfl
@[simp] theorem stDin_trace : (s.stDin b).trace = s.trace ++ [.store (.din s.din b) s.t (s.t + s.params.cDin)] := rfl
@[simp] theorem stDin_refused : (s.stDin b).refused = s.refused := rfl
@[simp] theorem stDin_doutReset : (s.stDin b).doutReset = s.doutReset := rfl
@[simp] theorem stDin_dram : (s.stDin b).dram = (s.dram.decay s.params (s.t + s.params.cDin)).dinStore s.params (s.t + s.params.cDin) := rfl
@[simp] theorem stDin_params : (s.stDin b).params = s.params := rfl
@[simp] theorem stDin_host : (s.stDin b).host = s.host := rfl
@[simp] theorem stDin_readSample : (s.stDin b).readSample = s.readSample := rfl
@[simp] theorem stDin_draws : (s.stDin b).draws = s.draws := rfl
end

section
variable (s : State)
@[simp] theorem sample_addr : (s.sample).addr = s.addr := rfl
@[simp] theorem sample_a8 : (s.sample).a8 = s.a8 := rfl
@[simp] theorem sample_ctrl : (s.sample).ctrl = s.ctrl := rfl
@[simp] theorem sample_din : (s.sample).din = s.din := rfl
@[simp] theorem sample_rc : (s.sample).rc = s.rc := rfl
@[simp] theorem sample_op : (s.sample).op = s.op := rfl
@[simp] theorem sample_t : (s.sample).t = s.t + s.params.cIn := rfl
@[simp] theorem sample_trace : (s.sample).trace = s.trace ++ [.sample (s.pinLevel.getD s.draw) s.t s.pin] := rfl
@[simp] theorem sample_refused : (s.sample).refused = s.refused := rfl
@[simp] theorem sample_doutReset : (s.sample).doutReset = s.doutReset := rfl
@[simp] theorem sample_dram : (s.sample).dram = (s.dram.judgeSample s.params s.pin).decay s.params (s.t + s.params.cIn) := rfl
@[simp] theorem sample_params : (s.sample).params = s.params := rfl
@[simp] theorem sample_host : (s.sample).host = s.host := rfl
@[simp] theorem sample_readSample : (s.sample).readSample = some (s.pinLevel.getD s.draw) := rfl
@[simp] theorem sample_draws : (s.sample).draws = if s.pinLevel.isSome then s.draws else s.draws + 1 := rfl
end

/-- From time L_IN on the draw a sample takes is the environment's. -/
theorem draw_of_lIn {s : State} (h : s.params.lIn ≤ s.t) : s.draw = Config.freeBit s.draws :=
  if_neg (by simp only [State.pin]; omega)

/-- Before time L_IN a sample takes a draw of the DOUT register's reset value (D24). -/
theorem draw_of_early {s : State} (h : s.t < s.params.lIn) : s.draw = Config.resetSample s.doutReset s.draws :=
  if_pos (by simp only [State.pin]; omega)

section
variable (s : State)
@[simp] theorem advance_addr : (s.advance).addr = s.addr := rfl
@[simp] theorem advance_a8 : (s.advance).a8 = s.a8 := rfl
@[simp] theorem advance_ctrl : (s.advance).ctrl = s.ctrl := rfl
@[simp] theorem advance_din : (s.advance).din = s.din := rfl
@[simp] theorem advance_rc : (s.advance).rc = s.rc := rfl
@[simp] theorem advance_op : (s.advance).op = s.op.map (fun o => (o.1, o.2 + 1)) := rfl
@[simp] theorem advance_t : (s.advance).t = s.t := rfl
@[simp] theorem advance_trace : (s.advance).trace = s.trace := rfl
@[simp] theorem advance_refused : (s.advance).refused = s.refused := rfl
@[simp] theorem advance_doutReset : (s.advance).doutReset = s.doutReset := rfl
@[simp] theorem advance_dram : (s.advance).dram = s.dram := rfl
@[simp] theorem advance_params : (s.advance).params = s.params := rfl
@[simp] theorem advance_host : (s.advance).host = s.host := rfl
@[simp] theorem advance_readSample : (s.advance).readSample = s.readSample := rfl
@[simp] theorem advance_draws : (s.advance).draws = s.draws := rfl
end

section
variable (s : State) (cmd : Instr)
@[simp] theorem beginOp_addr : (s.beginOp cmd).addr = s.addr := rfl
@[simp] theorem beginOp_a8 : (s.beginOp cmd).a8 = s.a8 := rfl
@[simp] theorem beginOp_ctrl : (s.beginOp cmd).ctrl = s.ctrl := rfl
@[simp] theorem beginOp_din : (s.beginOp cmd).din = s.din := rfl
@[simp] theorem beginOp_rc : (s.beginOp cmd).rc = s.rc := rfl
@[simp] theorem beginOp_op : (s.beginOp cmd).op = some (cmd, 0) := rfl
@[simp] theorem beginOp_t : (s.beginOp cmd).t = s.t := rfl
@[simp] theorem beginOp_trace : (s.beginOp cmd).trace = s.trace ++ [.opBegin cmd s.t] := rfl
@[simp] theorem beginOp_refused : (s.beginOp cmd).refused = s.refused := rfl
@[simp] theorem beginOp_doutReset : (s.beginOp cmd).doutReset = s.doutReset := rfl
@[simp] theorem beginOp_dram : (s.beginOp cmd).dram = s.dram := rfl
@[simp] theorem beginOp_params : (s.beginOp cmd).params = s.params := rfl
@[simp] theorem beginOp_host : (s.beginOp cmd).host = s.host := rfl
@[simp] theorem beginOp_readSample : (s.beginOp cmd).readSample = none := rfl
@[simp] theorem beginOp_draws : (s.beginOp cmd).draws = s.draws := rfl
end

section
variable (s : State) (w : CmdWord) (code : RefuseCode)
@[simp] theorem refuse_addr : (s.refuse w code).addr = s.addr := rfl
@[simp] theorem refuse_a8 : (s.refuse w code).a8 = s.a8 := rfl
@[simp] theorem refuse_ctrl : (s.refuse w code).ctrl = s.ctrl := rfl
@[simp] theorem refuse_din : (s.refuse w code).din = s.din := rfl
@[simp] theorem refuse_rc : (s.refuse w code).rc = s.rc := rfl
@[simp] theorem refuse_op : (s.refuse w code).op = s.op := rfl
@[simp] theorem refuse_t : (s.refuse w code).t = s.t := rfl
@[simp] theorem refuse_trace : (s.refuse w code).trace = s.trace ++ [.refused w code s.t] := rfl
@[simp] theorem refuse_refused : (s.refuse w code).refused = true := rfl
@[simp] theorem refuse_doutReset : (s.refuse w code).doutReset = s.doutReset := rfl
@[simp] theorem refuse_dram : (s.refuse w code).dram = s.dram := rfl
@[simp] theorem refuse_params : (s.refuse w code).params = s.params := rfl
@[simp] theorem refuse_host : (s.refuse w code).host = s.host := rfl
@[simp] theorem refuse_readSample : (s.refuse w code).readSample = s.readSample := rfl
@[simp] theorem refuse_draws : (s.refuse w code).draws = s.draws := rfl
end

section
variable (s : State) (i : Issue) (rest : List Issue)
@[simp] theorem take_addr : (s.take i rest).addr = s.addr := rfl
@[simp] theorem take_a8 : (s.take i rest).a8 = s.a8 := rfl
@[simp] theorem take_ctrl : (s.take i rest).ctrl = s.ctrl := rfl
@[simp] theorem take_din : (s.take i rest).din = s.din := rfl
@[simp] theorem take_rc : (s.take i rest).rc = s.rc := rfl
@[simp] theorem take_op : (s.take i rest).op = s.op := rfl
@[simp] theorem take_t : (s.take i rest).t = s.t + gapOf s.params i := rfl
@[simp] theorem take_trace : (s.take i rest).trace = s.trace := rfl
@[simp] theorem take_refused : (s.take i rest).refused = s.refused := rfl
@[simp] theorem take_doutReset : (s.take i rest).doutReset = s.doutReset := rfl
@[simp] theorem take_dram : (s.take i rest).dram = s.dram.decay s.params (s.t + gapOf s.params i) := rfl
@[simp] theorem take_params : (s.take i rest).params = s.params := rfl
@[simp] theorem take_host : (s.take i rest).host = rest := rfl
@[simp] theorem take_readSample : (s.take i rest).readSample = s.readSample := rfl
@[simp] theorem take_draws : (s.take i rest).draws = s.draws := rfl
end

@[simp] theorem nop_eq (s : State) : s.nop = s.pass 1 := rfl

section
variable (s : State) (cmd : Instr)
@[simp] theorem endOp_addr : (s.endOp cmd).addr = s.addr := by cases cmd <;> rfl
@[simp] theorem endOp_a8 : (s.endOp cmd).a8 = s.a8 := by cases cmd <;> rfl
@[simp] theorem endOp_ctrl : (s.endOp cmd).ctrl = s.ctrl := by cases cmd <;> rfl
@[simp] theorem endOp_din : (s.endOp cmd).din = s.din := by cases cmd <;> rfl
@[simp] theorem endOp_rc : (s.endOp cmd).rc = if cmd = .refresh then s.rc + 1 else s.rc := by cases cmd <;> rfl
@[simp] theorem endOp_op : (s.endOp cmd).op = none := by cases cmd <;> rfl
@[simp] theorem endOp_t : (s.endOp cmd).t = s.t := by cases cmd <;> rfl
@[simp] theorem endOp_trace : (s.endOp cmd).trace = s.trace ++ [.opEnd cmd s.t] := by cases cmd <;> rfl
@[simp] theorem endOp_refused : (s.endOp cmd).refused = s.refused := by cases cmd <;> rfl
@[simp] theorem endOp_doutReset : (s.endOp cmd).doutReset = s.doutReset := by cases cmd <;> rfl
@[simp] theorem endOp_dram : (s.endOp cmd).dram = s.dram := by cases cmd <;> rfl
@[simp] theorem endOp_params : (s.endOp cmd).params = s.params := by cases cmd <;> rfl
@[simp] theorem endOp_host : (s.endOp cmd).host = s.host := by cases cmd <;> rfl
@[simp] theorem endOp_readSample : (s.endOp cmd).readSample = s.readSample := by cases cmd <;> rfl
@[simp] theorem endOp_draws : (s.endOp cmd).draws = s.draws := by cases cmd <;> rfl
end

end Sys2Proof.Laws
end

