-- ==== Sys2Proof/Laws/Ops.lean ====
section
/-! SUPPORT. How an operation runs: its list piece by piece (40_timing_primitives.md R72), waits (R71), what a
micro-operation leaves alone, and the inversion of `runOperation` (R73). -/

namespace Sys2Proof.Laws

open Sys2Proof.Machine

/-! ### Lists of micro-operations -/

@[simp] theorem runOps_nil (s : State) : s.runOps [] = s := rfl

@[simp] theorem runOps_cons (s : State) (m : MicroOp) (ms : List MicroOp) :
    s.runOps (m :: ms) = (s.perform m).runOps ms := rfl

@[simp] theorem runOps_append (s : State) (as bs : List MicroOp) : s.runOps (as ++ bs) = (s.runOps as).runOps bs :=
  List.foldl_append

/-- What holds now and is kept by every micro-operation holds after the list. -/
theorem runOps_of {P : State → Prop} (ops : List MicroOp) (s : State) (hs : P s)
    (hP : ∀ s m, m ∈ ops → P s → P (s.perform m)) : P (s.runOps ops) := by
  induction ops generalizing s with
  | nil => exact hs
  | cons m ms ih =>
    exact ih (s.perform m) (hP s m List.mem_cons_self hs) (fun s m' hm' h => hP s m' (List.mem_cons_of_mem _ hm') h)

/-! ### Waits (R71) -/

/-- Decaying later takes in decaying now. -/
theorem decay_decay (p : Params) {τ τ' : Nat} (hle : τ ≤ τ') (d : Dram) : (d.decay p τ).decay p τ' = d.decay p τ' := by
  have mono (e : Nat) (h : expired p τ e = true) : expired p τ' e = true := by
    simp only [expired, exceeds, decide_eq_true_eq] at h ⊢
    exact Nat.lt_of_lt_of_le h (Nat.mul_le_mul_right _ (by omega))
  have hl : (d.lastref.filter (fun e => !expired p τ e.2)).filter (fun e => !expired p τ' e.2)
      = d.lastref.filter (fun e => !expired p τ' e.2) := by
    rw [List.filter_filter]
    refine List.filter_congr (fun e _ => ?_)
    cases h : expired p τ e.2
    · simp
    · simp [mono e.2 h]
  have hc : (d.decay p τ).cells.filter (fun c => !((d.lastref.filter (fun e => !expired p τ e.2)).filter
        (fun e => expired p τ' e.2)).any (fun e => e.1 == cellRow c.1))
      = d.cells.filter (fun c => !(d.lastref.filter (fun e => expired p τ' e.2)).any (fun e => e.1 == cellRow c.1)) := by
    rw [decay_cells, List.filter_filter]
    refine List.filter_congr (fun c _ => ?_)
    rw [Bool.eq_iff_iff]
    simp only [Bool.and_eq_true, Bool.not_eq_true', List.any_eq_false, List.mem_filter, beq_iff_eq]
    constructor
    · rintro ⟨h1, h2⟩ e ⟨he, hx⟩ hr
      cases h : expired p τ e.2 with
      | true => exact h2 e ⟨he, h⟩ hr
      | false => exact h1 e ⟨⟨he, by simp [h]⟩, hx⟩ hr
    · intro h
      exact ⟨fun e he => h e ⟨he.1.1, he.2⟩, fun e he => h e ⟨he.1, mono e.2 he.2⟩⟩
  rw [decay_cells] at hc
  simp only [Dram.decay, hl, hc]

/-- `wait(n)` takes exactly n cycles and does nothing else (R71); the DRAM decays as time passes (R46). -/
theorem runOps_wait (n : Nat) (s : State) :
    s.runOps (waitOps n) = { s with
      t := s.t + n
      op := s.op.map (fun o => (o.1, o.2 + n))
      dram := if n = 0 then s.dram else s.dram.decay s.params (s.t + n) } := by
  induction n generalizing s with
  | zero =>
    simp only [waitOps, List.replicate_zero, runOps_nil, Nat.add_zero, if_true]
    cases s with
    | mk addr a8 ctrl din rc op t trace refused doutReset dram params host readSample draws => cases op <;> rfl
  | succ n ih =>
    have hw : waitOps (n + 1) = .nop :: waitOps n := rfl
    rw [hw, runOps_cons, ih]
    have h1 : s.t + 1 + n = s.t + (n + 1) := by omega
    have hd : (if n = 0 then s.dram.decay s.params (s.t + 1)
        else (s.dram.decay s.params (s.t + 1)).decay s.params (s.t + 1 + n)) = s.dram.decay s.params (s.t + (n + 1)) := by
      split
      · next h => subst h; rfl
      · rw [h1, decay_decay]; omega
    cases s with
    | mk addr a8 ctrl din rc op t trace refused doutReset dram params host readSample draws =>
      simp only [State.perform, State.effect, State.advance, State.nop, State.pass] at hd ⊢
      simp only [hd, Nat.add_eq_zero_iff, Nat.one_ne_zero, and_false, if_false]
      cases op <;> simp [Nat.add_assoc, Nat.add_comm 1 n]

/-! ### What a micro-operation leaves alone (R27, R36) -/

section
variable (s : State) (m : MicroOp)

@[simp] theorem perform_rc : (s.perform m).rc = s.rc := by cases m <;> rfl
@[simp] theorem perform_refused : (s.perform m).refused = s.refused := by cases m <;> rfl
@[simp] theorem perform_doutReset : (s.perform m).doutReset = s.doutReset := by cases m <;> rfl
@[simp] theorem perform_params : (s.perform m).params = s.params := by cases m <;> rfl
@[simp] theorem perform_host : (s.perform m).host = s.host := by cases m <;> rfl
@[simp] theorem perform_op : (s.perform m).op = s.op.map (fun o => (o.1, o.2 + 1)) := by cases m <;> rfl

/-- Time never goes back (R24). -/
theorem perform_t_le : s.t ≤ (s.perform m).t := by
  cases m <;> exact Nat.le_add_right _ _

/-- CTRL after a micro-operation: the value stored, or what it was (R67). -/
theorem perform_ctrl : (s.perform m).ctrl = match m with
    | .stCtrl v => v.bits
    | .stAddr _ => s.ctrl
    | .stA8 _ => s.ctrl
    | .stDin _ => s.ctrl
    | .nop => s.ctrl
    | .sample => s.ctrl := by
  cases m <;> rfl

/-- The trace only grows (R25). -/
theorem perform_trace : ∃ es, (s.perform m).trace = s.trace ++ es := by
  cases m
  case nop => exact ⟨[], (List.append_nil _).symm⟩
  all_goals exact ⟨_, rfl⟩

/-- Every micro-operation keeps the canonical form of the DRAM's data. -/
theorem perform_memInv (h : s.memInv) : (s.perform m).memInv := by
  have hd (τ : Nat) := wf_decay s.params τ s.dram h
  cases m with
  | stAddr v => exact wf_addrStore _ _ _ (hd _)
  | stA8 b => exact wf_a8Store _ _ _ (hd _)
  | stCtrl v => exact wf_edges _ _ _ _ _ _ _ _ (hd _)
  | stDin b => exact wf_dinStore _ _ _ (hd _)
  | nop => exact hd _
  | sample => exact wf_decay _ _ _ (wf_judgeSample _ _ _ h)

/-- A micro-operation other than the early-write store gives no cell a value (R41). -/
theorem perform_onlyFades (hm : m ≠ .stCtrl .wrCol) : onlyFades s.dram.cells (s.perform m).dram.cells := by
  have hd (τ : Nat) := decay_onlyFades s.params τ s.dram
  cases m with
  | stAddr v => exact onlyFades_trans (hd _) (addrStore_onlyFades _ _ _)
  | stA8 b => exact onlyFades_trans (hd _) (a8Store_onlyFades _ _ _)
  | stCtrl v =>
    refine onlyFades_trans (hd _) (edges_onlyFades _ _ _ _ _ _ _ _ ?_)
    cases v
    case wrCol => exact absurd rfl hm
    case wrRow => exact .inl (by simp [fell, Ctrl.casN, CtrlValue.bits])
    all_goals exact .inr rfl
  | stDin b => exact onlyFades_trans (hd _) (dinStore_onlyFades _ _ _)
  | nop => exact hd _
  | sample => exact decay_onlyFades _ _ _

end

/-! ### Running an operation (R73) -/

/-- An operation that answers a next state began from an idle control port, and the state is its list's. -/
theorem runOperation_next {cmd : Instr} {ops : List MicroOp} {s t : State} (h : runOperation cmd ops s = .next t) :
    s.ctrl = CtrlValue.default.bits ∧ t = ((s.beginOp cmd).runOps ops).endOp cmd := by
  unfold runOperation at h
  split at h
  · next hc => exact ⟨hc, by injection h with h; exact h.symm⟩
  · cases h

/-- From an idle control port every operation answers a next state. -/
theorem runOperation_idle (cmd : Instr) (ops : List MicroOp) {s : State} (h : s.ctrl = CtrlValue.default.bits) :
    runOperation cmd ops s = .next (((s.beginOp cmd).runOps ops).endOp cmd) := by
  simp [runOperation, h]

/-- From any other port every operation raises CtrlNotIdle (R94). -/
theorem runOperation_fault (cmd : Instr) (ops : List MicroOp) {s : State} (h : s.ctrl ≠ CtrlValue.default.bits) :
    runOperation cmd ops s = .fault .ctrlNotIdle := by
  simp [runOperation, h]

/-- Every meaning runs the command's own list (R72). -/
theorem exec_eq (i : Instr) (s : State) : exec i s = runOperation i (microOps i s.params s.rc) s := by
  cases i <;> rfl

end Sys2Proof.Laws
end

