-- ==== Sys2Proof/Laws/Time.lean ====
section
/-! SUPPORT. Nothing the DRAM remembers lies in the future (10_state.md R24): every operation at a time τ keeps what
it remembers at or before τ. -/

namespace Sys2Proof.Laws

open Sys2Proof.Machine

theorem notAfter_mono {t t' : Nat} {d : Dram} (hle : t ≤ t') (h : d.NotAfter t) : d.NotAfter t' where
  addrAt e he := Nat.le_trans (h.addrAt e he) hle
  a8At e he := Nat.le_trans (h.a8At e he) hle
  dinAt e he := Nat.le_trans (h.dinAt e he) hle
  weFall e he := Nat.le_trans (h.weFall e he) hle
  cas x hx := Nat.le_trans (h.cas x hx) hle
  prevRise e he := Nat.le_trans (h.prevRise e he) hle
  rlat r hr := Nat.le_trans (h.rlat r hr) hle
  clat c hc := Nat.le_trans (h.clat c hc) hle
  lastref e he := Nat.le_trans (h.lastref e he) hle
  drives v hv := ⟨Nat.le_trans (h.drives v hv).1 hle, fun e he => Nat.le_trans ((h.drives v hv).2.1 e he) hle,
    fun e he => Nat.le_trans ((h.drives v hv).2.2 e he) hle⟩
  pend c hc := ⟨Nat.le_trans (h.pend c hc).1 hle, Nat.le_trans (h.pend c hc).2.1 hle,
    fun x hx => Nat.le_trans ((h.pend c hc).2.2.1 x hx) hle, fun e he => Nat.le_trans ((h.pend c hc).2.2.2 e he) hle⟩

section
variable (p : Params) (τ : Nat) (d : Dram)

theorem notAfter_decay {t : Nat} (h : d.NotAfter t) : (d.decay p τ).NotAfter t :=
  { h with lastref := fun e he => h.lastref e (List.mem_filter.1 he).1 }

theorem notAfter_takeBack {t : Nat} (c : Past) (hc : ∀ e, c.refBefore = some e → e ≤ t) (h : d.NotAfter t) :
    (d.takeBack p τ c).NotAfter t :=
  { h with
    lastref := fun e he => by
      rcases mem_takeBack_lastref p τ d c he with he | ⟨_, he⟩
      · exact h.lastref e he
      · exact hc _ he
    drives := fun v hv => h.drives v (List.mem_filter.1 hv).1
    pend := fun x hx => by
      obtain ⟨y, hy, rfl⟩ := List.mem_map.1 hx
      have hp := h.pend y hy
      refine ⟨by simpa using hp.1, by simpa using hp.2.1, by simpa using hp.2.2.1, fun e he => ?_⟩
      rcases without_refBefore c y with hb | hb
      · exact hp.2.2.2 e (hb ▸ he)
      · exact hc e (hb ▸ he) }

theorem notAfter_foldl_takeBack {t : Nat} (cs : List Past) (hc : ∀ c ∈ cs, ∀ e, c.refBefore = some e → e ≤ t)
    (h : d.NotAfter t) : (cs.foldl (Dram.takeBack p τ) d).NotAfter t := by
  induction cs generalizing d with
  | nil => exact h
  | cons c cs ih =>
    exact ih _ (fun c' hc' => hc c' (List.mem_cons_of_mem _ hc'))
      (notAfter_takeBack p τ d c (hc c List.mem_cons_self) h)

theorem notAfter_lateHit {t : Nat} (e : PinStore) (h : d.NotAfter t) : (d.lateHit p e).NotAfter t := by
  unfold Dram.lateHit; split
  · have hf := notAfter_foldl_takeBack p e.teff d (d.watch.pend.filter (Past.hitBy p e))
      (fun c hc => (h.pend c (List.mem_filter.1 hc).1).2.2.2) h
    exact { hf with pend := fun c hc => hf.pend c (List.mem_filter.1 hc).1 }
  · exact h

/-- Flagging a violation remembers no time. -/
theorem notAfter_flag {t : Nat} (b : Bool) (h : d.NotAfter t) : (d.flag b).NotAfter t := { h with }

theorem notAfter_pinStore {t : Nat} (e : PinStore) (h : d.NotAfter t) : (d.pinStore p e).NotAfter t :=
  notAfter_lateHit p _ e (notAfter_flag d _ h)

theorem notAfter_addrStore (h : d.NotAfter τ) : (d.addrStore p τ).NotAfter τ :=
  { notAfter_pinStore p d ⟨.addr, τ⟩ h with addrAt := fun e he => by cases he; exact Nat.le_refl _ }

theorem notAfter_a8Store (h : d.NotAfter τ) : (d.a8Store p τ).NotAfter τ :=
  { notAfter_pinStore p d ⟨.a8, τ⟩ h with a8At := fun e he => by cases he; exact Nat.le_refl _ }

theorem notAfter_dinStore (h : d.NotAfter τ) : (d.dinStore p τ).NotAfter τ :=
  { notAfter_pinStore p d ⟨.din, τ⟩ h with dinAt := fun e he => by cases he; exact Nat.le_refl _ }

theorem notAfter_rasFall (casN : Bool) (addr : Byte) (a8 : Bit) (h : d.NotAfter τ) :
    (d.rasFall p τ casN addr a8).NotAfter τ :=
  { h with
    weFall := fun e he => by cases he
    cas := fun x hx => by cases hx
    rlat := fun r hr => by cases hr; exact Nat.le_refl _ }

theorem notAfter_weFall (h : d.NotAfter τ) : (d.weFall τ).NotAfter τ :=
  { h with weFall := fun e he => by cases he; exact Nat.le_refl _ }

theorem notAfter_casFall (rasN weN : Bool) (addr : Byte) (a8 din : Bit) (h : d.NotAfter τ) :
    (d.casFall p τ rasN weN addr a8 din).NotAfter τ := by
  unfold Dram.casFall
  split
  · refine { h with
      cas := fun x hx => by cases hx; exact Nat.le_refl _
      clat := fun c hc => by cases hc; exact Nat.le_refl _
      drives := ?_ }
    cases weN
    · exact h.drives
    · intro v hv
      rcases List.mem_append.1 hv with hv | hv
      · exact h.drives v hv
      · unfold driveOf at hv; split at hv
        · simp at hv
        · obtain rfl := List.mem_singleton.1 hv
          exact ⟨Nat.le_refl _, fun e he => h.lastref _ (get_mem _ _ _ he), fun e he => by cases he⟩
  · exact { h with }

theorem notAfter_weRise (h : d.NotAfter τ) : (d.weRise p τ).NotAfter τ := { h with }

theorem notAfter_casRise (h : d.NotAfter τ) : (d.casRise p τ).NotAfter τ :=
  { h with
    clat := fun c hc => by cases hc
    drives := fun v hv => by
      obtain ⟨v', hv', rfl⟩ := List.mem_map.1 hv
      refine ⟨(h.drives v' hv').1, (h.drives v' hv').2.1, fun e he => ?_⟩
      cases hr : v'.rise with
      | none => simp [Drive.close, hr] at he; exact Nat.le_of_eq he.symm
      | some x => simp [Drive.close, hr] at he; exact he ▸ (h.drives v' hv').2.2 x hr }

theorem notAfter_rasRise (h : d.NotAfter τ) : (d.rasRise p τ).NotAfter τ := by
  have cut (d : Dram) (h : d.NotAfter τ) : ({ d with
      rlat := none
      watch := { d.watch with weFall := none, cas := none, prevRise := some τ, viol := false } } : Dram).NotAfter τ :=
    { h with
      weFall := fun e he => by cases he
      cas := fun x hx => by cases hx
      prevRise := fun e he => by cases he; exact Nat.le_refl _
      rlat := fun r hr => by cases hr }
  unfold Dram.rasRise
  cases hr : d.rlat with
  | none => exact cut d h
  | some r =>
    dsimp only; split
    · exact cut _ { notAfter_flag d _ h with drives := fun v hv => h.drives v (List.mem_filter.1 hv).1 }
    · refine cut _ { notAfter_flag d (inHold p τ r.rfall p.tRas) h with lastref := ?_, pend := ?_ }
      · simp only [Dram.endWell]; split
        · intro e he
          rcases mem_put _ _ _ he with rfl | he
          · exact Nat.le_refl _
          · exact h.lastref e he
        · exact h.lastref
      · intro c hc
        rcases List.mem_cons.1 (List.mem_filter.1 hc).1 with rfl | hc
        · exact ⟨Nat.le_refl _, h.rlat r hr, h.cas, fun e he => h.lastref _ (get_mem _ _ _ he)⟩
        · exact h.pend c hc

theorem notAfter_edges (old new : Lines) (addr : Byte) (a8 din : Bit) (h : d.NotAfter τ) :
    (d.edges p τ old new addr a8 din).NotAfter τ := by
  unfold Dram.edges
  have h := onEdge_of (fell (Ctrl.rasN old) (Ctrl.rasN new)) h (notAfter_rasFall p τ d (Ctrl.casN new) addr a8 h)
  have h := onEdge_of (fell (Ctrl.weN old) (Ctrl.weN new)) h (notAfter_weFall τ _ h)
  have h := onEdge_of (fell (Ctrl.casN old) (Ctrl.casN new)) h
    (notAfter_casFall p τ _ (Ctrl.rasN new) (Ctrl.weN new) addr a8 din h)
  have h := onEdge_of (rose (Ctrl.weN old) (Ctrl.weN new)) h (notAfter_weRise p τ _ h)
  have h := onEdge_of (rose (Ctrl.casN old) (Ctrl.casN new)) h (notAfter_casRise p τ _ h)
  exact onEdge_of _ h (notAfter_rasRise p τ _ h)

end

/-- Every micro-operation keeps it that nothing remembered lies in the future. -/
theorem perform_timeInv (s : State) (m : MicroOp) (h : s.timeInv) : (s.perform m).timeInv := by
  have hd (n : Nat) : (s.dram.decay s.params (s.t + n)).NotAfter (s.t + n) :=
    notAfter_decay _ _ _ (notAfter_mono (Nat.le_add_right _ _) h)
  cases m with
  | stAddr v => exact notAfter_addrStore _ _ _ (hd _)
  | stA8 b => exact notAfter_a8Store _ _ _ (hd _)
  | stCtrl v => exact notAfter_edges _ _ _ _ _ _ _ _ (hd _)
  | stDin b => exact notAfter_dinStore _ _ _ (hd _)
  | nop => exact hd 1
  | sample => exact notAfter_decay _ _ _ (notAfter_flag _ _ (notAfter_mono (Nat.le_add_right _ _) h))

/-- An operation keeps it that nothing remembered lies in the future. -/
theorem runOperation_timeInv (cmd : Instr) (ops : List MicroOp) (s : State) (h : s.timeInv) :
    (((s.beginOp cmd).runOps ops).endOp cmd).timeInv := by
  have hr := runOps_of (P := State.timeInv) ops (s.beginOp cmd) h (fun s m _ h => perform_timeInv s m h)
  cases cmd <;> exact hr

end Sys2Proof.Laws
end

