-- ==== Sys2Proof/Laws/Cycle.lean ====
section
/-! SUPPORT. The DRAM through one whole cycle (20_memory.md R40-R44), phase by phase: the row phase, the column phase
with its CAS fall, the end. What each predicate of R111 finds is kept as a Boolean, so that the same description
serves a cycle that breaks nothing and one that does. -/

namespace Sys2Proof.Laws

open Sys2Proof.Machine

/-! ### Durations -/

/-- Longer lasts at least as long. -/
theorem atLeast_mono {p : Params} {n m T : Nat} (h : atLeast p n T = true) (hn : n ≤ m) : atLeast p m T = true := by
  simp only [atLeast, decide_eq_true_eq] at h ⊢
  exact Nat.le_trans h (Nat.mul_le_mul_right _ hn)

/-- A hold window is over once its time has passed. -/
theorem inHold_false {p : Params} {n T τ e : Nat} (h : atLeast p n T = true)
    (hn : n ≤ τ - e) : inHold p τ e T = false := by
  simp only [inHold, Bool.not_eq_false']
  exact atLeast_mono h hn

theorem tooRecent_false {p : Params} {τ T e n : Nat} (h : atLeast p n T = true)
    (hn : n ≤ τ - e) : tooRecent p τ T (some e) = false := by
  simp [tooRecent, atLeast_mono h hn]

/-- A setup time is met if the store lies far enough back, or there was none. -/
theorem tooRecent_false_of {p : Params} {τ T n : Nat} {o : Option Nat} (h : atLeast p n T = true)
    (hn : ∀ e, o = some e → n ≤ τ - e) : tooRecent p τ T o = false := by
  cases o with
  | none => rfl
  | some e => exact tooRecent_false h (hn e rfl)

/-! ### Indexes -/

theorem indexOf_dram256K_toNat (a : Byte) (b : Bit) : (indexOf .dram256K a b).toNat = 256 * b.toNat + a.toNat := by
  have := a.isLt; have := b.isLt
  simp only [indexOf, BitVec.toNat_ofNat]; omega

theorem indexOf_dram64K_toNat (a : Byte) (b : Bit) : (indexOf .dram64K a b).toNat = a.toNat := by
  have := a.isLt
  simp only [indexOf, BitVec.toNat_setWidth]; omega

/-! ### States between cycles -/

theorem quiet_rlat {s : State} (h : s.quiet) : s.dram.rlat = none := by
  have := h.2.1.1; rw [h.1] at this; simpa [Ctrl.rasN, CtrlValue.bits] using this

theorem quiet_clat {s : State} (h : s.quiet) : s.dram.clat = none := by
  have := h.2.1.2.1; rw [h.1] at this; simpa [Ctrl.casN, CtrlValue.bits] using this

/-- Between cycles no drive is in progress. -/
theorem quiet_drives {s : State} (h : s.quiet) : ∀ v ∈ s.dram.drives, v.rise.isSome = true :=
  h.2.1.2.2 (quiet_clat h)

/-- Quiet again after a cycle. -/
theorem quiet_of (t : State) (hc : t.ctrl = CtrlValue.default.bits) (hr : t.dram.rlat = none)
    (hcl : t.dram.clat = none) (hn : t.timeInv) (hd : ∀ v ∈ t.dram.drives, v.rise.isSome) : t.quiet := by
  refine ⟨hc, ⟨?_, ?_, fun _ => hd⟩, hn⟩
  · rw [hr, hc]; rfl
  · rw [hcl, hc]; rfl

/-! ### Decay along a cycle -/

/-- A wait decays no more than what follows it. -/
theorem wait_decay (s : State) (n : Nat) {τ : Nat} (hτ : s.t + n ≤ τ) :
    (s.runOps (waitOps n)).dram.decay s.params τ = s.dram.decay s.params τ := by
  rw [runOps_wait]; dsimp only; split
  · rfl
  · exact decay_decay _ hτ _

/-- Decay looks at the cells and the credits only. -/
theorem decay_watch_decay (p : Params) {τ τ' : Nat} (hle : τ ≤ τ') (d : Dram) (w : Watch) :
    ({ d.decay p τ with watch := w }).decay p τ' = { d.decay p τ' with watch := w } := by
  have h : ({ d.decay p τ with watch := w }).decay p τ' = { (d.decay p τ).decay p τ' with watch := w } := rfl
  rw [h, decay_decay _ hle]

/-- A wait while no row decays leaves the DRAM alone. -/
theorem runOps_wait_dram (s : State) (n : Nat) (hk : s.dram.keptUntil s.params (s.t + n)) :
    (s.runOps (waitOps n)).dram = s.dram := by
  rw [runOps_wait]; dsimp only; split
  · rfl
  · exact decay_eq_self _ _ _ hk

/-! ### The row phase -/

/-- The DRAM after the row phase: the row is latched, and P5 and the setup side of P6 are judged. -/
theorem rowPhase (s : State) (row : Byte) (rh : Option Bit) (v : CtrlValue)
    (hv : v = .rdRow ∨ v = .wrRow ∨ v = .rasOnly)
    (hq : s.ctrl = CtrlValue.default.bits)
    (hU : s.untouched (storesOf s.params s.t ([.stAddr row] ++ a8Ops rh))) :
    (s.runOps ([.stAddr row] ++ a8Ops rh ++ [.stCtrl v])).dram = { s.dram.decay s.params (rasAt s rh) with
      rlat := some ⟨rowOf s row rh, rasAt s rh⟩
      watch := { s.dram.watch with
        addrAt := some (s.t + s.params.cSt)
        a8At := rowA8At s rh
        weFall := if v = .wrRow then some (rasAt s rh) else none
        cas := none, viol := rowBreaks s rh } } := by
  have he (τ : Nat) (d : Dram) (a : Byte) (b c : Bit) : Dram.edges s.params τ CtrlValue.default.bits v.bits a b c d =
     if v = .wrRow then (d.rasFall s.params τ true a b).weFall τ else d.rasFall s.params τ true a b := by
    rcases hv with rfl | rfl | rfl <;> rfl
  cases rh with
  | none =>
    have e1 : s.t + s.params.cSt + s.params.cSt = rasAt s none := by simp only [rasAt, present]; omega
    have hu (c) (hc : c ∈ s.dram.watch.pend) : c.hitBy s.params ⟨.addr, s.t + s.params.cSt⟩ = false :=
      hU c hc _ (by simp [storesOf, a8Ops, MicroOp.pinLine, MicroOp.cycles])
    simp only [a8Ops, List.append_nil, List.cons_append, List.nil_append, runOps_cons, runOps_nil, State.perform,
      State.effect, advance_dram, stCtrl_dram, stAddr_dram, advance_t, stAddr_t, advance_params, stAddr_params,
      advance_ctrl, stAddr_ctrl, advance_addr, stAddr_addr, advance_a8, stAddr_a8, advance_din, stAddr_din, hq, he, e1]
    rw [addrStore_unhit _ _ (s.dram.decay _ _) hu, decay_watch_decay _ (by rw [← e1]; omega)]
    rcases hv with rfl | rfl | rfl <;>
    simp [Dram.rasFall, Dram.weFall, prechargeShort, addressUnstable, rowOf, a8After, rowBreaks, rowA8At, Bool.or_assoc]
  | some b =>
    have e1 : s.t + s.params.cSt + s.params.cA8 + s.params.cSt = rasAt s (some b) := by
      simp only [rasAt, present]; omega
    have hu (c) (hc : c ∈ s.dram.watch.pend) : c.hitBy s.params ⟨.addr, s.t + s.params.cSt⟩ = false :=
      hU c hc _ (by simp [storesOf, a8Ops, MicroOp.pinLine, MicroOp.cycles])
    have hu' (c) (hc : c ∈ s.dram.watch.pend) : c.hitBy s.params ⟨.a8, s.t + s.params.cSt + s.params.cA8⟩ = false :=
      hU c hc _ (by simp [storesOf, a8Ops, MicroOp.pinLine, MicroOp.cycles])
    simp only [a8Ops, List.cons_append, List.nil_append, runOps_cons, runOps_nil, State.perform,
      State.effect, advance_dram, stCtrl_dram, stAddr_dram, advance_t, stAddr_t, advance_params, stAddr_params,
      advance_ctrl, stAddr_ctrl, advance_addr, stAddr_addr, advance_a8, advance_din, stAddr_din, hq, he, e1,
      stA8_dram, stA8_t, stA8_params, stA8_ctrl, stA8_addr, stA8_a8, stA8_din]
    rw [addrStore_unhit _ _ (s.dram.decay _ _) hu, decay_watch_decay _ (by omega), a8Store_unhit]
    · rw [decay_watch_decay _ (by rw [← e1]; omega)]
      rcases hv with rfl | rfl | rfl <;>
      simp [Dram.rasFall, Dram.weFall, prechargeShort, addressUnstable, rowOf, a8After, rowBreaks, rowA8At,
        Bool.or_assoc]
    · exact hu'

/-- The driver after the row phase. -/
theorem rowPhase_driver (s : State) (row : Byte) (rh : Option Bit) (v : CtrlValue) :
    let s1 := s.runOps ([.stAddr row] ++ a8Ops rh ++ [.stCtrl v])
    s1.addr = row ∧ s1.a8 = a8After rh s.a8 ∧ s1.ctrl = v.bits ∧ s1.din = s.din ∧ s1.t = rasAt s rh
    ∧ s1.params = s.params ∧ s1.draws = s.draws ∧ s1.doutReset = s.doutReset := by
  cases rh <;> simp [a8Ops, State.perform, State.effect, a8After, present, rasAt] <;> omega

/-! ### Lists, their stores and their length -/

theorem opsCycles_append (p : Params) (as bs : List MicroOp) :
    opsCycles p (as ++ bs) = opsCycles p as + opsCycles p bs := by
  induction as with
  | nil => simp [opsCycles]
  | cons m ms ih => simp [opsCycles, ih, Nat.add_assoc]

theorem opsCycles_wait (p : Params) (n : Nat) : opsCycles p (waitOps n) = n := by
  induction n with
  | zero => rfl
  | succ n ih =>
    have h : opsCycles p (waitOps (n + 1)) = 1 + opsCycles p (waitOps n) := rfl
    omega

theorem storesOf_append (p : Params) (t : Nat) (as bs : List MicroOp) :
    storesOf p t (as ++ bs) = storesOf p t as ++ storesOf p (t + opsCycles p as) bs := by
  induction as generalizing t with
  | nil => simp [storesOf, opsCycles]
  | cons m ms ih => simp [storesOf, opsCycles, ih, Nat.add_assoc]

theorem storesOf_wait (p : Params) (t n : Nat) : storesOf p t (waitOps n) = [] := by
  induction n generalizing t with
  | zero => rfl
  | succ n ih =>
    have h : storesOf p t (waitOps (n + 1)) = storesOf p (t + 1) (waitOps n) := rfl
    rw [h, ih]

/-! ### The column phase -/

/-- The driver after the column phase, which begins `n` cycles after `s`. -/
theorem colPhase_driver (s : State) (n : Nat) (col : Byte) (ch : Option Bit) (v : CtrlValue) :
    let s1 := s.runOps (waitOps n ++ [.stAddr col] ++ a8Ops ch ++ [.stCtrl v])
    s1.addr = col ∧ s1.a8 = a8After ch s.a8 ∧ s1.ctrl = v.bits ∧ s1.din = s.din
        ∧ s1.t = s.t + n + s.params.cSt + s.params.cSt + present ch * s.params.cA8
    ∧ s1.params = s.params ∧ s1.draws = s.draws ∧ s1.doutReset = s.doutReset := by
  cases ch <;> simp [a8Ops, State.perform, State.effect, a8After, present, runOps_wait] <;> omega

/-- What the predicates know when CAS is about to fall: the hold side of P6 is judged at the column's stores. -/
def colWatch (s : State) (n : Nat) (ch : Option Bit) : Watch :=
  let τ2 := s.t + n + s.params.cSt
  { s.dram.watch with
    addrAt := some τ2
    a8At := if ch.isSome then some (τ2 + s.params.cA8) else s.dram.watch.a8At
    viol := s.dram.watch.viol || inHold s.params τ2 s.t s.params.tRah
      || (decide (s.params.kind = .dram256K) && ch.isSome && inHold s.params (τ2 + s.params.cA8) s.t s.params.tRah) }

/-- The DRAM through the column phase, up to the edges of its CTRL store, the row having been latched at `s.t`. -/
theorem colPhase (s : State) (n : Nat) (col : Byte) (ch : Option Bit) (v : CtrlValue) (row : Index)
    (hr : s.dram.rlat = some ⟨row, s.t⟩) (hcas : s.dram.watch.cas = none)
    (hU : s.untouched (storesOf s.params (s.t + n) ([.stAddr col] ++ a8Ops ch))) :
    let τC := s.t + n + s.params.cSt + s.params.cSt + present ch * s.params.cA8
    (s.runOps (waitOps n ++ [.stAddr col] ++ a8Ops ch ++ [.stCtrl v])).dram =
      Dram.edges s.params τC s.ctrl v.bits col (a8After ch s.a8) s.din
        { s.dram.decay s.params τC with watch := colWatch s n ch } := by
  intro τC
  have ht : (s.runOps (waitOps n)).t = s.t + n := by rw [runOps_wait]
  have hpp : (s.runOps (waitOps n)).params = s.params := by rw [runOps_wait]
  have hcc : (s.runOps (waitOps n)).ctrl = s.ctrl := by rw [runOps_wait]
  have ha : (s.runOps (waitOps n)).a8 = s.a8 := by rw [runOps_wait]
  have hd : (s.runOps (waitOps n)).din = s.din := by rw [runOps_wait]
  have hu (c) (hc : c ∈ s.dram.watch.pend) : c.hitBy s.params ⟨.addr, s.t + n + s.params.cSt⟩ = false :=
    hU c hc _ (by simp [storesOf, MicroOp.pinLine, MicroOp.cycles])
  rw [runOps_append, runOps_append, runOps_append]
  generalize hw : (s.runOps (waitOps n)) = sw at *
  have hdec := wait_decay s n (τ := s.t + n + s.params.cSt) (by omega)
  rw [hw] at hdec
  cases ch with
  | none =>
    have e1 : s.t + n + s.params.cSt + s.params.cSt = τC := by simp [τC, present]
    simp only [a8Ops, runOps_cons, runOps_nil, State.perform,
      State.effect, advance_dram, stCtrl_dram, stAddr_dram, advance_t, stAddr_t, advance_params, stAddr_params,
      advance_ctrl, stAddr_ctrl, advance_addr, stAddr_addr, advance_a8, stAddr_a8, advance_din, stAddr_din,
      ht, hpp, hcc, ha, hd, hdec, e1]
    rw [addrStore_unhit _ _ (s.dram.decay _ _) hu, decay_watch_decay _ (by rw [← e1]; omega)]
    simp [Dram.hitNow, hr, PinStore.hits, addressHoldHit, hcas, colWatch, a8After]
  | some b =>
    have e1 : s.t + n + s.params.cSt + s.params.cA8 + s.params.cSt = τC := by simp only [τC, present]; omega
    have hu' (c) (hc : c ∈ s.dram.watch.pend) : c.hitBy s.params ⟨.a8, s.t + n + s.params.cSt + s.params.cA8⟩ = false :=
      hU c hc _ (by simp [storesOf, a8Ops, MicroOp.pinLine, MicroOp.cycles])
    simp only [a8Ops, runOps_cons, runOps_nil, State.perform,
      State.effect, advance_dram, stCtrl_dram, stAddr_dram, advance_t, stAddr_t, advance_params, stAddr_params,
      advance_ctrl, stAddr_ctrl, advance_addr, stAddr_addr, advance_a8, advance_din, stAddr_din,
      stA8_dram, stA8_t, stA8_params, stA8_ctrl, stA8_addr, stA8_a8, stA8_din, ht, hpp, hcc, hd, hdec, e1]
    rw [addrStore_unhit _ _ (s.dram.decay _ _) hu, decay_watch_decay _ (by omega), a8Store_unhit]
    · rw [decay_watch_decay _ (by rw [← e1]; omega)]
      simp [Dram.hitNow, hr, PinStore.hits, addressHoldHit, hcas, colWatch, a8After]
    · exact hu'

/-- The CTRL value of the row phase (R77, R79). -/
def rowValue : CasMode → CtrlValue
  | .read => .rdRow
  | .write => .wrRow

/-- The CTRL value of the column phase (R77, R79). -/
def colValue : CasMode → CtrlValue
  | .read => .rdCol
  | .write => .wrCol

/-- The micro-operations of a data cycle up to its CAS fall (R77, R79). -/
def toCas (p : Params) (mode : CasMode) (row col : Byte) (rh ch : Option Bit) : List MicroOp :=
  [.stAddr row] ++ a8Ops rh ++ [.stCtrl (rowValue mode)] ++ waitOps p.dRcd ++ [.stAddr col] ++ a8Ops ch
    ++ [.stCtrl (colValue mode)]

/-- What a data cycle has broken by its CAS fall (P1, P5-P9, R47). -/
def brokenAtCas (s : State) (mode : CasMode) (rh ch : Option Bit) : Bool :=
  rowBreaks s rh || colBreaks s rh ch || decide (s.dram.wake < s.params.nWake) || match mode with
    | .read => false
    | .write => writeBreaks s rh ch

/-- What the predicates know after the CAS fall of a data cycle that began in `s`. -/
def casWatch (s : State) (mode : CasMode) (rh ch : Option Bit) : Watch :=
  { s.dram.watch with
    addrAt := some (colAt s rh)
    a8At := colA8At s rh ch
    weFall := if mode = .write then some (rasAt s rh) else none
    cas := some (casAt s rh ch, mode)
    viol := brokenAtCas s mode rh ch }

/-- The DRAM after the CAS fall of a data cycle that began in `s` (R41, R42). -/
def casDram (s : State) (mode : CasMode) (row col : Byte) (rh ch : Option Bit) : Dram :=
  let d := s.dram.decay s.params (casAt s rh ch)
  { d with
    rlat := some ⟨rowOf s row rh, rasAt s rh⟩
    clat := some ⟨colOf s col rh ch, casAt s rh ch, mode⟩
    cells := match mode with
      | .read => d.cells
      | .write => Memory.write (cellOf s row col rh ch) (writtenBit s.din s.dram.watch) d.cells
    drives := match mode with
      | .read => d.drives ++ driveOf s.params.kind (casAt s rh ch) (rowOf s row rh) (colOf s col rh ch) d
      | .write => d.drives
    watch := casWatch s mode rh ch }

/-- A read's CAS fall while a row is latched (R42), whatever it breaks. -/
theorem casFall_read (p : Params) (τ : Nat) (addr : Byte) (a8 din : Bit) (d : Dram) (r : RowLatch)
    (hr : d.rlat = some r) :
    d.casFall p τ false true addr a8 din = { d with
      clat := some ⟨indexOf p.kind addr a8, τ, .read⟩
      drives := d.drives ++ driveOf p.kind τ r.row (indexOf p.kind addr a8) d
      watch := { d.watch with
        viol := d.watch.viol || casFallBreaks p τ r.rfall .read d
        cas := some (τ, .read) } } := by
  cases d
  subst hr
  rfl

/-- A write's CAS fall while a row is latched (R41), whatever it breaks. -/
theorem casFall_write (p : Params) (τ : Nat) (addr : Byte) (a8 din : Bit) (d : Dram) (r : RowLatch)
    (hr : d.rlat = some r) :
    d.casFall p τ false false addr a8 din = { d with
      clat := some ⟨indexOf p.kind addr a8, τ, .write⟩
      cells := Memory.write (cellNo p.kind r.row (indexOf p.kind addr a8)) (writtenBit din d.watch) d.cells
      watch := { d.watch with
        viol := d.watch.viol || casFallBreaks p τ r.rfall .write d
        cas := some (τ, .write) } } := by
  cases d
  subst hr
  rfl

/-- A data cycle up to its CAS fall (R78, R80), whatever it breaks. -/
theorem runOps_toCas (s : State) (mode : CasMode) (row col : Byte) (rh ch : Option Bit)
    (hq : s.ctrl = CtrlValue.default.bits)
    (hU : s.untouched (storesOf s.params s.t (toCas s.params mode row col rh ch))) :
    let s2 := s.runOps (toCas s.params mode row col rh ch)
    s2.ctrl = (colValue mode).bits ∧ s2.t = casAt s rh ch ∧ s2.params = s.params ∧ s2.draws = s.draws
      ∧ s2.doutReset = s.doutReset ∧ s2.dram = casDram s mode row col rh ch := by
  obtain ⟨f1, f2, f3, f4, f5, f6, f7, f8⟩ := rowPhase_driver s row rh (rowValue mode)
  have hsub1 : ∀ e ∈ storesOf s.params s.t ([.stAddr row] ++ a8Ops rh),
      e ∈ storesOf s.params s.t (toCas s.params mode row col rh ch) := by
    intro e he
    have h : toCas s.params mode row col rh ch = ([.stAddr row] ++ a8Ops rh) ++ ([.stCtrl (rowValue mode)]
        ++ waitOps s.params.dRcd ++ [.stAddr col] ++ a8Ops ch ++ [.stCtrl (colValue mode)]) := by simp [toCas]
    rw [h, storesOf_append]
    exact List.mem_append.2 (.inl he)
  have hR := rowPhase s row rh (rowValue mode) (by cases mode <;> simp [rowValue]) hq
    (fun c hc e he => hU c hc e (hsub1 e he))
  have happ : s.runOps (toCas s.params mode row col rh ch) =
     (s.runOps ([.stAddr row] ++ a8Ops rh ++ [.stCtrl (rowValue mode)])).runOps
      (waitOps s.params.dRcd ++ [.stAddr col] ++ a8Ops ch ++ [.stCtrl (colValue mode)]) := by
    simp only [toCas, runOps_append]
  have hsub2 : ∀ e ∈ storesOf s.params (rasAt s rh + s.params.dRcd) ([.stAddr col] ++ a8Ops ch),
      e ∈ storesOf s.params s.t (toCas s.params mode row col rh ch) := by
    intro e he
    have ht : s.t + opsCycles s.params ([.stAddr row] ++ a8Ops rh ++ [.stCtrl (rowValue mode)] ++ waitOps s.params.dRcd)
        = rasAt s rh + s.params.dRcd := by
      cases rh <;> simp [opsCycles_wait, a8Ops, opsCycles, MicroOp.cycles, rasAt, present] <;> omega
    have : toCas s.params mode row col rh ch
        = ([.stAddr row] ++ a8Ops rh ++ [.stCtrl (rowValue mode)] ++ waitOps s.params.dRcd)
          ++ (([.stAddr col] ++ a8Ops ch) ++ [.stCtrl (colValue mode)]) := by simp [toCas]
    rw [this, storesOf_append, ht, storesOf_append _ _ (([MicroOp.stAddr col] : List MicroOp) ++ a8Ops ch)]
    exact List.mem_append.2 (.inr (List.mem_append.2 (.inl he)))
  simp only [happ]
  generalize hs1 : s.runOps ([.stAddr row] ++ a8Ops rh ++ [.stCtrl (rowValue mode)]) = s1 at *
  have hrl : s1.dram.rlat = some ⟨rowOf s row rh, s1.t⟩ := by rw [hR, f5]
  have hC := colPhase s1 s.params.dRcd col ch (colValue mode) (rowOf s row rh) hrl (by rw [hR])
    (by rw [f6, f5]; intro c hc e he
        have h := hU c (by rw [hR] at hc; exact hc) e (hsub2 e he)
        rw [f6]; exact h)
  obtain ⟨g1, g2, g3, g4, g5, g6, g7, g8⟩ := colPhase_driver s1 s.params.dRcd col ch (colValue mode)
  have eC : s1.t + s.params.dRcd + s.params.cSt + s.params.cSt + present ch * s.params.cA8 = casAt s rh ch := by
    rw [f5]; simp only [casAt, colAt]
  simp only [f6, f3, f2, f4, eC] at hC g5 g6
  refine ⟨g3, g5, g6, by rw [g7, f7], by rw [g8, f8], ?_⟩
  have eD : s1.dram.decay s.params (casAt s rh ch) = { s.dram.decay s.params (casAt s rh ch) with
      rlat := s1.dram.rlat, watch := s1.dram.watch } := by
    rw [hR]
    have h : ∀ (r : Option RowLatch) (w : Watch), ({ s.dram.decay s.params (rasAt s rh) with rlat := r, watch := w }
        : Dram).decay s.params (casAt s rh ch) = { (s.dram.decay s.params (rasAt s rh)).decay s.params (casAt s rh ch) with
          rlat := r, watch := w } := fun _ _ => rfl
    rw [h, decay_decay _ (by simp only [casAt, colAt]; omega)]
  have hcol : indexOf s.params.kind col (a8After ch (a8After rh s.a8)) = colOf s col rh ch := rfl
  have hw : colWatch s1 s.params.dRcd ch = { s.dram.watch with
      addrAt := some (colAt s rh)
      a8At := colA8At s rh ch
      weFall := if rowValue mode = .wrRow then some (rasAt s rh) else none
      cas := none
      viol := rowBreaks s rh || inHold s.params (colAt s rh) (rasAt s rh) s.params.tRah
        || (decide (s.params.kind = .dram256K) && ch.isSome
          && inHold s.params (colAt s rh + s.params.cA8) (rasAt s rh) s.params.tRah) } := by
    simp only [colWatch, f6, hR, f5, colA8At, colAt]
  rw [hC, eD, hw, hrl, f5]
  cases mode with
  | read =>
    have he (τ : Nat) (d : Dram) (a : Byte) (b c : Bit) : Dram.edges s.params τ (rowValue .read).bits (colValue
        .read).bits a b c d = d.casFall s.params τ false true a b c := rfl
    rw [he, casFall_read _ _ _ _ _ _ ⟨rowOf s row rh, rasAt s rh⟩ rfl, hcol]
    simp only [casDram, casWatch]
    congr 2
    simp only [brokenAtCas, colBreaks, casFallBreaks, addressUnstable, decay_wake, Option.isSome_none, Bool.or_false]
    ac_rfl
  | write =>
    have he (τ : Nat) (d : Dram) (a : Byte) (b c : Bit) : Dram.edges s.params τ (rowValue .write).bits (colValue
        .write).bits a b c d = d.casFall s.params τ false false a b c := rfl
    rw [he, casFall_write _ _ _ _ _ _ ⟨rowOf s row rh, rasAt s rh⟩ rfl, hcol]
    simp only [casDram, casWatch]
    congr 2
    simp only [brokenAtCas, colBreaks, casFallBreaks, addressUnstable, decay_wake, Option.isSome_none, Bool.or_false,
      writeBreaks, weSetupShort, rowValue, if_true]
    ac_rfl

/-! ### The end of a cycle -/

/-- A RAS rise that ends a cycle in violation (R48). -/
theorem rasRise_broken (p : Params) (τ : Nat) (d : Dram) (r : RowLatch) (hr : d.rlat = some r)
    (hv : (d.watch.viol || inHold p τ r.rfall p.tRas) = true) :
    d.rasRise p τ = { d with
      cells := []
      rlat := none
      drives := d.drives.filter (fun v => decide (v.cfall < r.rfall))
      watch := { d.watch with weFall := none, cas := none, prevRise := some τ, viol := false } } := by
  cases d
  subst hr
  simp only [Dram.rasRise, Dram.flag, hv, if_true]
  rfl

/-- A cycle's remains, should a store still fall into its hold windows. -/
def pastOf (p : Params) (τ : Nat) (r : RowLatch) (d : Dram) : Past :=
  ⟨refRow r.row, r.rfall, d.watch.cas, τ, atLeast p r.rfall p.tPwr, Sparse.get (refRow r.row) d.lastref⟩

/-- A RAS rise that ends a cycle well (R44). -/
theorem rasRise_well (p : Params) (τ : Nat) (d : Dram) (r : RowLatch) (hr : d.rlat = some r)
    (hv : (d.watch.viol || inHold p τ r.rfall p.tRas) = false) :
    d.rasRise p τ = { d with
      rlat := none
      lastref := if atLeast p r.rfall p.tPwr then Sparse.put (refRow r.row) τ d.lastref else d.lastref
      wake := if atLeast p r.rfall p.tPwr then d.wake + 1 else d.wake
      watch := { d.watch with
        weFall := none, cas := none, prevRise := some τ, viol := false
        pend := (pastOf p τ r d :: d.watch.pend).filter (Past.openAt p τ) } } := by
  have ht : atLeast p (τ - r.rfall) p.tRas = true := by
    have := (Bool.or_eq_false_iff.1 hv).2
    simpa [inHold] using this
  cases d
  subst hr
  simp only [Dram.rasRise, Dram.flag, hv, Bool.false_eq_true, if_false, Dram.endWell, ht, Bool.true_and]
  rfl

/-- The DRAM with CAS high again from `τ` on, `b` being broken then (R43). -/
def casClosed (τ : Nat) (b : Bool) (d : Dram) : Dram :=
  { d with
    clat := none
    drives := d.drives.map (Drive.close τ)
    watch := { d.watch with viol := d.watch.viol || b } }

/-- What is judged when a data cycle's lines go back to idle, but for P4 (P3, P8). -/
def endBreaks (p : Params) (τ c : Nat) : CasMode → Bool
  | .read => inHold p τ c p.tCas
  | .write => inHold p τ c p.tWch || inHold p τ c p.tCas

/-- The CTRL store that ends a data cycle (R43, R44). -/
theorem dataEnd_edges (p : Params) (τ : Nat) (mode : CasMode) (a : Byte) (b x : Bit) (d : Dram) (r : RowLatch) (c : Nat)
    (hr : d.rlat = some r) (hc : d.watch.cas = some (c, mode)) (hw : mode = .write → d.watch.weFall.isSome = true) :
    d.edges p τ (colValue mode).bits CtrlValue.default.bits a b x
      = (casClosed τ (endBreaks p τ c mode) d).rasRise p τ := by
  cases mode with
  | read =>
    have he : d.edges p τ (colValue .read).bits CtrlValue.default.bits a b x = (d.casRise p τ).rasRise p τ := rfl
    rw [he]; congr 1
    simp [Dram.casRise, casClosed, endBreaks, Dram.flag, hr, hc]
  | write =>
    have he : d.edges p τ (colValue .write).bits CtrlValue.default.bits a b x
      = ((d.weRise p τ).casRise p τ).rasRise p τ := rfl
    rw [he]; congr 1
    simp [Dram.casRise, Dram.weRise, casClosed, endBreaks, Dram.flag, hr, hc, hw rfl, Bool.or_assoc]

/-- A data cycle begins in `s` and reaches its CAS fall broken or not; a decay that follows looks at the cells and the
credits only. -/
theorem casDram_decay (s : State) (mode : CasMode) (row col : Byte) (rh ch : Option Bit) (τ : Nat) :
    ((casDram s mode row col rh ch).decay s.params τ).rlat = some ⟨rowOf s row rh, rasAt s rh⟩
      ∧ ((casDram s mode row col rh ch).decay s.params τ).watch = casWatch s mode rh ch := ⟨rfl, rfl⟩

/-- What P2 finds at the sample of a READ (P2, R70). -/
def sampleBreaks (s : State) (rh ch : Option Bit) : Bool :=
  let τC := casAt s rh ch
  decide (s.params.dCac < s.params.lIn) || inHold s.params (τC + s.params.dCac - s.params.lIn) τC s.params.tCac

theorem casAt_le (s : State) (rh ch : Option Bit) : s.t ≤ rasAt s rh ∧ rasAt s rh ≤ colAt s rh
    ∧ colAt s rh ≤ casAt s rh ch := by
  simp only [casAt, colAt, rasAt]; omega

theorem opCycles_read (s : State) (row col : Byte) (rh ch : Option Bit) :
    s.t + opCycles s.params (.read row col rh ch)
      = casAt s rh ch + s.params.dCac + s.params.cIn + s.params.cSt := by
  simp only [opCycles, casAt, colAt, rasAt, Nat.add_mul]; omega

theorem opCycles_write (s : State) (row col : Byte) (rh ch : Option Bit) :
    s.t + opCycles s.params (.write row col rh ch) = casAt s rh ch + s.params.dCas + s.params.cSt := by
  simp only [opCycles, casAt, colAt, rasAt, Nat.add_mul]; omega

theorem readOps_eq (p : Params) (row col : Byte) (rh ch : Option Bit) :
    readOps p row col rh ch = toCas p .read row col rh ch ++ (waitOps p.dCac ++ [.sample, .stCtrl .default]) := by
  simp [readOps, toCas, rowValue, colValue]

theorem writeOps_eq (p : Params) (row col : Byte) (rh ch : Option Bit) :
    writeOps p row col rh ch = toCas p .write row col rh ch ++ (waitOps p.dCas ++ [.stCtrl .default]) := by
  simp [writeOps, toCas, rowValue, colValue]

/-- A READ's pin stores all come before its CAS fall. -/
theorem storesOf_readOps (p : Params) (t : Nat) (row col : Byte) (rh ch : Option Bit) :
    storesOf p t (readOps p row col rh ch) = storesOf p t (toCas p .read row col rh ch) := by
  rw [readOps_eq, storesOf_append, storesOf_append, storesOf_wait]
  simp [storesOf, MicroOp.pinLine]

/-- A WRITE's pin stores all come before its CAS fall. -/
theorem storesOf_writeOps (p : Params) (t : Nat) (row col : Byte) (rh ch : Option Bit) :
    storesOf p t (writeOps p row col rh ch) = storesOf p t (toCas p .write row col rh ch) := by
  rw [writeOps_eq, storesOf_append, storesOf_append, storesOf_wait]
  simp [storesOf, MicroOp.pinLine]

/-- A sample is judged against the CAS fall of the cycle in progress (P2). -/
theorem judgeSample_data (p : Params) (pin : Int) (d : Dram) (r : RowLatch) (c : Nat) (mode : CasMode)
    (hr : d.rlat = some r) (hc : d.watch.cas = some (c, mode)) :
    d.judgeSample p pin = d.flag (decide (pin < c) || inHold p pin.toNat c p.tCac) := by
  simp [Dram.judgeSample, hr, hc]

/-- The DRAM a READ leaves (R42-R44, R48), whatever it breaks. -/
theorem runOps_read (s : State) (row col : Byte) (rh ch : Option Bit) (hq : s.ctrl = CtrlValue.default.bits)
    (hU : s.untouched (s.ownStores (.read row col rh ch))) :
    let τE := s.t + opCycles s.params (.read row col rh ch)
    (s.runOps (readOps s.params row col rh ch)).dram
      = (casClosed τE (sampleBreaks s rh ch || inHold s.params τE (casAt s rh ch) s.params.tCas)
          ((casDram s .read row col rh ch).decay s.params τE)).rasRise s.params τE := by
  intro τE
  obtain ⟨g3, g5, g6, g7, g8, hd⟩ := runOps_toCas s .read row col rh ch hq (by
    rw [← storesOf_readOps]; exact hU)
  rw [readOps_eq, runOps_append]
  generalize hs2 : s.runOps (toCas s.params .read row col rh ch) = s2 at *
  have hw := wait_decay s2 s.params.dCac (τ := s2.t + s.params.dCac + s.params.cIn) (by omega)
  rw [runOps_append]
  have ht : (s2.runOps (waitOps s.params.dCac)).t = s2.t + s.params.dCac := by rw [runOps_wait]
  have hpp : (s2.runOps (waitOps s.params.dCac)).params = s.params := by rw [runOps_wait]; exact g6
  have hcc : (s2.runOps (waitOps s.params.dCac)).ctrl = (colValue .read).bits := by rw [runOps_wait]; exact g3
  have hrl : (s2.runOps (waitOps s.params.dCac)).dram.rlat = some ⟨rowOf s row rh, rasAt s rh⟩ := by
    rw [runOps_wait]; dsimp only; split <;> rw [← show s2.dram.rlat = some ⟨rowOf s row rh, rasAt s rh⟩ by rw [hd]; rfl] <;> rfl
  have hww : (s2.runOps (waitOps s.params.dCac)).dram.watch = casWatch s .read rh ch := by
    rw [runOps_wait]; dsimp only; split <;> rw [← show s2.dram.watch = casWatch s .read rh ch by rw [hd]; rfl] <;> rfl
  rw [g6] at hw
  generalize s2.runOps (waitOps s.params.dCac) = s3 at *
  have eτ : s2.t + s.params.dCac + s.params.cIn + s.params.cSt = τE := by rw [g5, ← opCycles_read s row col]
  simp only [runOps_cons, runOps_nil, State.perform, State.effect, advance_dram, stCtrl_dram, advance_t, sample_t,
    sample_params, advance_params, advance_ctrl, sample_ctrl, sample_dram, ht, hpp, hcc, eτ]
  have hjd (b : Bool) (τ τ' : Nat) (hle : τ ≤ τ') (d : Dram) : ((d.flag b).decay s.params τ).decay s.params τ'
      = ((d.decay s.params τ).decay s.params τ').flag b := rfl
  have hp : s3.pin = (casAt s rh ch : Int) + s.params.dCac - s.params.lIn := by
    simp only [State.pin, ht, hpp, g5]; omega
  have e1 : decide (s3.pin < (casAt s rh ch : Int)) = decide (s.params.dCac < s.params.lIn) := by
    rw [hp]; exact decide_eq_decide.2 (by omega)
  have e2 : s3.pin.toNat = casAt s rh ch + s.params.dCac - s.params.lIn := by rw [hp]; omega
  rw [judgeSample_data _ _ _ _ _ .read hrl (by rw [hww]; rfl), hjd _ _ _ (by rw [← eτ]; omega), hw,
    decay_decay _ (by rw [← eτ]; omega), hd, e1, e2]
  rw [dataEnd_edges _ _ .read _ _ _ _ ⟨rowOf s row rh, rasAt s rh⟩ (casAt s rh ch) rfl rfl (by simp)]
  refine congrArg (Dram.rasRise s.params τE) ?_
  simp only [casClosed, Dram.flag, endBreaks, sampleBreaks, Bool.or_assoc]

/-- The DRAM a WRITE leaves (R41, R43, R44, R48), whatever it breaks. -/
theorem runOps_write (s : State) (row col : Byte) (rh ch : Option Bit) (hq : s.ctrl = CtrlValue.default.bits)
    (hU : s.untouched (s.ownStores (.write row col rh ch))) :
    let τE := s.t + opCycles s.params (.write row col rh ch)
    (s.runOps (writeOps s.params row col rh ch)).dram
      = (casClosed τE (inHold s.params τE (casAt s rh ch) s.params.tWch || inHold s.params τE (casAt s rh ch) s.params.tCas)
          ((casDram s .write row col rh ch).decay s.params τE)).rasRise s.params τE := by
  intro τE
  obtain ⟨g3, g5, g6, g7, g8, hd⟩ := runOps_toCas s .write row col rh ch hq (by
    rw [← storesOf_writeOps]; exact hU)
  rw [writeOps_eq, runOps_append]
  generalize hs2 : s.runOps (toCas s.params .write row col rh ch) = s2 at *
  have hw := wait_decay s2 s.params.dCas (τ := s2.t + s.params.dCas + s.params.cSt) (by omega)
  rw [runOps_append]
  have ht : (s2.runOps (waitOps s.params.dCas)).t = s2.t + s.params.dCas := by rw [runOps_wait]
  have hpp : (s2.runOps (waitOps s.params.dCas)).params = s.params := by rw [runOps_wait]; exact g6
  have hcc : (s2.runOps (waitOps s.params.dCas)).ctrl = (colValue .write).bits := by rw [runOps_wait]; exact g3
  rw [g6] at hw
  generalize s2.runOps (waitOps s.params.dCas) = s3 at *
  have eτ : s2.t + s.params.dCas + s.params.cSt = τE := by rw [g5, ← opCycles_write s row col]
  simp only [runOps_cons, runOps_nil, State.perform, State.effect, advance_dram, stCtrl_dram, ht, hpp, hcc]
  rw [hw, eτ, hd]
  rw [dataEnd_edges _ _ .write _ _ _ _ ⟨rowOf s row rh, rasAt s rh⟩ (casAt s rh ch) rfl rfl (by
    intro _; rfl)]
  rfl

/-- The DRAM a RAS-only cycle leaves (R44, R48), whatever it breaks. -/
theorem runOps_rasOnly (s : State) (row : Byte) (rh : Option Bit) (hq : s.ctrl = CtrlValue.default.bits)
    (hU : s.untouched (storesOf s.params s.t ([.stAddr row] ++ a8Ops rh))) :
    let τE := rasAt s rh + s.params.dRas + s.params.cSt
    (s.runOps ([.stAddr row] ++ a8Ops rh ++ [.stCtrl .rasOnly] ++ waitOps s.params.dRas ++ [.stCtrl .default])).dram
      = Dram.rasRise s.params τE { s.dram.decay s.params τE with
          rlat := some ⟨rowOf s row rh, rasAt s rh⟩
          watch := { s.dram.watch with
            addrAt := some (s.t + s.params.cSt)
            a8At := rowA8At s rh
            weFall := none, cas := none, viol := rowBreaks s rh } } := by
  intro τE
  obtain ⟨f1, f2, f3, f4, f5, f6, f7, f8⟩ := rowPhase_driver s row rh .rasOnly
  have hR := rowPhase s row rh .rasOnly (by simp) hq hU
  rw [runOps_append, runOps_append]
  generalize s.runOps ([.stAddr row] ++ a8Ops rh ++ [.stCtrl .rasOnly]) = s1 at *
  have hw := wait_decay s1 s.params.dRas (τ := s1.t + s.params.dRas + s.params.cSt) (by omega)
  have ht : (s1.runOps (waitOps s.params.dRas)).t = s1.t + s.params.dRas := by rw [runOps_wait]
  have hpp : (s1.runOps (waitOps s.params.dRas)).params = s.params := by rw [runOps_wait]; exact f6
  have hcc : (s1.runOps (waitOps s.params.dRas)).ctrl = CtrlValue.rasOnly.bits := by rw [runOps_wait]; exact f3
  rw [f6] at hw
  generalize s1.runOps (waitOps s.params.dRas) = s2 at *
  have eτ : s1.t + s.params.dRas + s.params.cSt = τE := by rw [f5]
  simp only [runOps_cons, runOps_nil, State.perform, State.effect, advance_dram, stCtrl_dram, ht, hpp, hcc]
  have he (d : Dram) (a b c) : Dram.edges s.params τE CtrlValue.rasOnly.bits CtrlValue.default.bits a b c d
    = d.rasRise s.params τE := rfl
  rw [hw, eτ, hR, he]
  refine congrArg (Dram.rasRise s.params τE) ?_
  have h : ∀ (r : Option RowLatch) (w : Watch), ({ s.dram.decay s.params (rasAt s rh) with rlat := r, watch := w }
      : Dram).decay s.params τE = { (s.dram.decay s.params (rasAt s rh)).decay s.params τE with
        rlat := r, watch := w } := fun _ _ => rfl
  rw [h, decay_decay _ (by simp only [τE]; omega)]
  rfl

/-! ### What the sample of a READ sees -/

/-- The pin stores to come at the sample of a READ are the host's (R73). -/
theorem coming_at_sample (s : State) (row col : Byte) (rh ch : Option Bit) :
    let i := Instr.read row col rh ch
    (((s.beginOp i).runOps (toCas s.params .read row col rh ch)).runOps (waitOps s.params.dCac)).coming
      = s.laterStores i := by
  intro i
  have hop (l : List MicroOp) (x : State) : (x.runOps l).op = x.op.map (fun o => (o.1, o.2 + l.length)) := by
    induction l generalizing x with
    | nil => simp
    | cons m ms ih => rw [runOps_cons, ih, perform_op]; cases x.op <;> simp; omega
  have hpar (l : List MicroOp) (x : State) : (x.runOps l).params = x.params :=
    runOps_of (P := fun y => y.params = x.params) l x rfl (fun y m _ h => by rw [perform_params, h])
  have hrc (l : List MicroOp) (x : State) : (x.runOps l).rc = x.rc :=
    runOps_of (P := fun y => y.rc = x.rc) l x rfl (fun y m _ h => by rw [perform_rc, h])
  have hhost (l : List MicroOp) (x : State) : (x.runOps l).host = x.host :=
    runOps_of (P := fun y => y.host = x.host) l x rfl (fun y m _ h => by rw [perform_host, h])
  have href (l : List MicroOp) (x : State) : (x.runOps l).refused = x.refused :=
    runOps_of (P := fun y => y.refused = x.refused) l x rfl (fun y m _ h => by rw [perform_refused, h])
  have htime : (((s.beginOp i).runOps (toCas s.params .read row col rh ch)).runOps (waitOps s.params.dCac)).t
      = casAt s rh ch + s.params.dCac := by
    have h1 := rowPhase_driver (s.beginOp i) row rh .rdRow
    have h2 := colPhase_driver ((s.beginOp i).runOps ([.stAddr row] ++ a8Ops rh ++ [.stCtrl .rdRow])) s.params.dRcd col ch .rdCol
    rw [runOps_wait]; dsimp only
    have : toCas s.params .read row col rh ch = ([.stAddr row] ++ a8Ops rh ++ [.stCtrl .rdRow])
      ++ (waitOps s.params.dRcd ++ [.stAddr col] ++ a8Ops ch ++ [.stCtrl .rdCol]) := by simp [toCas, rowValue, colValue]
    rw [this, runOps_append, h2.2.2.2.2.1, h1.2.2.2.2.1, h1.2.2.2.2.2.1]
    rfl
  have hl : (microOps i s.params s.rc).drop ((toCas s.params .read row col rh ch).length + (waitOps s.params.dCac).length)
      = [.sample, .stCtrl .default] := by
    have : microOps i s.params s.rc = (toCas s.params .read row col rh ch ++ waitOps s.params.dCac) ++ [.sample, .stCtrl .default] := by
      simp only [microOps, i]; rw [readOps_eq, List.append_assoc]
    rw [this, ← List.length_append, List.drop_left]
  simp only [State.coming, htime, hop, hpar, hrc, hhost, href, beginOp_op, Option.map_some, beginOp_params, beginOp_rc,
    beginOp_host, beginOp_refused, Nat.zero_add, hl, State.laterStores]
  have e1 : storesOf s.params (casAt s rh ch + s.params.dCac) [.sample, .stCtrl .default] = [] := rfl
  have e2 : casAt s rh ch + s.params.dCac + opsCycles s.params [.sample, .stCtrl .default] = s.t + opCycles s.params i := by
    rw [opCycles_read]; simp only [opsCycles, MicroOp.cycles]; omega
  rw [e1, e2]; rfl

/-- A drive that ended by `t` gives no level from `t` on (R43). -/
theorem covers_of_ended (p : Params) (τ t : Nat) (v : Drive) (hn : ∀ e, v.rise = some e → e ≤ t)
    (hs : v.rise.isSome = true) (h : t ≤ τ) : v.covers p τ = false := by
  obtain ⟨e, he⟩ := Option.isSome_iff_exists.1 hs
  have := hn e he
  simp [Drive.covers, he]; omega

/-- Some store to come puts an ended cycle of `s` in violation. -/
def spoiledLater (s : State) (i : Instr) : Bool :=
  s.dram.watch.pend.any (fun c => (s.laterStores i).any (fun e => c.hitBy s.params e))

/-- The credit of the addressed row, as the drive of a READ remembers it (R46). -/
def readRef (s : State) (row : Byte) (rh ch : Option Bit) : Option Nat :=
  Sparse.get (refRow (rowOf s row rh)) (s.dram.decay s.params (casAt s rh ch)).lastref

/-- That credit has run out when the sample looks (R46). -/
def staleAt (s : State) (row : Byte) (rh ch : Option Bit) : Bool :=
  match readRef s row rh ch with
  | none => false
  | some g => expired s.params (casAt s rh ch + s.params.dCac - s.params.lIn) g

/-- What a single drive makes of the DOUT level. -/
theorem dout_single (p : Params) (τ τE : Nat) (coming : List PinStore) (d : Dram) (v : Drive)
    (hf : d.drives.find? (fun v => v.covers p τ) = if v.covers p τ then some v else none) :
    d.dout p τ τE coming = if v.covers p τ && !d.watch.pend.any (Dram.spoils p coming v)
      && !(d.current v && !d.cycleSound p τE coming) then some v.level else none := by
  unfold Dram.dout
  rw [hf]
  cases v.covers p τ with
  | false => rfl
  | true =>
    simp only [if_true]
    cases d.watch.pend.any (Dram.spoils p coming v) with
    | true => rfl
    | false => cases d.current v <;> cases d.cycleSound p τE coming <;> rfl

/-- The level a READ sees whose sample falls after its begin (R42, R43, R46, R48): that of the addressed cell, and
none where the cell is `?`, the cycle is in violation by its own times, or a store to come puts it or an ended cycle
in violation, or its row's credit has run out. -/
theorem read_level (s : State) (row col : Byte) (rh ch : Option Bit) (hq : s.quiet)
    (hU : s.untouched (s.ownStores (.read row col rh ch)))
    (hpin : s.t + s.params.lIn ≤ casAt s rh ch + s.params.dCac) :
    let i := Instr.read row col rh ch
    (((s.beginOp i).runOps (toCas s.params .read row col rh ch)).runOps (waitOps s.params.dCac)).pinLevel
      = match Memory.read (cellOf s row col rh ch) (s.dram.decay s.params (casAt s rh ch)).cells with
        | none => none
        | some b => if s.breaks i || decide (s.dram.wake < s.params.nWake) || spoiledLater s i
            || (s.laterStores i).any (s.hitBy i)
            || staleAt s row rh ch
          then none else some b := by
  intro i
  have hcom : (((s.beginOp i).runOps (toCas s.params .read row col rh ch)).runOps (waitOps s.params.dCac)).coming
      = s.laterStores i := coming_at_sample s row col rh ch
  obtain ⟨g3, g5, g6, g7, g8, hd⟩ := runOps_toCas (s.beginOp i) .read row col rh ch hq.1 (by
    rw [← storesOf_readOps]; exact hU)
  have hp0 : (s.beginOp i).params = s.params := rfl
  rw [hp0] at g3 g5 g6 g7 g8 hd
  generalize hs2 : (s.beginOp i).runOps (toCas s.params .read row col rh ch) = s2 at *
  have ht : (s2.runOps (waitOps s.params.dCac)).t = s2.t + s.params.dCac := by rw [runOps_wait]
  have hpp : (s2.runOps (waitOps s.params.dCac)).params = s.params := by rw [runOps_wait]; exact g6
  have hrl : (s2.runOps (waitOps s.params.dCac)).dram.rlat = some ⟨rowOf s row rh, rasAt s rh⟩ := by
    rw [runOps_wait]; dsimp only
    split <;> rw [← show s2.dram.rlat = some ⟨rowOf s row rh, rasAt s rh⟩ by rw [hd]; rfl] <;> rfl
  have hww : (s2.runOps (waitOps s.params.dCac)).dram.watch = casWatch s .read rh ch := by
    rw [runOps_wait]; dsimp only
    split <;> rw [← show s2.dram.watch = casWatch s .read rh ch by rw [hd]; rfl] <;> rfl
  have hdr : (s2.runOps (waitOps s.params.dCac)).dram.drives = s.dram.drives ++ driveOf s.params.kind (casAt s rh ch)
      (rowOf s row rh) (colOf s col rh ch) (s.dram.decay s.params (casAt s rh ch)) := by
    rw [runOps_wait]; dsimp only
    split
    · rw [hd]; rfl
    · rw [decay_drives, hd]; rfl
  generalize s2.runOps (waitOps s.params.dCac) = s3 at *
  have g5' : s2.t = casAt s rh ch := g5
  have hp : s3.pin = ((casAt s rh ch + s.params.dCac - s.params.lIn : Nat) : Int) := by
    simp only [State.pin, ht, hpp, g5']; omega
  have h0 : ¬ s3.pin < 0 := by rw [hp]; omega
  have e1 : decide (s3.pin < (casAt s rh ch : Int)) = decide (s.params.dCac < s.params.lIn) := by
    rw [hp]; exact decide_eq_decide.2 (by omega)
  have e2 : s3.pin.toNat = casAt s rh ch + s.params.dCac - s.params.lIn := by rw [hp]; rfl
  have e3 : s3.readEnd = s.t + opCycles s.params i := by
    simp only [State.readEnd, ht, hpp, g5', i]; rw [opCycles_read]
  simp only [State.pinLevel, h0, if_false]
  rw [judgeSample_data _ _ _ ⟨rowOf s row rh, rasAt s rh⟩ (casAt s rh ch) .read hrl (by rw [hww]; rfl), hpp, e1, e2, e3,
    hcom]
  have hold : s.dram.drives.find? (fun v => v.covers s.params (casAt s rh ch + s.params.dCac - s.params.lIn)) = none := by
    rw [List.find?_eq_none]
    intro v hv
    rw [covers_of_ended s.params _ s.t v (hq.2.2.drives v hv).2.2 (quiet_drives hq v hv) (by omega)]
    simp
  cases hb : Memory.read (cellOf s row col rh ch) (s.dram.decay s.params (casAt s rh ch)).cells with
  | none =>
    have hn : driveOf s.params.kind (casAt s rh ch) (rowOf s row rh) (colOf s col rh ch)
        (s.dram.decay s.params (casAt s rh ch)) = [] := by
      have h : Memory.read (cellNo s.params.kind (rowOf s row rh) (colOf s col rh ch))
        (s.dram.decay s.params (casAt s rh ch)).cells = none := hb
      simp only [driveOf, h]
    unfold Dram.dout
    rw [flag_drives, hdr, hn, List.append_nil, hold]
  | some b =>
    have hn : driveOf s.params.kind (casAt s rh ch) (rowOf s row rh) (colOf s col rh ch)
        (s.dram.decay s.params (casAt s rh ch)) = [⟨casAt s rh ch, b, readRef s row rh ch, none⟩] := by
      have h : Memory.read (cellNo s.params.kind (rowOf s row rh) (colOf s col rh ch))
        (s.dram.decay s.params (casAt s rh ch)).cells = some b := hb
      simp only [driveOf, h, readRef]
    rw [dout_single _ _ _ _ _ ⟨casAt s rh ch, b, readRef s row rh ch, none⟩ (by
      rw [flag_drives, hdr, hn, List.find?_append, hold, Option.none_or, List.find?_cons, List.find?_nil]
      cases Drive.covers s.params _ ⟨casAt s rh ch, b, readRef s row rh ch, none⟩ <;> rfl)]
    have hspoil : (s3.dram.flag (sampleBreaks s rh ch)).watch.pend.any (Dram.spoils s.params (s.laterStores i)
        ⟨casAt s rh ch, b, readRef s row rh ch, none⟩) = spoiledLater s i := by
      rw [flag_pend, hww]
      simp only [casWatch, spoiledLater]
      rw [Bool.eq_iff_iff, List.any_eq_true, List.any_eq_true]
      constructor
      · rintro ⟨c, hc, h⟩
        exact ⟨c, hc, by simp only [Dram.spoils, Bool.and_eq_true] at h; exact h.2⟩
      · rintro ⟨c, hc, h⟩
        refine ⟨c, hc, ?_⟩
        have h1 := (hq.2.2.pend c hc).2.1
        have h2 := casAt_le s rh ch
        simp only [Dram.spoils, Bool.and_eq_true]
        exact ⟨decide_eq_true (by omega), h⟩
    have hcur : Dram.current (s3.dram.flag (sampleBreaks s rh ch)) ⟨casAt s rh ch, b, readRef s row rh ch, none⟩
        = true := by
      have h2 := casAt_le s rh ch
      simp only [Dram.current, flag_rlat, hrl]
      exact decide_eq_true (by omega)
    have hbreaks : (s.breaks i || decide (s.dram.wake < s.params.nWake)) = (brokenAtCas s .read rh ch
      || sampleBreaks s rh ch || inHold s.params (s.t + opCycles s.params i) (rasAt s rh) s.params.tRas
      || inHold s.params (s.t + opCycles s.params i) (casAt s rh ch) s.params.tCas) := by
      simp only [State.breaks, i, brokenAtCas, sampleBreaks, Bool.or_false]
      ac_rfl
    have hsound : (Dram.cycleSound s.params (s.t + opCycles s.params i) (s.laterStores i)
        (s3.dram.flag (sampleBreaks s rh ch))) = !(s.breaks i || decide (s.dram.wake < s.params.nWake)
          || (s.laterStores i).any (s.hitBy i)) := by
      rw [hbreaks]
      have hh : (s.laterStores i).any (s.hitBy i)
        = (s.laterStores i).any (PinStore.hits s.params (rasAt s rh) (some (casAt s rh ch, .read))) := rfl
      simp only [Dram.cycleSound, flag_viol, flag_rlat, flag_cas, hrl, hww, casWatch, hh]
      generalize brokenAtCas s .read rh ch = x1
      generalize sampleBreaks s rh ch = x2
      generalize (s.laterStores i).any _ = x3
      generalize inHold s.params _ (rasAt s rh) _ = x4
      generalize inHold s.params _ (casAt s rh ch) _ = x5
      revert x1 x2 x3 x4 x5; decide
    have hcov : Drive.covers s.params (casAt s rh ch + s.params.dCac - s.params.lIn)
        ⟨casAt s rh ch, b, readRef s row rh ch, none⟩ = (!sampleBreaks s rh ch && !staleAt s row rh ch) := by
      have h1 : decide (casAt s rh ch ≤ casAt s rh ch + s.params.dCac - s.params.lIn)
        = !decide (s.params.dCac < s.params.lIn) := by
        rw [← decide_not]; exact decide_eq_decide.2 (by omega)
      simp only [Drive.covers, h1, sampleBreaks, inHold, staleAt, Bool.not_or, Bool.not_not, Bool.and_true]
      cases readRef s row rh ch <;> rfl
    have hsb : sampleBreaks s rh ch = true → (s.breaks i || decide (s.dram.wake < s.params.nWake)) = true := by
      intro h; rw [hbreaks, h]; simp
    have hsb' : (decide (s.params.dCac < s.params.lIn) || inHold s.params (casAt s rh ch + s.params.dCac - s.params.lIn)
      (casAt s rh ch) s.params.tCac) = sampleBreaks s rh ch := rfl
    rw [hsb', hspoil, hcur, hsound, hcov]
    clear hspoil hcur hsound hcov hbreaks hsb'
    generalize (s.breaks i || decide (s.dram.wake < s.params.nWake)) = x1 at *
    generalize (s.laterStores i).any _ = x2
    generalize sampleBreaks s rh ch = x3 at *
    generalize spoiledLater s i = x4
    generalize staleAt s row rh ch = x5
    have key : (!x3 && !x5 && !x4 && !(true && !!(x1 || x2))) = !(x1 || x4 || x2 || x5) := by
      revert hsb; revert x1 x2 x3 x4 x5; decide
    rw [key]
    cases (x1 || x4 || x2 || x5) <;> rfl

/-! ### A cycle in any state, whatever its stores hit -/

/-- A store to a pin keeps the latches, takes no wake credit, lifts no violation and starts no drive. -/
theorem pinStore_noCtrl (p : Params) (e : PinStore) (d : Dram) :
    (d.pinStore p e).wake ≤ d.wake ∧ (d.watch.viol = true → (d.pinStore p e).watch.viol = true)
      ∧ ∀ v ∈ (d.pinStore p e).drives, v ∈ d.drives :=
  ⟨lateHit_wake p e (d.flag (d.hitNow p e)), fun h => by rw [pinStore_viol, h]; rfl,
    lateHit_drives p e (d.flag (d.hitNow p e))⟩

/-- A micro-operation that stores no control value keeps the row latch, takes no wake credit, lifts no violation and
starts no drive. -/
theorem perform_noCtrl (s : State) (m : MicroOp) (h : ∀ v, m ≠ .stCtrl v) :
    (s.perform m).dram.rlat = s.dram.rlat ∧ (s.perform m).dram.wake ≤ s.dram.wake
      ∧ (s.dram.watch.viol = true → (s.perform m).dram.watch.viol = true)
      ∧ ∀ v ∈ (s.perform m).dram.drives, v ∈ s.dram.drives := by
  cases m with
  | stCtrl v => exact absurd rfl (h v)
  | nop => exact ⟨rfl, Nat.le_refl _, id, fun _ h => h⟩
  | sample =>
    refine ⟨rfl, Nat.le_refl _, fun hv => ?_, fun _ h => h⟩
    have hj : (s.perform .sample).dram.watch.viol = (s.dram.judgeSample s.params s.pin).watch.viol := rfl
    rw [hj, Dram.judgeSample, flag_viol, hv]; rfl
  | stAddr v => exact ⟨addrStore_rlat _ _ _, pinStore_noCtrl _ _ (s.dram.decay _ _)⟩
  | stA8 v => exact ⟨a8Store_rlat _ _ _, pinStore_noCtrl _ _ (s.dram.decay _ _)⟩
  | stDin v => exact ⟨dinStore_rlat _ _ _, pinStore_noCtrl _ _ (s.dram.decay _ _)⟩

/-- The same of a list that stores no control value. -/
theorem runOps_noCtrl (ops : List MicroOp) (s : State) (h : ∀ m ∈ ops, ∀ v, m ≠ .stCtrl v) :
    (s.runOps ops).dram.rlat = s.dram.rlat ∧ (s.runOps ops).dram.wake ≤ s.dram.wake
      ∧ (s.dram.watch.viol = true → (s.runOps ops).dram.watch.viol = true)
      ∧ ∀ v ∈ (s.runOps ops).dram.drives, v ∈ s.dram.drives := by
  refine runOps_of (P := fun x => x.dram.rlat = s.dram.rlat ∧ x.dram.wake ≤ s.dram.wake
      ∧ (s.dram.watch.viol = true → x.dram.watch.viol = true) ∧ ∀ v ∈ x.dram.drives, v ∈ s.dram.drives) ops s
    ⟨rfl, Nat.le_refl _, id, fun _ h => h⟩ ?_
  rintro x m hm ⟨h1, h2, h3, h4⟩
  obtain ⟨g1, g2, g3, g4⟩ := perform_noCtrl x m (h m hm)
  exact ⟨g1.trans h1, Nat.le_trans g2 h2, fun hv => g3 (h3 hv), fun v hv => h4 v (g4 v hv)⟩

/-- The row a cycle latches, whatever was broken (R40). -/
theorem rowPhase_rlat (s : State) (row : Byte) (rh : Option Bit) (v : CtrlValue)
    (hq : s.ctrl = CtrlValue.default.bits) (hv : v = .rdRow ∨ v = .wrRow ∨ v = .rasOnly) :
    (s.runOps ([.stAddr row] ++ a8Ops rh ++ [.stCtrl v])).dram.rlat = some ⟨rowOf s row rh, rasAt s rh⟩ := by
  have he (p : Params) (τ : Nat) (d : Dram) (a : Byte) (b c : Bit) :
      (Dram.edges p τ CtrlValue.default.bits v.bits a b c d).rlat = some ⟨indexOf p.kind a b, τ⟩ := by
    rcases hv with rfl | rfl | rfl <;> rfl
  cases rh <;> simp [a8Ops, State.perform, State.effect, hq, he, rowOf, a8After, rasAt, present] <;> omega

end Sys2Proof.Laws
end

