-- ==== Sys2Proof/Laws/Step.lean ====
section
/-! SUPPORT. The inductions over one step (40_timing_primitives.md R72, R73), made once: what every part of a step
keeps, a step keeps. With them CTRL along an operation (R74): the value it holds before each micro-operation, and
which CTRL store may follow which value (R75). -/

namespace Sys2Proof.Laws

open Sys2Proof.Machine

/-! ### CTRL along a list -/

/-- CTRL after a list that began from `c` (R67). -/
def ctrlFrom (c : Lines) (ops : List MicroOp) : Lines :=
  ops.foldl (fun c m => match m with
    | .stCtrl v => v.bits
    | .stAddr _ => c
    | .stA8 _ => c
    | .stDin _ => c
    | .nop => c
    | .sample => c) c

theorem ctrlAfter_eq (ops : List MicroOp) : ctrlAfter ops = ctrlFrom CtrlValue.default.bits ops := rfl

theorem ctrlFrom_append (c : Lines) (as bs : List MicroOp) : ctrlFrom c (as ++ bs) = ctrlFrom (ctrlFrom c as) bs :=
  List.foldl_append

theorem ctrlFrom_cons (c : Lines) (m : MicroOp) (ms : List MicroOp) :
    ctrlFrom c (m :: ms) = ctrlFrom (ctrlFrom c [m]) ms := rfl

theorem ctrlFrom_wait (c : Lines) (n : Nat) : ctrlFrom c (waitOps n) = c := by
  induction n with
  | zero => rfl
  | succ n ih => exact ih

theorem ctrlFrom_a8Ops (c : Lines) (o : Option Bit) : ctrlFrom c (a8Ops o) = c := by cases o <;> rfl

theorem perform_ctrlFrom (s : State) (m : MicroOp) : (s.perform m).ctrl = ctrlFrom s.ctrl [m] := by cases m <;> rfl

theorem runOps_ctrl (s : State) (ops : List MicroOp) : (s.runOps ops).ctrl = ctrlFrom s.ctrl ops := by
  induction ops generalizing s with
  | nil => rfl
  | cons m ms ih => rw [runOps_cons, ih, perform_ctrlFrom]; rfl

/-- CTRL holds one of the seven named values along a list, if it did at its begin (R18). -/
theorem ctrlFrom_named (c : Lines) (ops : List MicroOp) (h : ∃ v : CtrlValue, c = v.bits) :
    ∃ v : CtrlValue, ctrlFrom c ops = v.bits := by
  induction ops generalizing c with
  | nil => exact h
  | cons m ms ih =>
    rw [ctrlFrom_cons]
    apply ih
    cases m <;> first | exact h | exact ⟨_, rfl⟩

/-! ### What a step keeps -/

/-- What begins an operation well and is kept by each of its micro-operations, CTRL being then what the list so far
has left, holds at its end. -/
theorem runOps_along {P : State → Prop} (ops : List MicroOp) (s0 : State) (h0 : P s0)
    (hc : s0.ctrl = CtrlValue.default.bits)
    (hP : ∀ pre m post s, ops = pre ++ m :: post → s.ctrl = ctrlAfter pre → P s → P (s.perform m)) :
    P (s0.runOps ops) := by
  suffices ∀ pre post s, ops = pre ++ post → s.ctrl = ctrlAfter pre → P s → P (s.runOps post) from
    this [] ops s0 rfl hc h0
  intro pre post
  induction post generalizing pre with
  | nil => intro s _ _ h; exact h
  | cons m post ih =>
    intro s hl hcs h
    refine ih (pre ++ [m]) (s.perform m) (by simp [hl]) ?_ (hP pre m post s hl hcs h)
    rw [ctrlAfter_eq, ctrlFrom_append, perform_ctrlFrom, hcs, ctrlAfter_eq]

/-- What every part of a step keeps in every state, a step keeps. -/
theorem step_keeps {P : State → Prop} (hperform : ∀ m s, P s → P (s.perform m))
    (hbegin : ∀ cmd s, P s → P (s.beginOp cmd)) (hend : ∀ cmd s, P s → P (s.endOp cmd))
    (hpass : ∀ g s, P s → P (s.pass g)) (hhost : ∀ (l : List Issue) s, P s → P { s with host := l })
    (hrefuse : ∀ w c s, P s → P (s.refuse w c)) {s t : State} (h : P s) (hs : step s = .next t) : P t := by
  unfold step at hs
  split at hs
  · injection hs with hs; subst hs
    unfold State.microStep
    dsimp only
    split
    · exact hend _ _ h
    · split
      · exact hperform _ _ h
      · exact hend _ _ (hperform _ _ h)
  · split at hs
    · cases hs
    · split at hs
      · injection hs with hs; subst hs; exact hpass _ _ h
      · next i rest hh =>
        have ht : P (s.take i rest) := hpass _ _ (hhost _ _ h)
        split at hs
        · rw [exec_eq] at hs
          obtain ⟨_, rfl⟩ := runOperation_next hs
          exact hend _ _ (runOps_of _ _ (hbegin _ _ ht) (fun s m _ h => hperform m s h))
        · injection hs with hs; subst hs; exact hrefuse _ _ _ ht

/-- The same where a micro-operation keeps it only at its place in its operation: a step from a state whose port is
as R74 says keeps it. -/
theorem step_keeps_in_place {P : State → Prop}
    (hperform : ∀ cmd pre m post s, microOps cmd s.params s.rc = pre ++ m :: post → s.ctrl = ctrlAfter pre → P s →
      P (s.perform m))
    (hbegin : ∀ cmd s, P s → P (s.beginOp cmd)) (hend : ∀ cmd s, P s → P (s.endOp cmd))
    (hpass : ∀ g s, P s → P (s.pass g)) (hhost : ∀ (l : List Issue) s, P s → P { s with host := l })
    (hrefuse : ∀ w c s, P s → P (s.refuse w c)) {s t : State} (hp : s.portInv) (h : P s) (hs : step s = .next t) :
    P t := by
  unfold step at hs
  split at hs
  · next cmd k hop =>
    injection hs with hs; subst hs
    have hc : s.ctrl = ctrlAfter ((microOps cmd s.params s.rc).take k) := by simpa [State.portInv, hop] using hp
    unfold State.microStep
    dsimp only
    split
    · exact hend _ _ h
    · next m hm =>
      have hl : microOps cmd s.params s.rc
          = (microOps cmd s.params s.rc).take k ++ m :: (microOps cmd s.params s.rc).drop (k + 1) := by
        obtain ⟨hk, rfl⟩ := List.getElem?_eq_some_iff.1 hm
        rw [← List.drop_eq_getElem_cons, List.take_append_drop]
      have hm' := hperform cmd _ m _ s hl hc h
      split
      · exact hm'
      · exact hend _ _ hm'
  · split at hs
    · cases hs
    · split at hs
      · injection hs with hs; subst hs; exact hpass _ _ h
      · next i rest hh =>
        have ht : P (s.take i rest) := hpass _ _ (hhost _ _ h)
        split at hs
        · next cmd _ =>
          rw [exec_eq] at hs
          obtain ⟨hc, rfl⟩ := runOperation_next hs
          apply hend
          refine (runOps_along (P := fun x => P x ∧ x.params = (s.take i rest).params ∧ x.rc = (s.take i rest).rc) _ _
            ⟨hbegin _ _ ht, rfl, rfl⟩ hc ?_).1
          intro pre m post s' hl hc' ⟨h', e1, e2⟩
          exact ⟨hperform cmd pre m post s' (by rw [e1, e2]; exact hl) hc' h', by rw [perform_params, e1],
            by rw [perform_rc, e2]⟩
        · injection hs with hs; subst hs; exact hrefuse _ _ _ ht

/-! ### Which CTRL store follows which value -/

/-- A CTRL store an operation may make while CTRL holds `c` (R75). -/
def mayFollow (c : Lines) (v : CtrlValue) : Bool :=
  match v with
  | .default => true
  | .rdRow => c == CtrlValue.default.bits
  | .wrRow => c == CtrlValue.default.bits
  | .rasOnly => c == CtrlValue.default.bits
  | .err => c == CtrlValue.default.bits
  | .rdCol => c == CtrlValue.rdRow.bits
  | .wrCol => c == CtrlValue.wrRow.bits

/-- Every CTRL store of the list may follow the value CTRL then holds. -/
def inOrder (c : Lines) (ops : List MicroOp) : Prop :=
  ∀ pre v post, ops = pre ++ .stCtrl v :: post → mayFollow (ctrlFrom c pre) v = true

theorem inOrder_append (c : Lines) (as bs : List MicroOp) (ha : inOrder c as) (hb : inOrder (ctrlFrom c as) bs) :
    inOrder c (as ++ bs) := by
  intro pre v post h
  rcases List.append_eq_append_iff.1 h with ⟨x, h1, h2⟩ | ⟨x, h1, h2⟩
  · subst h1; rw [ctrlFrom_append]; exact hb _ _ _ h2
  · cases x with
    | nil => simp at h1 h2; subst h1; exact hb [] v post (by simpa using h2.symm)
    | cons y ys => simp at h2; obtain ⟨rfl, rfl⟩ := h2; exact ha _ _ _ h1

theorem inOrder_of_not_mem (c : Lines) (ops : List MicroOp) (h : ∀ v, .stCtrl v ∉ ops) : inOrder c ops := by
  intro pre v post e
  exact absurd (by simp [e]) (h v)

theorem inOrder_one (c : Lines) (v : CtrlValue) (h : mayFollow c v = true) : inOrder c [.stCtrl v] := by
  intro pre w post e
  cases pre with
  | nil => simp at e; obtain ⟨rfl, rfl⟩ := e; exact h
  | cons y ys => simp at e

theorem stCtrl_not_mem_wait (v : CtrlValue) (n : Nat) : .stCtrl v ∉ waitOps n := by simp [waitOps, List.mem_replicate]

theorem stCtrl_not_mem_a8Ops (v : CtrlValue) (o : Option Bit) : .stCtrl v ∉ a8Ops o := by cases o <;> simp [a8Ops]

/-- Every CTRL store of an operation follows the value R75 puts before it. -/
theorem inOrder_microOps (cmd : Instr) (p : Params) (rc : Byte) : inOrder CtrlValue.default.bits (microOps cmd p rc) := by
  have hw (c n) : inOrder c (waitOps n) := inOrder_of_not_mem _ _ (fun v => stCtrl_not_mem_wait v n)
  have ha (c o) : inOrder c (a8Ops o) := inOrder_of_not_mem _ _ (fun v => stCtrl_not_mem_a8Ops v o)
  have hA (c x) : inOrder c [.stAddr x] := inOrder_of_not_mem _ _ (by simp)
  have hS (c) : inOrder c [.sample] := inOrder_of_not_mem _ _ (by simp)
  have hSd (c) : inOrder c [.sample, .stCtrl .default] := inOrder_append c [.sample] _ (hS c) (inOrder_one _ _ rfl)
  have hAr (x) : inOrder CtrlValue.default.bits [.stAddr x, .stCtrl .rasOnly] :=
    inOrder_append _ [.stAddr x] _ (hA _ x) (inOrder_one _ _ rfl)
  have cat (c as bs) (ha : inOrder c as) (hb : inOrder (ctrlFrom c as) bs) := inOrder_append c as bs ha hb
  cases cmd with
  | idle => exact inOrder_one _ _ rfl
  | setdin v => exact inOrder_of_not_mem _ _ (by simp [microOps, setdinOps])
  | wait n => exact hw _ _
  | errpulse => exact cat _ _ _ (cat _ _ _ (inOrder_one _ _ rfl) (hw _ _)) (inOrder_one _ _ rfl)
  | refresh => exact cat _ _ _ (cat _ _ _ (hAr _) (hw _ _)) (inOrder_one _ _ rfl)
  | rasonly row rh =>
    refine cat _ _ _ (cat _ _ _ (cat _ _ _ (cat _ _ _ (hA _ _) (ha _ _)) (inOrder_one _ _ ?_)) (hw _ _))
      (inOrder_one _ _ rfl)
    simp only [ctrlFrom_append, ctrlFrom_a8Ops]; rfl
  | read row col rh ch =>
    refine cat _ _ _ (cat _ _ _ (cat _ _ _ (cat _ _ _ (cat _ _ _ (cat _ _ _ (cat _ _ _ (cat _ _ _ (hA _ _) (ha _ _))
      (inOrder_one _ _ ?_)) (hw _ _)) (hA _ _)) (ha _ _)) (inOrder_one _ _ ?_)) (hw _ _)) (hSd _)
    · simp only [ctrlFrom_append, ctrlFrom_a8Ops]; rfl
    · simp only [ctrlFrom_append, ctrlFrom_a8Ops, ctrlFrom_wait]; rfl
  | write row col rh ch =>
    refine cat _ _ _ (cat _ _ _ (cat _ _ _ (cat _ _ _ (cat _ _ _ (cat _ _ _ (cat _ _ _ (cat _ _ _ (hA _ _) (ha _ _))
      (inOrder_one _ _ ?_)) (hw _ _)) (hA _ _)) (ha _ _)) (inOrder_one _ _ ?_)) (hw _ _)) (inOrder_one _ _ rfl)
    · simp only [ctrlFrom_append, ctrlFrom_a8Ops]; rfl
    · simp only [ctrlFrom_append, ctrlFrom_a8Ops, ctrlFrom_wait]; rfl

/-- Every operation leaves CTRL_DEFAULT (R74). -/
theorem ctrlAfter_microOps (cmd : Instr) (p : Params) (rc : Byte) :
    ctrlAfter (microOps cmd p rc) = CtrlValue.default.bits := by
  cases cmd
  case setdin v => rfl
  case wait n => exact ctrlFrom_wait _ _
  all_goals
    simp only [microOps, readOps, writeOps, rasonlyOps, refreshOps, errpulseOps, idleOps, ctrlAfter_eq, ctrlFrom_append]
    rfl

end Sys2Proof.Laws
end

