-- ==== Sys2Proof/Laws/Ends.lean ====
section
/-! SUPPORT. What a whole cycle leaves (20_memory.md R41-R44, R48): one description for a cycle in violation and one
for a cycle that ends well, what its READ hands back, and the stores an operation makes, as foreseen and as recorded. -/

namespace Sys2Proof.Laws

open Sys2Proof.Machine

/-! ### Running an operation -/

/-- From an idle port an operation runs its list (R73). -/
theorem exec_run {i : Instr} {s : State} (h : s.ctrl = CtrlValue.default.bits) :
    exec i s = .next (((s.beginOp i).runOps (microOps i s.params s.rc)).endOp i) := by
  rw [exec_eq]; exact runOperation_idle _ _ h

/-- An operation that answers a next state ran from an idle port, and this is the state (R73). -/
theorem exec_next {i : Instr} {s t : State} (h : exec i s = .next t) :
    s.ctrl = CtrlValue.default.bits ∧ t = ((s.beginOp i).runOps (microOps i s.params s.rc)).endOp i := by
  rw [exec_eq] at h; exact runOperation_next h

/-- It leaves CTRL_DEFAULT (R74). -/
theorem exec_ctrl {i : Instr} {s t : State} (h : exec i s = .next t) : t.ctrl = CtrlValue.default.bits := by
  obtain ⟨hc, rfl⟩ := exec_next h
  rw [endOp_ctrl, runOps_ctrl, beginOp_ctrl, hc, ← ctrlAfter_eq, ctrlAfter_microOps]

theorem runOps_params (ops : List MicroOp) (s : State) : (s.runOps ops).params = s.params :=
  runOps_of (P := fun x => x.params = s.params) ops s rfl (fun y m _ h => by rw [perform_params, h])

theorem runOps_host (ops : List MicroOp) (s : State) : (s.runOps ops).host = s.host :=
  runOps_of (P := fun x => x.host = s.host) ops s rfl (fun y m _ h => by rw [perform_host, h])

theorem runOps_refused (ops : List MicroOp) (s : State) : (s.runOps ops).refused = s.refused :=
  runOps_of (P := fun x => x.refused = s.refused) ops s rfl (fun y m _ h => by rw [perform_refused, h])

theorem exec_params {i : Instr} {s t : State} (h : exec i s = .next t) : t.params = s.params := by
  obtain ⟨_, rfl⟩ := exec_next h
  rw [endOp_params, runOps_params, beginOp_params]

/-- Between operations again, the latches being empty and DOUT undriven. -/
theorem exec_quiet {i : Instr} {s t : State} (hq : s.quiet) (h : exec i s = .next t) (hr : t.dram.rlat = none)
    (hcl : t.dram.clat = none) (hd : ∀ v ∈ t.dram.drives, v.rise.isSome) : t.quiet := by
  refine quiet_of t (exec_ctrl h) hr hcl ?_ hd
  obtain ⟨_, rfl⟩ := exec_next h
  exact runOperation_timeInv _ _ _ hq.2.2

/-- Where nothing decays until later, nothing decays. -/
theorem kept_decay {p : Params} {τ τ' : Nat} {d : Dram} (hle : τ ≤ τ') (h : d.keptUntil p τ') : d.decay p τ = d :=
  decay_eq_self _ _ _ (keptUntil_mono hle h)

/-- The refresh row of a cycle's row is its row byte (R45). -/
theorem refRow_rowOf (s : State) (row : Byte) (rh : Option Bit) : refRow (rowOf s row rh) = row.toNat := by
  have := row.isLt
  unfold rowOf refRow
  cases s.params.kind
  · rw [indexOf_dram64K_toNat]; omega
  · rw [indexOf_dram256K_toNat]; omega

theorem close_rise (τ : Nat) (v : Drive) : (v.close τ).rise.isSome = true := by
  cases h : v.rise <;> simp [Drive.close, h]

/-! ### A cycle in violation -/

/-- What a cycle in violation that ends at `τE` leaves (R48). -/
structure EndedBroken (s : State) (τE : Nat) (d : Dram) : Prop where
  cells : d.cells = []
  lastref : d.lastref = (s.dram.decay s.params τE).lastref
  wake : d.wake = s.dram.wake
  pend : d.watch.pend = s.dram.watch.pend

/-- A data cycle in violation. -/
theorem data_broken (s : State) (mode : CasMode) (row col : Byte) (rh ch : Option Bit) (τE : Nat) (b : Bool)
    (hle : casAt s rh ch ≤ τE)
    (hb : (brokenAtCas s mode rh ch || b || inHold s.params τE (rasAt s rh) s.params.tRas) = true) :
    EndedBroken s τE
      ((casClosed τE b ((casDram s mode row col rh ch).decay s.params τE)).rasRise s.params τE) := by
  rw [rasRise_broken _ _ _ ⟨rowOf s row rh, rasAt s rh⟩ rfl hb]
  have hl : ((s.dram.decay s.params (casAt s rh ch)).decay s.params τE).lastref = (s.dram.decay s.params τE).lastref := by
    rw [decay_decay s.params hle s.dram]
  exact ⟨rfl, hl, rfl, rfl⟩

/-- What a READ breaks in all, P1-P9 and R47. -/
theorem read_breaks_eq (s : State) (row col : Byte) (rh ch : Option Bit) :
    let i := Instr.read row col rh ch
    let τE := s.t + opCycles s.params i
    (brokenAtCas s .read rh ch || (sampleBreaks s rh ch || inHold s.params τE (casAt s rh ch) s.params.tCas)
      || inHold s.params τE (rasAt s rh) s.params.tRas) = (s.breaks i || decide (s.dram.wake < s.params.nWake)) := by
  intro i τE
  simp only [State.breaks, i, brokenAtCas, sampleBreaks, Bool.or_false, τE]
  ac_rfl

/-- What a WRITE breaks in all, P1-P9 and R47. -/
theorem write_breaks_eq (s : State) (row col : Byte) (rh ch : Option Bit) :
    let i := Instr.write row col rh ch
    let τE := s.t + opCycles s.params i
    (brokenAtCas s .write rh ch || (inHold s.params τE (casAt s rh ch) s.params.tWch
        || inHold s.params τE (casAt s rh ch) s.params.tCas)
      || inHold s.params τE (rasAt s rh) s.params.tRas) = (s.breaks i || decide (s.dram.wake < s.params.nWake)) := by
  intro i τE
  simp only [State.breaks, i, brokenAtCas, τE]
  ac_rfl

theorem casAt_le_read (s : State) (row col : Byte) (rh ch : Option Bit) :
    casAt s rh ch ≤ s.t + opCycles s.params (.read row col rh ch) := by rw [opCycles_read]; omega

theorem casAt_le_write (s : State) (row col : Byte) (rh ch : Option Bit) :
    casAt s rh ch ≤ s.t + opCycles s.params (.write row col rh ch) := by rw [opCycles_write]; omega

/-- The list of a RAS-only cycle. -/
theorem rasOnlyOps_eq (p : Params) (rc : Byte) (i : Instr) (row : Byte) (rh : Option Bit)
    (hi : i = .rasonly row rh ∨ (i = .refresh ∧ row = rc ∧ rh = none)) :
    microOps i p rc = [.stAddr row] ++ a8Ops rh ++ [.stCtrl .rasOnly] ++ waitOps p.dRas ++ [.stCtrl .default] := by
  rcases hi with rfl | ⟨rfl, rfl, rfl⟩ <;> rfl

/-- Its RAS rise comes at its end. -/
theorem rasOnly_end (s : State) (i : Instr) (row : Byte) (rh : Option Bit)
    (hi : i = .rasonly row rh ∨ (i = .refresh ∧ row = s.rc ∧ rh = none)) :
    rasAt s rh + s.params.dRas + s.params.cSt = s.t + opCycles s.params i := by
  rcases hi with rfl | ⟨rfl, rfl, rfl⟩ <;> simp only [rasAt, opCycles, present] <;> omega

/-- Its stores are those of its row phase. -/
theorem rasOnly_untouched {s : State} {i : Instr} {row : Byte} {rh : Option Bit}
    (hi : i = .rasonly row rh ∨ (i = .refresh ∧ row = s.rc ∧ rh = none)) (hU : s.untouched (s.ownStores i)) :
    s.untouched (storesOf s.params s.t ([.stAddr row] ++ a8Ops rh)) := by
  intro c hc e he
  refine hU c hc e ?_
  simp only [State.ownStores, rasOnlyOps_eq _ _ _ _ _ hi]
  rw [storesOf_append, storesOf_append, storesOf_append]
  simp only [List.mem_append]
  exact .inl (.inl (.inl he))

/-- An operation by times that break a predicate, or a data cycle of a DRAM not awake, is in violation (R47, R48). -/
theorem ops_broken (s : State) (i : Instr) (hq : s.ctrl = CtrlValue.default.bits) (hU : s.untouched (s.ownStores i))
    (hb : (s.breaks i || ((casFallOf s i).isSome && decide (s.dram.wake < s.params.nWake))) = true) :
    EndedBroken s (s.t + opCycles s.params i) (s.runOps (microOps i s.params s.rc)).dram := by
  have only (row : Byte) (rh : Option Bit) (hi : i = .rasonly row rh ∨ (i = .refresh ∧ row = s.rc ∧ rh = none))
      (hv : (rowBreaks s rh || inHold s.params (s.t + opCycles s.params i) (rasAt s rh) s.params.tRas) = true) :
      EndedBroken s (s.t + opCycles s.params i) (s.runOps (microOps i s.params s.rc)).dram := by
    have h := runOps_rasOnly s row rh hq (rasOnly_untouched hi hU)
    rw [rasOnlyOps_eq _ _ _ _ _ hi]
    dsimp only at h
    rw [rasOnly_end s i row rh hi, rasRise_broken _ _ _ ⟨rowOf s row rh, rasAt s rh⟩ rfl hv] at h
    rw [h]
    exact ⟨rfl, rfl, rfl, rfl⟩
  cases i with
  | read row col rh ch =>
    have h := runOps_read s row col rh ch hq hU
    simp only [microOps]
    rw [h]
    exact data_broken s .read row col rh ch _ _ (casAt_le_read s row col rh ch) (by
      rw [read_breaks_eq]; exact hb)
  | write row col rh ch =>
    have h := runOps_write s row col rh ch hq hU
    simp only [microOps]
    rw [h]
    exact data_broken s .write row col rh ch _ _ (casAt_le_write s row col rh ch) (by
      rw [write_breaks_eq]; exact hb)
  | refresh => exact only s.rc none (.inr ⟨rfl, rfl, rfl⟩) (by simpa [State.breaks, casFallOf] using hb)
  | rasonly row rh => exact only row rh (.inl rfl) (by simpa [State.breaks, casFallOf] using hb)
  | idle => simp [State.breaks, casFallOf] at hb
  | wait n => simp [State.breaks, casFallOf] at hb
  | setdin v => simp [State.breaks, casFallOf] at hb
  | errpulse => simp [State.breaks, casFallOf] at hb

/-! ### A cycle that ends well -/

/-- What a cycle remembers of itself once it has ended well. -/
def pastCycle (s : State) (row : Byte) (rh : Option Bit) (cas : Option (Nat × CasMode)) (τE : Nat) : Past :=
  ⟨row.toNat, rasAt s rh, cas, τE, atLeast s.params (rasAt s rh) s.params.tPwr, Sparse.get row.toNat s.dram.lastref⟩

/-- What a cycle that ends well at `τE` leaves, `cells` being its cells (R44). -/
structure EndedWell (s : State) (row : Byte) (rh : Option Bit) (cas : Option (Nat × CasMode)) (τE : Nat)
    (cells : List Host.Cell) (d : Dram) : Prop where
  rlat : d.rlat = none
  clat : d.clat = none
  cells : d.cells = cells
  lastref : d.lastref = if atLeast s.params (rasAt s rh) s.params.tPwr then Sparse.put row.toNat τE s.dram.lastref
    else s.dram.lastref
  wake : d.wake = if atLeast s.params (rasAt s rh) s.params.tPwr then s.dram.wake + 1 else s.dram.wake
  drives : ∀ v ∈ d.drives, v.rise.isSome
  pend : d.watch.pend = (pastCycle s row rh cas τE :: s.dram.watch.pend).filter (Past.openAt s.params τE)

/-- The cells a data cycle leaves (R41, R42). -/
def cellsAfter (s : State) (mode : CasMode) (row col : Byte) (rh ch : Option Bit) : List Host.Cell :=
  match mode with
  | .read => s.dram.cells
  | .write => Memory.write (cellOf s row col rh ch) (writtenBit s.din s.dram.watch) s.dram.cells

/-- A data cycle that ends well. -/
theorem data_well (s : State) (mode : CasMode) (row col : Byte) (rh ch : Option Bit) (τE : Nat) (b : Bool)
    (hle : casAt s rh ch ≤ τE) (hk : s.dram.keptUntil s.params τE)
    (hb : (brokenAtCas s mode rh ch || b || inHold s.params τE (rasAt s rh) s.params.tRas) = false) :
    EndedWell s row rh (some (casAt s rh ch, mode)) τE (cellsAfter s mode row col rh ch)
      ((casClosed τE b ((casDram s mode row col rh ch).decay s.params τE)).rasRise s.params τE) := by
  have hs := kept_decay hle hk
  have hl : (casDram s mode row col rh ch).lastref = s.dram.lastref := by
    rw [show (casDram s mode row col rh ch).lastref = (s.dram.decay s.params (casAt s rh ch)).lastref from rfl, hs]
  have hc : (casDram s mode row col rh ch).cells = cellsAfter s mode row col rh ch := by
    cases mode <;> simp only [casDram, cellsAfter, hs]
  have hd : (casDram s mode row col rh ch).decay s.params τE = casDram s mode row col rh ch :=
    decay_eq_self _ _ _ (fun e he => hk e (hl ▸ he))
  rw [rasRise_well _ _ _ ⟨rowOf s row rh, rasAt s rh⟩ rfl hb, hd]
  refine ⟨rfl, rfl, hc, ?_, rfl, ?_, ?_⟩
  · simp only [casClosed, refRow_rowOf, hl]
  · intro v hv
    obtain ⟨w, _, rfl⟩ := List.mem_map.1 hv
    exact close_rise _ _
  · simp only [pastOf, casClosed, refRow_rowOf, hl]; rfl

/-- A READ that ends well. -/
theorem read_well (s : State) (row col : Byte) (rh ch : Option Bit) (hq : s.ctrl = CtrlValue.default.bits)
    (hU : s.untouched (s.ownStores (.read row col rh ch)))
    (hb : (s.breaks (.read row col rh ch) || decide (s.dram.wake < s.params.nWake)) = false)
    (hk : s.dram.keptUntil s.params (s.t + opCycles s.params (.read row col rh ch))) :
    EndedWell s row rh (some (casAt s rh ch, .read)) (s.t + opCycles s.params (.read row col rh ch)) s.dram.cells
      (s.runOps (readOps s.params row col rh ch)).dram := by
  rw [runOps_read s row col rh ch hq hU]
  exact data_well s .read row col rh ch _ _ (casAt_le_read s row col rh ch) hk (by rw [read_breaks_eq]; exact hb)

/-- A WRITE that ends well. -/
theorem write_well (s : State) (row col : Byte) (rh ch : Option Bit) (hq : s.ctrl = CtrlValue.default.bits)
    (hU : s.untouched (s.ownStores (.write row col rh ch)))
    (hb : (s.breaks (.write row col rh ch) || decide (s.dram.wake < s.params.nWake)) = false)
    (hk : s.dram.keptUntil s.params (s.t + opCycles s.params (.write row col rh ch))) :
    EndedWell s row rh (some (casAt s rh ch, .write)) (s.t + opCycles s.params (.write row col rh ch))
      (cellsAfter s .write row col rh ch) (s.runOps (writeOps s.params row col rh ch)).dram := by
  rw [runOps_write s row col rh ch hq hU]
  exact data_well s .write row col rh ch _ _ (casAt_le_write s row col rh ch) hk (by rw [write_breaks_eq]; exact hb)

/-- A RAS-only cycle that ends well. -/
theorem rasOnly_well (s : State) (i : Instr) (row : Byte) (rh : Option Bit)
    (hi : i = .rasonly row rh ∨ (i = .refresh ∧ row = s.rc ∧ rh = none)) (hq : s.quiet)
    (hU : s.untouched (s.ownStores i)) (hb : s.breaks i = false)
    (hk : s.dram.keptUntil s.params (s.t + opCycles s.params i)) :
    EndedWell s row rh none (s.t + opCycles s.params i) s.dram.cells (s.runOps (microOps i s.params s.rc)).dram := by
  have h := runOps_rasOnly s row rh hq.1 (rasOnly_untouched hi hU)
  have hv : (rowBreaks s rh || inHold s.params (s.t + opCycles s.params i) (rasAt s rh) s.params.tRas) = false := by
    rcases hi with rfl | ⟨rfl, rfl, rfl⟩ <;> exact hb
  rw [rasOnlyOps_eq _ _ _ _ _ hi]
  dsimp only at h
  rw [rasOnly_end s i row rh hi, rasRise_well _ _ _ ⟨rowOf s row rh, rasAt s rh⟩ rfl hv,
    kept_decay (Nat.le_refl _) hk] at h
  rw [h]
  refine ⟨rfl, quiet_clat hq, rfl, ?_, rfl, quiet_drives hq, ?_⟩
  · simp only [refRow_rowOf]
  · simp only [pastOf, refRow_rowOf]; rfl

/-! ### The stores and the time of a list -/

/-- A micro-operation records the pin store foreseen of it, and takes its time (R25, R63, R64). -/
theorem perform_stores (x : State) (m : MicroOp) : ∃ es, (x.perform m).trace = x.trace ++ es
    ∧ storesOf x.params x.t [m] = es.filterMap Event.pinStore ∧ (x.perform m).t = x.t + m.cycles x.params := by
  cases m with
  | nop => exact ⟨[], (List.append_nil _).symm, rfl, rfl⟩
  | stAddr v => exact ⟨_, rfl, rfl, rfl⟩
  | stA8 v => exact ⟨_, rfl, rfl, rfl⟩
  | stCtrl v => exact ⟨_, rfl, rfl, rfl⟩
  | stDin v => exact ⟨_, rfl, rfl, rfl⟩
  | sample => exact ⟨_, rfl, rfl, rfl⟩

/-- The same of a list. -/
theorem runOps_stores (ops : List MicroOp) (x : State) : ∃ es, (x.runOps ops).trace = x.trace ++ es
    ∧ storesOf x.params x.t ops = es.filterMap Event.pinStore
    ∧ (x.runOps ops).t = x.t + opsCycles x.params ops := by
  induction ops generalizing x with
  | nil => exact ⟨[], (List.append_nil _).symm, rfl, rfl⟩
  | cons m ms ih =>
    obtain ⟨e1, h1, h2, h3⟩ := perform_stores x m
    obtain ⟨e2, k1, k2, k3⟩ := ih (x.perform m)
    refine ⟨e1 ++ e2, by rw [runOps_cons, k1, h1, List.append_assoc], ?_, ?_⟩
    · rw [List.filterMap_append, ← h2, ← k2, perform_params, h3]
      simp [storesOf]
    · rw [runOps_cons, k3, h3, perform_params]; simp only [opsCycles]; omega

/-- CAS falls at the end of this part of the list (R78, R80). -/
theorem casTime (s : State) (mode : CasMode) (row col : Byte) (rh ch : Option Bit) :
    s.t + opsCycles s.params (toCas s.params mode row col rh ch) = casAt s rh ch := by
  cases rh <;> cases ch <;> simp [toCas, opsCycles_append, opsCycles_wait, a8Ops, opsCycles, MicroOp.cycles, casAt, colAt, rasAt, present] <;> omega

/-! ### What a READ hands back -/

/-- Where a READ stands when its sample starts: at its CAS fall plus D_CAC (R78). -/
theorem beforeSample_time (s : State) (row col : Byte) (rh ch : Option Bit) :
    let u := ((s.beginOp (.read row col rh ch)).runOps (toCas s.params .read row col rh ch)).runOps
      (waitOps s.params.dCac)
    u.t = casAt s rh ch + s.params.dCac ∧ u.params = s.params := by
  intro u
  obtain ⟨_, _, _, ht⟩ := runOps_stores (toCas s.params .read row col rh ch ++ waitOps s.params.dCac)
    (s.beginOp (.read row col rh ch))
  have hp := runOps_params (toCas s.params .read row col rh ch ++ waitOps s.params.dCac) (s.beginOp (.read row col rh ch))
  rw [runOps_append] at ht hp
  rw [beginOp_params, beginOp_t, opsCycles_append, opsCycles_wait, ← Nat.add_assoc, casTime] at ht
  exact ⟨ht, hp⟩

/-- A READ that looks at a time of its own hands back its sample: the level it sees, or the next draw (R70). -/
theorem read_sample (s : State) (row col : Byte) (rh ch : Option Bit)
    (hpin : s.t + s.params.lIn ≤ casAt s rh ch + s.params.dCac) :
    let i := Instr.read row col rh ch
    let u := ((s.beginOp i).runOps (toCas s.params .read row col rh ch)).runOps (waitOps s.params.dCac)
    let t := ((s.beginOp i).runOps (readOps s.params row col rh ch)).endOp i
    t.readSample = some (u.pinLevel.getD (Config.freeBit s.draws))
      ∧ t.draws = if u.pinLevel.isSome then s.draws else s.draws + 1 := by
  intro i u t
  have hu : u.draws = s.draws := by
    have h := runOps_of (P := fun x => x.draws = s.draws) (toCas s.params .read row col rh ch ++ waitOps s.params.dCac)
      (s.beginOp i) rfl (fun x m hm hx => by
        cases m with
        | sample => exfalso; cases rh <;> cases ch <;> simp [toCas, a8Ops, waitOps, List.mem_replicate] at hm
        | stAddr _ => exact hx
        | stA8 _ => exact hx
        | stCtrl _ => exact hx
        | stDin _ => exact hx
        | nop => exact hx)
    rw [runOps_append] at h; exact h
  have hd : u.draw = Config.freeBit s.draws := by
    obtain ⟨ht, hp⟩ := beforeSample_time s row col rh ch
    rw [draw_of_lIn (by rw [ht, hp]; omega), hu]
  have ht : t = ((u.perform .sample).perform (.stCtrl .default)).endOp i := by
    simp only [t, u]; rw [readOps_eq, runOps_append, runOps_append]; rfl
  rw [ht, endOp_readSample, endOp_draws]
  have e1 : ((u.perform .sample).perform (.stCtrl .default)).readSample
    = some (u.pinLevel.getD u.draw) := rfl
  have e2 : ((u.perform .sample).perform (.stCtrl .default)).draws
    = if u.pinLevel.isSome then u.draws else u.draws + 1 := rfl
  rw [e1, e2, hd, hu]; exact ⟨rfl, rfl⟩

/-- A READ that looks at a time of its own returns the next draw if it is in violation, by its own times or by a store
to come, or an ended cycle is by a store to come (R48). -/
theorem read_draws (s : State) (row col : Byte) (rh ch : Option Bit) (hq : s.quiet)
    (hU : s.untouched (s.ownStores (.read row col rh ch)))
    (hpin : s.t + s.params.lIn ≤ casAt s rh ch + s.params.dCac)
    (hx : let i := Instr.read row col rh ch
      (s.breaks i || decide (s.dram.wake < s.params.nWake) || spoiledLater s i
        || (s.laterStores i).any (s.hitBy i)) = true) :
    ∃ t, exec (.read row col rh ch) s = .next t ∧ t.readSample = some (Config.freeBit s.draws)
      ∧ t.draws = s.draws + 1 := by
  refine ⟨_, exec_run hq.1, ?_⟩
  have h1 := read_sample s row col rh ch hpin
  have h2 := read_level s row col rh ch hq hU hpin
  simp only at h1 h2 hx
  rw [show _ = none from h2.trans (by
    split
    · rfl
    · rw [hx]; rfl)] at h1
  exact h1

/-! ### The stores foreseen, and those recorded -/

/-- A store that falls into a hold window later finds it open before (P6, P7, P9). -/
theorem hits_openAt {p : Params} {rfall : Nat} {cas : Option (Nat × CasMode)} {e : PinStore} {τ : Nat}
    (hle : τ ≤ e.teff) (h : e.hits p rfall cas = true) :
    (addressHoldHit p τ rfall cas || dinHoldHit p τ cas) = true := by
  have mono (x T : Nat) (h : inHold p e.teff x T = true) : inHold p τ x T = true := by
    cases h' : inHold p τ x T with
    | true => rfl
    | false =>
      simp only [inHold, Bool.not_eq_false'] at h'
      have := atLeast_mono (m := e.teff - x) h' (by omega)
      simp [inHold, this] at h
  have hA (h : addressHoldHit p e.teff rfall cas = true) : addressHoldHit p τ rfall cas = true := by
    simp only [addressHoldHit, Bool.or_eq_true] at h ⊢
    rcases h with h | h
    · exact .inl (mono _ _ h)
    · cases cas with
      | none => cases h
      | some x => exact .inr (mono _ _ h)
  simp only [PinStore.hits] at h
  rw [Bool.or_eq_true]
  split at h
  · exact .inl (hA h)
  · exact .inl (hA (by simp at h; exact h.2))
  · right
    cases cas with
    | none => cases h
    | some x =>
      obtain ⟨c, m⟩ := x
      cases m
      · cases h
      · exact mono _ _ h

/-- What a micro-operation that makes one pin store does to cells, wake-up and credits, while nothing decays. -/
theorem perform_pinStore (x : State) (m : MicroOp) (e : PinStore) (h : storesOf x.params x.t [m] = [e])
    (hk : x.dram.keptUntil x.params e.teff) :
    (x.perform m).dram.cells = (x.dram.pinStore x.params e).cells
      ∧ (x.perform m).dram.wake = (x.dram.pinStore x.params e).wake
      ∧ (x.perform m).dram.lastref = (x.dram.pinStore x.params e).lastref := by
  have hd := decay_eq_self _ _ _ hk
  cases m with
  | stAddr v =>
    simp [storesOf, MicroOp.pinLine, MicroOp.cycles] at h; subst h
    have : (x.perform (.stAddr v)).dram
      = (x.dram.decay x.params (x.t + x.params.cSt)).addrStore x.params (x.t + x.params.cSt) := rfl
    rw [this, hd]; exact ⟨rfl, rfl, rfl⟩
  | stA8 v =>
    simp [storesOf, MicroOp.pinLine, MicroOp.cycles] at h; subst h
    have : (x.perform (.stA8 v)).dram
      = (x.dram.decay x.params (x.t + x.params.cA8)).a8Store x.params (x.t + x.params.cA8) := rfl
    rw [this, hd]; exact ⟨rfl, rfl, rfl⟩
  | stDin v =>
    simp [storesOf, MicroOp.pinLine, MicroOp.cycles] at h; subst h
    have : (x.perform (.stDin v)).dram
      = (x.dram.decay x.params (x.t + x.params.cDin)).dinStore x.params (x.t + x.params.cDin) := rfl
    rw [this, hd]; exact ⟨rfl, rfl, rfl⟩
  | stCtrl v => simp [storesOf, MicroOp.pinLine] at h
  | nop => simp [storesOf, MicroOp.pinLine] at h
  | sample => simp [storesOf, MicroOp.pinLine] at h

/-- Lists alike in the lines they store to and in their times make the same pin stores. -/
theorem storesOf_lines (p : Params) (t : Nat) (as bs : List MicroOp)
    (h : as.map (fun m => (m.pinLine, m.cycles p)) = bs.map (fun m => (m.pinLine, m.cycles p))) :
    storesOf p t as = storesOf p t bs ∧ opsCycles p as = opsCycles p bs := by
  induction as generalizing t bs with
  | nil => cases bs with
    | nil => exact ⟨rfl, rfl⟩
    | cons b bs => simp at h
  | cons a as ih => cases bs with
    | nil => simp at h
    | cons b bs =>
      obtain ⟨h0, h3⟩ := List.cons.inj h
      obtain ⟨h1, h2⟩ := Prod.mk.inj h0
      simp only [storesOf, opsCycles, h1, h2]
      exact ⟨by rw [(ih (t + b.cycles p) bs h3).1], by rw [(ih 0 bs h3).2]⟩

/-- RC says the row of a REFRESH and no time. -/
theorem storesOf_rc (cmd : Instr) (p : Params) (rc rc' : Byte) (t : Nat) :
    storesOf p t (microOps cmd p rc) = storesOf p t (microOps cmd p rc')
      ∧ opsCycles p (microOps cmd p rc) = opsCycles p (microOps cmd p rc') := by
  apply storesOf_lines
  cases cmd <;> simp [microOps, refreshOps, MicroOp.pinLine, MicroOp.cycles]

end Sys2Proof.Laws
end

