-- ==== Sys2Proof/Laws/Between.lean ====
section
/-! SUPPORT. What an operation in which no cycle is in violation leaves of one cell whose row keeps its credit
(20_memory.md R46, R49), and what a run of such operations leaves of it. -/

namespace Sys2Proof.Laws

open Sys2Proof.Machine

/-- A cell whose row's credit has not run out keeps its value (R46). -/
theorem decay_read_kept {p : Params} {τ c : Nat} {d : Dram}
    (h : ∀ e ∈ d.lastref, e.1 = cellRow c → expired p τ e.2 = false) :
    Memory.read c (d.decay p τ).cells = Memory.read c d.cells := by
  rw [decay_read, if_neg]
  rintro ha
  obtain ⟨e, he, hr⟩ := List.any_eq_true.1 ha
  obtain ⟨he, hx⟩ := List.mem_filter.1 he
  rw [h e he (by simpa using hr)] at hx
  cases hx

theorem expired_mono {p : Params} {τ τ' e : Nat} (hle : τ ≤ τ') (h : expired p τ' e = false) : expired p τ e = false := by
  simp only [expired, exceeds, decide_eq_false_iff_not, Nat.not_lt] at h ⊢
  exact Nat.le_trans (Nat.mul_le_mul_right _ (by omega)) h

theorem rowKept_mono {s : State} {c τ τ' : Nat} (hle : τ ≤ τ') (h : s.rowKept c τ') : s.rowKept c τ :=
  fun e he hr => expired_mono hle (h e he hr)

/-- What an operation leaves of one cell and of the DRAM's readiness, `cells` telling the cell's value. -/
structure Spared (s : State) (c : Nat) (cells : List Host.Cell) (d : Dram) : Prop where
  rlat : d.rlat = none
  clat : d.clat = none
  drives : ∀ v ∈ d.drives, v.rise.isSome
  wake : s.dram.wake ≤ d.wake
  cell : Memory.read c d.cells = Memory.read c cells

/-- A data cycle that ends well. -/
theorem data_spares (s : State) (mode : CasMode) (row col : Byte) (rh ch : Option Bit) (τE c : Nat) (b : Bool)
    (hle : casAt s rh ch ≤ τE) (hk : s.rowKept c τE)
    (hb : (brokenAtCas s mode rh ch || b || inHold s.params τE (rasAt s rh) s.params.tRas) = false) :
    Spared s c (cellsAfter s mode row col rh ch)
      ((casClosed τE b ((casDram s mode row col rh ch).decay s.params τE)).rasRise s.params τE) := by
  rw [rasRise_well _ _ _ ⟨rowOf s row rh, rasAt s rh⟩ rfl hb]
  have h1 := decay_read_kept (rowKept_mono hle hk)
  have h2 : Memory.read c ((casDram s mode row col rh ch).decay s.params τE).cells
      = Memory.read c (casDram s mode row col rh ch).cells :=
    decay_read_kept (fun e he hr => hk e (List.mem_filter.1 he).1 hr)
  refine ⟨rfl, rfl, fun v hv => ?_, ?_, ?_⟩
  · obtain ⟨w, _, rfl⟩ := List.mem_map.1 hv
    exact close_rise _ _
  · show s.dram.wake ≤ if _ then s.dram.wake + 1 else s.dram.wake
    split
    · exact Nat.le_succ _
    · exact Nat.le_refl _
  · refine h2.trans ?_
    cases mode with
    | read => exact h1
    | write =>
      show Memory.read c (Memory.write _ _ (s.dram.decay _ _).cells) = Memory.read c (Memory.write _ _ _)
      by_cases hc : c = cellOf s row col rh ch
      · rw [hc, read_write_same, read_write_same]
      · rw [read_write_other hc, read_write_other hc, h1]

/-- The cells an operation leaves while nothing decays (R37, R41). -/
def cellsLeft (s : State) (i : Instr) : List Host.Cell :=
  match i with
  | .write row col rh ch => cellsAfter s .write row col rh ch
  | .read _ _ _ _ => s.dram.cells
  | .refresh => s.dram.cells
  | .rasonly _ _ => s.dram.cells
  | .idle => s.dram.cells
  | .wait _ => s.dram.cells
  | .setdin _ => s.dram.cells
  | .errpulse => s.dram.cells

/-- An operation that breaks nothing, the DRAM awake. -/
theorem ops_spares (s : State) (i : Instr) (c : Nat) (hq : s.quiet) (hw : s.params.nWake ≤ s.dram.wake)
    (hb : s.breaks i = false) (hU : s.untouched (s.ownStores i)) (hk : s.rowKept c (s.t + opCycles s.params i)) :
    Spared s c (cellsLeft s i) (s.runOps (microOps i s.params s.rc)).dram := by
  have hw' : decide (s.dram.wake < s.params.nWake) = false := by simpa using hw
  have hd {τ : Nat} (h : τ ≤ s.t + opCycles s.params i) := decay_read_kept (rowKept_mono h hk)
  have only (row : Byte) (rh : Option Bit) (hi : i = .rasonly row rh ∨ (i = .refresh ∧ row = s.rc ∧ rh = none))
      (hv : (rowBreaks s rh || inHold s.params (s.t + opCycles s.params i) (rasAt s rh) s.params.tRas) = false) :
      Spared s c s.dram.cells (s.runOps (microOps i s.params s.rc)).dram := by
    have h := runOps_rasOnly s row rh hq.1 (rasOnly_untouched hi hU)
    rw [rasOnlyOps_eq _ _ _ _ _ hi]
    dsimp only at h
    rw [rasOnly_end s i row rh hi, rasRise_well _ _ _ ⟨rowOf s row rh, rasAt s rh⟩ rfl hv] at h
    rw [h]
    refine ⟨rfl, quiet_clat hq, quiet_drives hq, ?_, hd (Nat.le_refl _)⟩
    show s.dram.wake ≤ if _ then s.dram.wake + 1 else s.dram.wake
    split
    · exact Nat.le_succ _
    · exact Nat.le_refl _
  have still (τ : Nat) (h : τ ≤ s.t + opCycles s.params i) : Spared s c s.dram.cells (s.dram.decay s.params τ) :=
    ⟨quiet_rlat hq, quiet_clat hq, quiet_drives hq, Nat.le_refl _, hd h⟩
  cases i with
  | read row col rh ch =>
    have h := runOps_read s row col rh ch hq.1 hU
    simp only [microOps]
    rw [h]
    exact data_spares s .read row col rh ch _ c _ (casAt_le_read s row col rh ch) hk (by
      rw [read_breaks_eq, hb, hw']; rfl)
  | write row col rh ch =>
    have h := runOps_write s row col rh ch hq.1 hU
    simp only [microOps]
    rw [h]
    exact data_spares s .write row col rh ch _ c _ (casAt_le_write s row col rh ch) hk (by
      rw [write_breaks_eq, hb, hw']; rfl)
  | refresh => exact only s.rc none (.inr ⟨rfl, rfl, rfl⟩) hb
  | rasonly row rh => exact only row rh (.inl rfl) hb
  | idle =>
    have : (s.runOps (microOps .idle s.params s.rc)).dram = s.dram.decay s.params (s.t + s.params.cSt) := by
      show Dram.edges _ _ s.ctrl _ _ _ _ _ = _
      rw [hq.1]; rfl
    rw [this]; exact still _ (Nat.le_refl _)
  | wait n =>
    have : (s.runOps (microOps (.wait n) s.params s.rc)).dram
      = if n.toNat = 0 then s.dram else s.dram.decay s.params (s.t + n.toNat) := by
      rw [show microOps (.wait n) s.params s.rc = waitOps n.toNat from rfl, runOps_wait]
    rw [this]; split
    · exact ⟨quiet_rlat hq, quiet_clat hq, quiet_drives hq, Nat.le_refl _, rfl⟩
    · exact still _ (Nat.le_refl _)
  | setdin v =>
    have : (s.runOps (microOps (.setdin v) s.params s.rc)).dram
      = (s.dram.decay s.params (s.t + s.params.cDin)).dinStore s.params (s.t + s.params.cDin) := rfl
    rw [this, dinStore_unhit _ _ (s.dram.decay _ _) (fun c hc => hU c hc _ (by
      simp [State.ownStores, microOps, setdinOps, storesOf, MicroOp.pinLine, MicroOp.cycles]))]
    have h := still (s.t + s.params.cDin) (Nat.le_refl _)
    exact ⟨h.rlat, h.clat, h.drives, h.wake, h.cell⟩
  | errpulse =>
    have : (s.runOps (microOps .errpulse s.params s.rc)).dram
      = s.dram.decay s.params (s.t + opCycles s.params .errpulse) := by
      have h1 : ((s.perform (.stCtrl .err)).dram = s.dram.decay s.params (s.t + s.params.cSt)) := by
        show Dram.edges _ _ s.ctrl _ _ _ _ _ = _
        rw [hq.1]; rfl
      have hl : microOps .errpulse s.params s.rc = .stCtrl .err :: (waitOps s.params.dErr ++ [.stCtrl .default]) := rfl
      have h2 := wait_decay (s.perform (.stCtrl .err)) s.params.dErr (τ := s.t + opCycles s.params .errpulse) (by
        show s.t + s.params.cSt + _ ≤ _
        simp only [opCycles]; omega)
      have e1 : (s.perform (.stCtrl .err)).ctrl = CtrlValue.err.bits := rfl
      have e2 : (s.perform (.stCtrl .err)).t = s.t + s.params.cSt := rfl
      have e3 : (s.perform (.stCtrl .err)).params = s.params := rfl
      rw [hl, runOps_cons, runOps_append]
      generalize s.perform (.stCtrl .err) = x at *
      have e4 : (x.runOps (waitOps s.params.dErr)).ctrl = x.ctrl := by rw [runOps_wait]
      have e5 : (x.runOps (waitOps s.params.dErr)).t = x.t + s.params.dErr := by rw [runOps_wait]
      have e6 : (x.runOps (waitOps s.params.dErr)).params = x.params := by rw [runOps_wait]
      show (Dram.edges _ _ (x.runOps _).ctrl _ _ _ _ _) = _
      have e7 : s.t + s.params.cSt + s.params.dErr + s.params.cSt = s.t + opCycles s.params .errpulse := by
        simp only [opCycles]; omega
      rw [e4, e5, e6, e1, e2, e3, e7]
      show Dram.decay _ _ _ = _
      rw [e3, h1, decay_decay _ (by simp only [opCycles]; omega)] at h2
      exact h2
    rw [this]; exact still _ (Nat.le_refl _)

/-- From between operations to between operations, one cell spared. -/
theorem exec_spares {s t : State} {i : Instr} {c : Nat} (hq : s.quiet) (hw : s.params.nWake ≤ s.dram.wake)
    (hb : s.breaks i = false) (hU : s.untouched (s.ownStores i)) (hk : s.rowKept c (s.t + opCycles s.params i))
    (h : exec i s = .next t) :
    t.quiet ∧ s.dram.wake ≤ t.dram.wake ∧ Memory.read c t.dram.cells = Memory.read c (cellsLeft s i) := by
  obtain ⟨h1, h2, h3, h4, h5⟩ := ops_spares (s.beginOp i) i c hq hw hb hU hk
  have e : t.dram = ((s.beginOp i).runOps (microOps i s.params s.rc)).dram := by rw [(exec_next h).2, endOp_dram]
  have e' : ((s.beginOp i).runOps (microOps i (s.beginOp i).params (s.beginOp i).rc)).dram = t.dram := e.symm
  rw [e'] at h1 h2 h3 h4 h5
  exact ⟨exec_quiet hq h h1 h2 h3, h4, h5.trans (by cases i <;> rfl)⟩

theorem quiet_pass {s : State} (g : Nat) (h : s.quiet) : (s.pass g).quiet :=
  ⟨h.1, h.2.1, notAfter_decay _ _ _ (notAfter_mono (Nat.le_add_right _ _) h.2.2)⟩

theorem rowKept_pass {s : State} {c τ : Nat} (g : Nat) (h : s.rowKept c τ) : (s.pass g).rowKept c τ :=
  fun e he hr => h e (List.mem_filter.1 he).1 hr

/-- A gap leaves the cell alone (R73). -/
theorem pass_cell {s : State} {c τ : Nat} {g : Nat} (h : s.rowKept c τ) (hle : s.t + g ≤ τ) :
    Memory.read c (s.pass g).dram.cells = Memory.read c s.dram.cells := decay_read_kept (rowKept_mono hle h)

/-- What may come between the WRITE and the READ of a cell leaves it as it was, and the DRAM awake (R49). -/
theorem leadsTo_spares {c : Nat} (l : List (Nat × Instr)) {s t : State} (hq : s.quiet)
    (hw : s.params.nWake ≤ s.dram.wake) (h : State.leadsTo c l s t) :
    t.quiet ∧ t.params = s.params ∧ s.dram.wake ≤ t.dram.wake ∧ Memory.read c t.dram.cells = Memory.read c s.dram.cells := by
  induction l generalizing s with
  | nil => cases h; exact ⟨hq, rfl, Nat.le_refl _, rfl⟩
  | cons x l ih =>
    obtain ⟨g, i⟩ := x
    obtain ⟨⟨hb, hU, hk, hn⟩, u, hx, hl⟩ := h
    obtain ⟨a1, a2, a3⟩ := exec_spares (quiet_pass g hq) hw hb hU (rowKept_pass g hk) hx
    have hp : u.params = s.params := exec_params (s := s.pass g) hx
    obtain ⟨b1, b2, b3, b4⟩ := ih a1 (by rw [hp]; exact Nat.le_trans hw a2) hl
    refine ⟨b1, b2.trans hp, Nat.le_trans a2 b3, b4.trans (a3.trans ?_)⟩
    have hc : Memory.read c (cellsLeft (s.pass g) i) = Memory.read c (s.pass g).dram.cells := by
      cases i
      case write row col rh ch => exact read_write_other (Ne.symm (hn row col rh ch rfl)) _ _
      all_goals rfl
    rw [hc]
    exact pass_cell hk (Nat.le_add_right _ _)

/-- A READ that is not in violation returns its cell's bit while its row's credit lasts (R42). -/
theorem read_returns (s : State) (row col : Byte) (rh ch : Option Bit) (b : Bit) (hq : s.quiet)
    (hw : s.params.nWake ≤ s.dram.wake) (hb : s.breaks (.read row col rh ch) = false)
    (hU : s.untouched (s.ownStores (.read row col rh ch) ++ s.laterStores (.read row col rh ch)))
    (hno : ∀ e ∈ s.laterStores (.read row col rh ch), s.hitBy (.read row col rh ch) e = false)
    (hk : s.rowKept (cellOf s row col rh ch) (s.t + opCycles s.params (.read row col rh ch)))
    (hcell : Memory.read (cellOf s row col rh ch) s.dram.cells = some b) :
    ∃ t, exec (.read row col rh ch) s = .next t ∧ t.readSample = some b := by
  refine ⟨_, exec_run hq.1, ?_⟩
  have hle := casAt_le_read s row col rh ch
  have hpin : s.t + s.params.lIn ≤ casAt s rh ch + s.params.dCac := by
    have hbb := hb
    simp only [State.breaks, Bool.or_eq_false_iff, decide_eq_false_iff_not] at hbb
    have := casAt_le s rh ch; omega
  have h1 := read_sample s row col rh ch hpin
  have h2 := read_level s row col rh ch hq (fun c hc e he => hU c hc e (List.mem_append.2 (.inl he))) hpin
  have hsp : spoiledLater s (.read row col rh ch) = false := by
    rw [Bool.eq_false_iff]
    intro h
    obtain ⟨c, hc, h⟩ := List.any_eq_true.1 h
    obtain ⟨e, he, h⟩ := List.any_eq_true.1 h
    rw [hU c hc e (List.mem_append.2 (.inr he))] at h; cases h
  have hlat : (s.laterStores (.read row col rh ch)).any (s.hitBy (.read row col rh ch)) = false := by
    rw [Bool.eq_false_iff]
    intro h
    obtain ⟨e, he, h⟩ := List.any_eq_true.1 h
    rw [hno e he] at h; cases h
  have hst : staleAt s row rh ch = false := by
    simp only [staleAt]
    cases hg : readRef s row rh ch with
    | none => rfl
    | some g =>
      have hm := (List.mem_filter.1 (get_mem _ _ _ hg)).1
      have hx := hk _ hm (cellRow_cellNo _ _ _).symm
      have hle' : casAt s rh ch + s.params.dCac - s.params.lIn ≤ s.t + opCycles s.params (.read row col rh ch) := by
        rw [opCycles_read]; omega
      exact expired_mono hle' hx
  dsimp only at h1 h2
  have hw' : decide (s.dram.wake < s.params.nWake) = false := by simpa using hw
  rw [decay_read_kept (rowKept_mono hle hk), hcell] at h2
  simp only [hb, hw', hsp, hlat, hst] at h2
  rw [h2] at h1
  exact h1.1

end Sys2Proof.Laws
end

