-- ==== Sys2Proof/Laws/Invariants.lean ====
section
/-! SUPPORT. What each operation of the DRAM keeps of the two invariants that tie it to the lines and to its credits:
latches follow the lines (20_memory.md R40-R44), and a cell of a row without a credit is `?` (R46). -/

namespace Sys2Proof.Laws

open Sys2Proof.Machine

/-- What `State.latchInv` says of the DRAM, the levels of RAS and CAS given. -/
def latch (ras cas : Bool) (d : Dram) : Prop := d.rlat.isSome = !ras ∧ d.clat.isSome = !cas
    ∧ (d.clat = none → ∀ v ∈ d.drives, v.rise.isSome)

/-- Every CTRL store at its place keeps the latches with the lines (R40-R44). -/
theorem latch_edges (p : Params) (τ : Nat) (c : Lines) (v : CtrlValue) (a : Byte) (b x : Bit) (d : Dram)
    (h : latch (Ctrl.rasN c) (Ctrl.casN c) d)
    (hl : mayFollow c v = true) (hc : ∃ w : CtrlValue, c = w.bits) :
    latch (Ctrl.rasN v.bits) (Ctrl.casN v.bits) (d.edges p τ c v.bits a b x) := by
  obtain ⟨w, rfl⟩ := hc
  have hclose (l : List Drive) : ∀ v ∈ l.map (Drive.close τ), v.rise.isSome = true := by
    intro v hv; obtain ⟨v', _, rfl⟩ := List.mem_map.1 hv; cases h : v'.rise <;> simp [Drive.close, h]
  have hfall (d : Dram) (h : latch true true d) : latch false true (d.rasFall p τ true a b) := ⟨rfl, h.2.1, h.2.2⟩
  have hcas (d : Dram) (wn) (h : latch false true d) : latch false false (d.casFall p τ false wn a b x) := by
    obtain ⟨r, hr⟩ := Option.isSome_iff_exists.1 h.1
    unfold Dram.casFall; rw [hr]; exact ⟨by simp [hr], rfl, fun hh => by simp at hh⟩
  have hcr (d : Dram) (h : latch false false d) : latch false true (d.casRise p τ) := ⟨h.1, rfl, fun _ => hclose _⟩
  have hrr (d : Dram) (h : latch false true d) : latch true true (d.rasRise p τ) := by
    refine ⟨by simp, by simpa using h.2.1, fun hn v hv => h.2.2 (by simpa using hn) v ?_⟩
    unfold Dram.rasRise at hv
    cases hr : d.rlat with
    | none => rw [hr] at hv; exact hv
    | some r =>
      rw [hr] at hv; dsimp only at hv; split at hv
      · exact (List.mem_filter.1 hv).1
      · exact hv
  cases w <;> cases v <;> first
    | (exfalso; revert hl; decide)
    | exact h
    | exact hfall _ h
    | exact hcas _ _ h
    | exact hrr _ h
    | exact hfall _ h
    | exact hrr (d.weRise p τ) h
    | exact (show latch false true (d.rasFall p τ true a b) from hfall _ h)
    | exact (show latch false true ((d.rasFall p τ true a b).weFall τ) from hfall _ h)
    | exact (show latch false false (d.casFall p τ false true a b x) from hcas _ _ h)
    | exact (show latch false false (d.casFall p τ false false a b x) from hcas _ _ h)
    | exact hrr _ (hcr (d.weRise p τ) h)

/-- What `State.creditInv` says of the DRAM at time `t`. -/
def credit (p : Params) (t : Nat) (d : Dram) : Prop := (1 ≤ d.wake → atLeast p t p.tPwr = true)
    ∧ (∀ r, d.rlat = some r → 1 ≤ d.wake → atLeast p r.rfall p.tPwr = true)
    ∧ ∀ a b, Memory.read a d.cells = some b → (Sparse.get (cellRow a) d.lastref).isSome = true
      ∨ ∃ r, d.rlat = some r ∧ refRow r.row = cellRow a
        ∧ (d.watch.viol = false → atLeast p r.rfall p.tPwr = true)

theorem credit_flag {p : Params} {t : Nat} {d : Dram} (b : Bool) (h : credit p t d) : credit p t (d.flag b) := by
  refine ⟨h.1, h.2.1, fun a x hx => ?_⟩
  rcases h.2.2 a x hx with h | ⟨r, h1, h2, h3⟩
  · exact .inl h
  · exact .inr ⟨r, h1, h2, fun hv => h3 (by simp at hv; exact hv.1)⟩

/-- Time that passes keeps it. -/
theorem credit_mono {p : Params} {t t' : Nat} {d : Dram} (hle : t ≤ t') (h : credit p t d) : credit p t' d :=
  ⟨fun hw => atLeast_mono (h.1 hw) hle, h.2⟩

/-- A listed entry the filter keeps is still found. -/
theorem get_filter_of {α : Type} (k : Nat) (v : α) (f : Nat × α → Bool) (l : List (Nat × α))
    (h : Sparse.get k l = some v)
    (hf : f (k, v) = true) : Sparse.get k (l.filter f) = some v := by
  induction l with
  | nil => cases h
  | cons e es ih =>
    simp only [Sparse.get] at h
    split at h
    · next hk =>
      cases h
      have he : e = (k, e.2) := by rw [← hk]
      rw [he] at *; simp [hf, Sparse.get]
    · next hk => simp only [List.filter_cons]; split <;> simp [Sparse.get, hk, ih h]

/-- Decay takes credits and cells away together (R46). -/
theorem credit_decay {p : Params} {t : Nat} {d : Dram} (τ : Nat) (h : credit p t d) : credit p t (d.decay p τ) := by
  refine ⟨h.1, h.2.1, fun a x hx => ?_⟩
  have h0 := decay_onlyFades p τ d a x hx
  rw [decay_read] at hx
  rcases h.2.2 a x h0 with h | ⟨r, h1, h2, h3⟩
  · left
    obtain ⟨v, hv⟩ := Option.isSome_iff_exists.1 h
    rw [decay_lastref]
    rw [get_filter_of _ _ _ _ hv]; rfl
    cases he : expired p τ v with
    | false => rfl
    | true =>
      exfalso
      have hm := get_mem _ _ _ hv
      have : (d.lastref.filter (fun e => expired p τ e.2)).any (fun e => e.1 == cellRow a) = true :=
        List.any_eq_true.2 ⟨_, List.mem_filter.2 ⟨hm, he⟩, beq_self_eq_true _⟩
      rw [if_pos this] at hx; cases hx
  · exact .inr ⟨r, h1, h2, h3⟩

theorem credit_lateHit {p : Params} {t : Nat} {d : Dram} (e : PinStore)
    (h : credit p t d) : credit p t (d.lateHit p e) := by
  unfold Dram.lateHit; split
  · have hw := foldl_takeBack_wake p e.teff (d.watch.pend.filter (Past.hitBy p e)) d
    have hr := (foldl_takeBack p e.teff (d.watch.pend.filter (Past.hitBy p e)) d).2.1
    refine ⟨fun h1 => h.1 (Nat.le_trans h1 hw), fun r hr' h1 => h.2.1 r (by rw [← hr]; exact hr')
        (Nat.le_trans h1 hw), fun a b hb => by simp at hb⟩
  · exact h

theorem credit_pinStore {p : Params} {t : Nat} {d : Dram} (e : PinStore) (h : credit p t d) :
    credit p t (d.pinStore p e) := credit_lateHit e (credit_flag _ h)

theorem credit_rasFall {p : Params} {t : Nat} {d : Dram} (c : Bool) (a : Byte) (b : Bit) (hn : d.rlat = none)
    (h : credit p t d) : credit p t (d.rasFall p t c a b) := by
  refine ⟨h.1, fun r hr h1 => ?_, fun a x hx => ?_⟩
  · cases hr; exact h.1 h1
  · rcases h.2.2 a x hx with h | ⟨r, h1, _⟩
    · exact .inl h
    · rw [hn] at h1; cases h1

/-- An early write puts its bit into the latched row, and only an awake DRAM's cycle is not in violation (R47). -/
theorem credit_casFall {p : Params} {t : Nat} {d : Dram} (hnw : 1 ≤ p.nWake) (τ : Nat) (rn wn : Bool) (a : Byte)
    (b x : Bit)
    (h : credit p t d) : credit p t (d.casFall p τ rn wn a b x) := by
  unfold Dram.casFall; split
  · next r hr =>
    have hf := credit_flag (casFallBreaks p τ r.rfall (if wn then .read else .write) d) h
    refine ⟨hf.1, hf.2.1, fun a' y hy => ?_⟩
    cases wn
    · simp only [Bool.false_eq_true, if_false] at hy ⊢
      by_cases ha : a' = cellNo p.kind r.row (indexOf p.kind a b)
      · subst ha; right
        refine ⟨r, hr, (cellRow_cellNo _ _ _).symm, fun hv => h.2.1 r hr ?_⟩
        simp [casFallBreaks] at hv; omega
      · rw [read_write_other ha] at hy
        exact hf.2.2 a' y hy
    · exact hf.2.2 a' y hy
  · exact ⟨h.1, h.2.1, fun a b hb => by simp at hb⟩

/-- A cycle that ends well credits its row; one that does not empties the cells (R44, R48). -/
theorem credit_rasRise {p : Params} {t : Nat} {d : Dram} (hr : ∀ r, d.rlat = some r → r.rfall ≤ t)
    (h : credit p t d) : credit p t (d.rasRise p t) := by
  unfold Dram.rasRise
  cases hrl : d.rlat with
  | none =>
    refine ⟨h.1, (fun r hr => by cases hr), fun a b hb => ?_⟩
    rcases h.2.2 a b hb with h | ⟨r, h1, _⟩
    · exact .inl h
    · rw [hrl] at h1; cases h1
  | some r =>
    dsimp only; split
    · exact ⟨h.1, fun r hr => by simp at hr, fun a b hb => by simp [Dram.endViolating] at hb⟩
    · next hv =>
      refine ⟨fun hw => ?_, fun r hr => by simp at hr, fun a b hb => ?_⟩
      · simp only [Dram.endWell] at hw
        split at hw
        · next hc => simp at hc; exact atLeast_mono hc.2 (hr r hrl)
        · exact h.1 hw
      · left
        simp only [Dram.endWell]
        simp at hv
        rcases h.2.2 a b hb with h | ⟨r', h1, h2, h3⟩
        · split
          · by_cases hk : cellRow a = refRow r.row
            · rw [hk, get_put_same]; rfl
            · rw [get_put_other _ _ _ hk]; exact h
          · exact h
        · rw [hrl] at h1; cases h1
          have e1 := h3 hv.1
          have e2 : atLeast p (t - r.rfall) p.tRas = true := by simpa [inHold] using hv.2
          simp [e1, e2, ← h2]

end Sys2Proof.Laws
end

