-- ==== Sys2Proof/Laws/Pending.lean ====
section
/-! SUPPORT. What late stores take back (20_memory.md R48, log entry 8): several ended cycles at once, the order of those
remembered, and what the stores of a list leave of the cycles, the credits and the cells from before it. -/

namespace Sys2Proof.Laws

open Sys2Proof.Machine

/-! ### Taking back several ended cycles -/

/-- What of an ended cycle never changes. -/
def pastKey (c : Past) : Nat × Nat × Option (Nat × CasMode) × Nat × Bool := (c.row, c.rfall, c.cas, c.rise, c.credited)

theorem pastKey_without (c x : Past) : pastKey (c.without x) = pastKey x := by simp [pastKey]

theorem hitBy_key {p : Params} {e : PinStore} {c x : Past} (h : pastKey c = pastKey x) : c.hitBy p e = x.hitBy p e := by
  simp only [pastKey, Prod.mk.injEq] at h
  simp only [Past.hitBy, h.2.1, h.2.2.1]

/-- A cycle remembered, after the cycles `cs` are taken back. -/
def withoutAll (cs : List Past) (x : Past) : Past := cs.foldl (fun x c => c.without x) x

theorem pastKey_withoutAll (cs : List Past) (x : Past) : pastKey (withoutAll cs x) = pastKey x := by
  induction cs generalizing x with
  | nil => rfl
  | cons c cs ih => exact (ih (c.without x)).trans (pastKey_without c x)

theorem withoutAll_row (cs : List Past) (x : Past) : (withoutAll cs x).row = x.row :=
  congrArg Prod.fst (pastKey_withoutAll cs x)

theorem withoutAll_rise (cs : List Past) (x : Past) : (withoutAll cs x).rise = x.rise :=
  congrArg (fun k => k.2.2.2.1) (pastKey_withoutAll cs x)

/-- What is remembered after the cycles `cs` are taken back. -/
theorem foldl_takeBack_pend (p : Params) (τ : Nat) (cs : List Past) (d : Dram) :
    (cs.foldl (Dram.takeBack p τ) d).watch.pend = d.watch.pend.map (withoutAll cs) := by
  induction cs generalizing d with
  | nil => exact (List.map_id _).symm
  | cons c cs ih =>
    rw [List.foldl_cons, ih, takeBack_watch, List.map_map]
    rfl

theorem foldl_takeBack_wake_eq (p : Params) (τ : Nat) (cs : List Past) (d : Dram) :
    (cs.foldl (Dram.takeBack p τ) d).wake = d.wake - cs.countP Past.credited := by
  induction cs generalizing d with
  | nil => rfl
  | cons c cs ih =>
    rw [List.foldl_cons, ih, List.countP_cons]
    simp only [Dram.takeBack]
    split <;> omega

/-- A credit after one cycle is taken back: the one before it, where it is its own, else what it was. -/
theorem get_takeBack (p : Params) (τ r : Nat) (c : Past) (d : Dram) :
    Sparse.get r (d.takeBack p τ c).lastref
      = if c.credited ∧ r = c.row ∧ Sparse.get r d.lastref = some c.rise
        then c.refBefore.filter (fun e => !expired p τ e) else Sparse.get r d.lastref := by
  simp only [Dram.takeBack]
  by_cases hr : r = c.row
  · subst hr
    by_cases h : c.credited = true ∧ Sparse.get c.row d.lastref = some c.rise
    · rw [if_pos (by simp [h]), if_pos (by simp [h]), get_set_same]
    · rw [if_neg (by simpa using h), if_neg (by simpa using h)]
  · rw [if_neg (c := c.credited ∧ r = c.row ∧ _) (by simp [hr])]
    split
    · exact get_set_other _ _ hr _
    · rfl

/-- A credit no cycle of `cs` falls back on is not brought back by taking them back. -/
theorem get_foldl_takeBack_ne (p : Params) (τ r v : Nat) (cs : List Past) (d : Dram)
    (h : Sparse.get r d.lastref ≠ some v) (hc : ∀ c ∈ cs, c.row = r → c.refBefore ≠ some v) :
    Sparse.get r (cs.foldl (Dram.takeBack p τ) d).lastref ≠ some v := by
  induction cs generalizing d with
  | nil => exact h
  | cons c cs ih =>
    refine ih _ ?_ (fun c' h' => hc c' (List.mem_cons_of_mem _ h'))
    rw [get_takeBack]
    split
    · next hx =>
      intro hf
      refine hc c List.mem_cons_self hx.2.1.symm ?_
      cases hb : c.refBefore with
      | none => rw [hb] at hf; cases hf
      | some w =>
        rw [hb] at hf
        simp only [Option.filter] at hf
        split at hf
        · exact hf
        · cases hf
    · exact h

/-- What a cycle falls back on after others are taken back: what it did, or what one of those of its row did. -/
theorem refBefore_withoutAll_ne (v : Nat) (cs : List Past) (x : Past) (h : x.refBefore ≠ some v)
    (hc : ∀ c ∈ cs, c.row = x.row → c.refBefore ≠ some v) : (withoutAll cs x).refBefore ≠ some v := by
  induction cs generalizing x with
  | nil => exact h
  | cons c cs ih =>
    refine ih (c.without x) ?_ (fun c' h' hr => hc c' (List.mem_cons_of_mem _ h') (by simpa using hr))
    unfold Past.without
    split
    · next hx =>
      simp only [Bool.and_eq_true, beq_iff_eq] at hx
      exact hc c List.mem_cons_self hx.1.2.symm
    · exact h

/-- Newest first, each with an older credit to fall back on. -/
def Aged (cs : List Past) : Prop :=
  cs.Pairwise (fun x y => y.rise < x.rise) ∧ ∀ c ∈ cs, ∀ e, c.refBefore = some e → e < c.rise

theorem aged_tail {c : Past} {cs : List Past} (h : Aged (c :: cs)) : Aged cs :=
  ⟨(List.pairwise_cons.1 h.1).2, fun x hx => h.2 x (List.mem_cons_of_mem _ hx)⟩

/-- Older cycles do not fall back on the credit of a newer one. -/
theorem aged_older {c : Past} {cs : List Past} (h : Aged (c :: cs)) : ∀ x ∈ cs, x.refBefore ≠ some c.rise := by
  intro x hx hb
  have h1 := (List.pairwise_cons.1 h.1).1 x hx
  have h2 := h.2 x (List.mem_cons_of_mem _ hx) _ hb
  omega

/-- The credits of the cycles taken back are gone. -/
theorem get_foldl_takeBack_gone (p : Params) (τ : Nat) (cs : List Past) (d : Dram) (ha : Aged cs) :
    ∀ c ∈ cs, c.credited = true → Sparse.get c.row (cs.foldl (Dram.takeBack p τ) d).lastref ≠ some c.rise := by
  induction cs generalizing d with
  | nil => intro c hc; cases hc
  | cons c cs ih =>
    intro x hx hcr
    rcases List.mem_cons.1 hx with rfl | hx
    · refine get_foldl_takeBack_ne p τ _ _ cs _ ?_ (fun c' h' _ => aged_older ha c' h')
      rw [get_takeBack]
      split
      · intro hf
        cases hb : x.refBefore with
        | none => rw [hb] at hf; cases hf
        | some w =>
          rw [hb] at hf
          simp only [Option.filter] at hf
          split at hf
          · cases hf
            have := ha.2 x List.mem_cons_self _ hb
            omega
          · cases hf
      · next hn => intro h; exact hn ⟨hcr, rfl, h⟩
    · exact ih _ (aged_tail ha) x hx hcr

/-- No cycle remembered falls back on them. -/
theorem refBefore_withoutAll_gone (cs : List Past) (ha : Aged cs) :
    ∀ c ∈ cs, c.credited = true → ∀ x : Past, x.row = c.row → (withoutAll cs x).refBefore ≠ some c.rise := by
  induction cs with
  | nil => intro c hc; cases hc
  | cons c cs ih =>
    intro y hy hcr x hx
    rcases List.mem_cons.1 hy with rfl | hy
    · refine refBefore_withoutAll_ne _ cs (y.without x) ?_ (fun c' h' _ => aged_older ha c' h')
      unfold Past.without
      split
      · intro hb
        have := ha.2 y List.mem_cons_self _ hb
        omega
      · next hn =>
        intro hb
        exact hn (by simp [hcr, hx, hb])
    · exact ih (aged_tail ha) y hy hcr (c.without x) (by simpa using hx)

/-- Each still falls back on an older credit than its own. -/
theorem refBefore_withoutAll_lt (cs : List Past) (hc : ∀ c ∈ cs, ∀ e, c.refBefore = some e → e < c.rise) (x : Past)
    (h : ∀ e, x.refBefore = some e → e < x.rise) : ∀ e, (withoutAll cs x).refBefore = some e → e < x.rise := by
  induction cs generalizing x with
  | nil => exact h
  | cons c cs ih =>
    have h' := ih (fun c' h' => hc c' (List.mem_cons_of_mem _ h')) (c.without x) (fun e he => by
      rw [without_rise]
      unfold Past.without at he
      split at he
      · next hx =>
        simp only [Bool.and_eq_true, beq_iff_eq] at hx
        exact Nat.lt_trans (hc c List.mem_cons_self e he) (h _ hx.2)
      · exact h e he)
    intro e he
    have := h' e he
    rwa [without_rise] at this

/-! ### The order of the cycles remembered -/

theorem pendInOrder_congr {d d' : Dram} (h : d.PendInOrder) (hp : d'.watch.pend = d.watch.pend)
    (hw : d'.wake = d.wake) : d'.PendInOrder := ⟨hp ▸ h.1, hp ▸ h.2, by rw [hp, hw]; exact h.3⟩

theorem aged_pend {d : Dram} (h : d.PendInOrder) (f : Past → Bool) : Aged (d.watch.pend.filter f) :=
  ⟨h.1.filter f, fun c hc => h.2 c (List.mem_filter.1 hc).1⟩

/-- What a late store leaves of the cycles remembered. -/
theorem lateHit_pend (p : Params) (e : PinStore) (d : Dram) (h : d.watch.pend.any (Past.hitBy p e) = true) :
    (d.lateHit p e).watch.pend = (d.watch.pend.map (withoutAll (d.watch.pend.filter (Past.hitBy p e)))).filter
      (fun c => !c.hitBy p e) := by
  unfold Dram.lateHit
  rw [if_pos h, ← foldl_takeBack_pend p e.teff]

theorem countP_split (l : List Past) (f g : Past → Bool) :
    l.countP f = l.countP (fun c => f c && g c) + (l.filter (fun c => !g c)).countP f := by
  induction l with
  | nil => rfl
  | cons a as ih =>
    simp only [List.countP_cons, List.filter_cons, ih]
    cases hg : g a <;> cases hf : f a <;> simp [hf] <;> omega

theorem countP_key {l l' : List Past} (h : l.map pastKey = l'.map pastKey) :
    l.countP Past.credited = l'.countP Past.credited := by
  have e (l : List Past) : l.countP Past.credited = (l.map pastKey).countP (fun k => k.2.2.2.2) := by
    rw [List.countP_map]; rfl
  rw [e, e, h]

theorem lateHit_wake_eq (p : Params) (e : PinStore) (d : Dram) :
    (d.lateHit p e).wake = d.wake - d.watch.pend.countP (fun c => c.credited && c.hitBy p e) := by
  have hc : (d.watch.pend.filter (Past.hitBy p e)).countP Past.credited
      = d.watch.pend.countP (fun c => c.credited && c.hitBy p e) := by
    rw [List.countP_filter]
  unfold Dram.lateHit
  split
  · rw [← hc]; exact foldl_takeBack_wake_eq _ _ _ _
  · next h =>
    have : d.watch.pend.countP (fun c => c.credited && c.hitBy p e) = 0 := by
      rw [List.countP_eq_zero]
      intro c hc hx
      exact h (List.any_eq_true.2 ⟨c, hc, by simp only [Bool.and_eq_true] at hx; exact hx.2⟩)
    rw [this]; rfl

theorem lateHit_keys (p : Params) (e : PinStore) (d : Dram) :
    (d.lateHit p e).watch.pend.map pastKey = (d.watch.pend.filter (fun c => !c.hitBy p e)).map pastKey := by
  by_cases h : d.watch.pend.any (Past.hitBy p e) = true
  · rw [lateHit_pend p e d h, List.filter_map, List.map_map]
    have e1 : ((fun c : Past => !c.hitBy p e) ∘ withoutAll (d.watch.pend.filter (Past.hitBy p e)))
        = fun c => !c.hitBy p e := by
      funext c; exact congrArg (!·) (hitBy_key (pastKey_withoutAll _ c))
    rw [e1]
    refine List.map_congr_left (fun c _ => pastKey_withoutAll _ c)
  · rw [lateHit_eq_self p e d (by simpa using h), List.filter_eq_self.2]
    intro c hc
    have : ∀ c ∈ d.watch.pend, c.hitBy p e = false := by simpa using h
    simp [this c hc]

theorem pendInOrder_lateHit (p : Params) (e : PinStore) (d : Dram) (h : d.PendInOrder) : (d.lateHit p e).PendInOrder := by
  by_cases ha : d.watch.pend.any (Past.hitBy p e) = true
  · refine ⟨?_, ?_, ?_⟩
    · rw [lateHit_pend p e d ha]
      refine List.Pairwise.filter _ (List.pairwise_map.2 (h.1.imp ?_))
      intro x y hxy
      rw [withoutAll_rise, withoutAll_rise]; exact hxy
    · rw [lateHit_pend p e d ha]
      intro c hc v hv
      obtain ⟨x, hx, rfl⟩ := List.mem_map.1 (List.mem_filter.1 hc).1
      rw [withoutAll_rise]
      exact refBefore_withoutAll_lt _ (aged_pend h _).2 x (h.2 x hx) v hv
    · rw [countP_key (lateHit_keys p e d), lateHit_wake_eq]
      have h1 := countP_split d.watch.pend Past.credited (Past.hitBy p e)
      have h2 := h.3
      omega
  · rw [lateHit_eq_self p e d (by simpa using ha)]; exact h


/-! ### What CTRL stores do to credits and to the cycles remembered -/

/-- Credits, wake-up and cycles remembered, as they were. -/
def SameCredits (d d' : Dram) : Prop :=
  d'.lastref = d.lastref ∧ d'.wake = d.wake ∧ d'.watch.pend = d.watch.pend

theorem sameCredits_casFall (p : Params) (τ : Nat) (d : Dram) (rn wn : Bool) (a : Byte) (b x : Bit) :
    SameCredits d (d.casFall p τ rn wn a b x) := by
  unfold Dram.casFall; split <;> exact ⟨rfl, rfl, rfl⟩

/-- All edges of a CTRL store before the RAS rise leave them. -/
theorem sameCredits_edges (p : Params) (τ : Nat) (d : Dram) (old new : Lines) (a : Byte) (b x : Bit) :
    ∃ d', SameCredits d d' ∧ d.edges p τ old new a b x
      = d'.onEdge (rose (Ctrl.rasN old) (Ctrl.rasN new)) (Dram.rasRise p τ) := by
  refine ⟨_, ?_, rfl⟩
  have h1 := onEdge_of (P := SameCredits d) (f := Dram.rasFall p τ (Ctrl.casN new) a b)
    (fell (Ctrl.rasN old) (Ctrl.rasN new)) ⟨rfl, rfl, rfl⟩ ⟨rfl, rfl, rfl⟩
  have h2 := onEdge_of (P := SameCredits d) (f := Dram.weFall τ) (fell (Ctrl.weN old) (Ctrl.weN new)) h1 h1
  have h3 := onEdge_of (P := SameCredits d) (f := Dram.casFall p τ (Ctrl.rasN new) (Ctrl.weN new) a b x)
    (fell (Ctrl.casN old) (Ctrl.casN new)) h2 (by
      obtain ⟨e1, e2, e3⟩ := sameCredits_casFall p τ ((d.onEdge (fell (Ctrl.rasN old) (Ctrl.rasN new))
        (Dram.rasFall p τ (Ctrl.casN new) a b)).onEdge (fell (Ctrl.weN old) (Ctrl.weN new)) (Dram.weFall τ))
        (Ctrl.rasN new) (Ctrl.weN new) a b x
      exact ⟨e1.trans h2.1, e2.trans h2.2.1, e3.trans h2.2.2⟩)
  have h4 := onEdge_of (P := SameCredits d) (f := Dram.weRise p τ) (rose (Ctrl.weN old) (Ctrl.weN new)) h3 h3
  exact onEdge_of (P := SameCredits d) (f := Dram.casRise p τ) (rose (Ctrl.casN old) (Ctrl.casN new)) h4 h4

/-- A RAS rise leaves them, or credits the latched row at its time and remembers the cycle. -/
theorem rasRise_credits (p : Params) (τ : Nat) (d : Dram) :
    SameCredits d (d.rasRise p τ) ∨ ∃ c : Past, c.rise = τ ∧ c.refBefore = Sparse.get c.row d.lastref
      ∧ (d.rasRise p τ).watch.pend = (c :: d.watch.pend).filter (Past.openAt p τ)
      ∧ (d.rasRise p τ).lastref = (if c.credited then Sparse.put c.row τ d.lastref else d.lastref)
      ∧ (d.rasRise p τ).wake = if c.credited then d.wake + 1 else d.wake := by
  unfold Dram.rasRise
  cases d.rlat with
  | none => exact .inl ⟨rfl, rfl, rfl⟩
  | some r =>
    dsimp only; split
    · exact .inl ⟨rfl, rfl, rfl⟩
    · exact .inr ⟨_, rfl, rfl, rfl, rfl, rfl⟩

/-- A CTRL store that leaves RAS low ends no cycle. -/
theorem edges_rasLow (p : Params) (τ : Nat) (d : Dram) (old new : Lines) (a : Byte) (b x : Bit)
    (h : Ctrl.rasN new = false) : SameCredits d (d.edges p τ old new a b x) := by
  obtain ⟨d', h1, h2⟩ := sameCredits_edges p τ d old new a b x
  rw [h2, show rose (Ctrl.rasN old) (Ctrl.rasN new) = false by rw [h]; cases Ctrl.rasN old <;> rfl]
  exact h1

/-- At most one credit is given by a CTRL store, at its time. -/
theorem edges_credits (p : Params) (τ : Nat) (d : Dram) (old new : Lines) (a : Byte) (b x : Bit) :
    (d.edges p τ old new a b x).wake ≤ d.wake + 1 ∧ ∀ r v, Sparse.get r (d.edges p τ old new a b x).lastref = some v →
      Sparse.get r d.lastref = some v ∨ v = τ := by
  obtain ⟨d', ⟨h1, h2, h3⟩, h4⟩ := sameCredits_edges p τ d old new a b x
  rw [h4, ← h1, ← h2]
  cases rose (Ctrl.rasN old) (Ctrl.rasN new)
  · exact ⟨Nat.le_succ _, fun r v h => .inl h⟩
  · rcases rasRise_credits p τ d' with ⟨e1, e2, _⟩ | ⟨c, _, _, _, e1, e2⟩
    · exact ⟨by rw [onEdge_true, e2]; omega, fun r v h => .inl (by rw [onEdge_true, e1] at h; exact h)⟩
    · refine ⟨by rw [onEdge_true, e2]; split <;> omega, fun r v h => ?_⟩
      rw [onEdge_true, e1] at h
      split at h
      · by_cases hr : r = c.row
        · subst hr; rw [get_put_same] at h; exact .inr (by cases h; rfl)
        · rw [get_put_other _ _ _ hr] at h; exact .inl h
      · exact .inl h

/-- A CTRL store keeps the cycles remembered in order, all before it lying before it. -/
theorem pendInOrder_edges (p : Params) (τ t : Nat) (d : Dram) (old new : Lines) (a : Byte) (b x : Bit) (hτ : t < τ)
    (hn : d.NotAfter t) (h : d.PendInOrder) : (d.edges p τ old new a b x).PendInOrder := by
  obtain ⟨d', ⟨h1, h2, h3⟩, h4⟩ := sameCredits_edges p τ d old new a b x
  have h' := pendInOrder_congr h h3 h2
  rw [h4]
  refine onEdge_of _ h' ?_
  rcases rasRise_credits p τ d' with ⟨_, e2, e3⟩ | ⟨c, e1, e2, e3, _, e5⟩
  · exact pendInOrder_congr h' e3 e2
  · refine ⟨?_, ?_, ?_⟩
    · rw [e3]
      refine List.Pairwise.filter _ (List.pairwise_cons.2 ⟨fun y hy => ?_, h'.1⟩)
      have := (hn.pend y (h3 ▸ hy)).1
      omega
    · rw [e3]
      intro y hy e he
      rcases List.mem_cons.1 (List.mem_filter.1 hy).1 with rfl | hy
      · rw [e2, h1] at he
        have := hn.lastref _ (get_mem _ _ _ he)
        simp only at this
        omega
      · exact h'.2 y hy e he
    · rw [e3, e5]
      have h5 := h'.3
      have h6 : ((c :: d'.watch.pend).filter (Past.openAt p τ)).countP Past.credited
        ≤ (c :: d'.watch.pend).countP Past.credited := List.Sublist.countP_le List.filter_sublist
      rw [List.countP_cons] at h6
      split at h6 <;> simp_all <;> omega

/-- Every micro-operation keeps the cycles remembered in order. -/
theorem perform_pendInOrder (s : State) (m : MicroOp) (hl : s.params.legal = true) (hn : s.timeInv)
    (h : s.dram.PendInOrder) : (s.perform m).dram.PendInOrder := by
  have hd (τ : Nat) : (s.dram.decay s.params τ).PendInOrder := pendInOrder_congr h rfl rfl
  have hp (e : PinStore) (d : Dram) (h : d.PendInOrder) : (d.pinStore s.params e).PendInOrder :=
    pendInOrder_lateHit _ _ _ (pendInOrder_congr h rfl rfl)
  cases m with
  | stAddr v => exact pendInOrder_congr (hp _ _ (hd _)) rfl rfl
  | stA8 b => exact pendInOrder_congr (hp _ _ (hd _)) rfl rfl
  | stDin b => exact pendInOrder_congr (hp _ _ (hd _)) rfl rfl
  | nop => exact hd _
  | sample => exact pendInOrder_congr h rfl rfl
  | stCtrl v =>
    refine pendInOrder_edges _ _ s.t _ _ _ _ _ _ ?_ (notAfter_decay _ _ _ hn) (hd _)
    simp only [Params.legal, Bool.and_eq_true, decide_eq_true_eq] at hl
    omega

/-! ### What an operation's own stores take back -/

/-- One of the stores falls into a hold window of the cycle. -/
def hitByAny (p : Params) (es : List PinStore) (c : Past) : Bool := es.any (fun e => c.hitBy p e)

theorem hitByAny_append (p : Params) (es es' : List PinStore) (c : Past) :
    hitByAny p (es ++ es') c = (hitByAny p es c || hitByAny p es' c) := List.any_append

theorem hitByAny_key {p : Params} {es : List PinStore} {c x : Past} (h : pastKey c = pastKey x) :
    hitByAny p es c = hitByAny p es x := by
  simp only [hitByAny, hitBy_key h]

/-- `d` is what the stores `es` have left of `d₀`, no cycle having ended meanwhile: the cycles not hit are remembered. -/
def Unhit (p : Params) (d₀ : Dram) (es : List PinStore) (d : Dram) : Prop :=
  d.watch.pend.map pastKey = (d₀.watch.pend.filter (fun c => !hitByAny p es c)).map pastKey

/-- And the credits of those hit are gone. -/
structure TakenBack (p : Params) (d₀ : Dram) (es : List PinStore) (d : Dram) : Prop where
  rising : Sparse.rising d.lastref
  order : d.PendInOrder
  unhit : Unhit p d₀ es d
  wake : d.wake + d₀.watch.pend.countP (fun c => c.credited && hitByAny p es c) = d₀.wake
  gone : ∀ c ∈ d₀.watch.pend, c.credited = true → hitByAny p es c = true → Sparse.get c.row d.lastref ≠ some c.rise
    ∧ ∀ x ∈ d.watch.pend, x.row = c.row → x.refBefore ≠ some c.rise

theorem unhit_refl (p : Params) (d : Dram) : Unhit p d [] d := by
  have h : d.watch.pend.filter (fun c => !hitByAny p [] c) = d.watch.pend := List.filter_eq_self.2 (fun _ _ => rfl)
  unfold Unhit; rw [h]

theorem takenBack_refl (p : Params) {d : Dram} (h1 : Sparse.rising d.lastref) (h2 : d.PendInOrder) :
    TakenBack p d [] d :=
  ⟨h1, h2, unhit_refl p d, by simp [hitByAny], fun c _ _ h => by simp [hitByAny] at h⟩

/-- A cycle not hit so far is still remembered, under its key. -/
theorem unhit_mem {p : Params} {d₀ d : Dram} {es : List PinStore} (h : Unhit p d₀ es d) {c : Past}
    (hc : c ∈ d₀.watch.pend) (hn : hitByAny p es c = false) : ∃ x ∈ d.watch.pend, pastKey x = pastKey c := by
  have : pastKey c ∈ d.watch.pend.map pastKey := by
    rw [h]; exact List.mem_map.2 ⟨c, List.mem_filter.2 ⟨hc, by simp [hn]⟩, rfl⟩
  exact List.mem_map.1 this

/-- One more store. -/
theorem unhit_lateHit {p : Params} {d₀ d : Dram} {es : List PinStore} (e : PinStore) (h : Unhit p d₀ es d) :
    Unhit p d₀ (es ++ [e]) (d.lateHit p e) := by
  have key (l l' : List Past) (h : l.map pastKey = l'.map pastKey) :
      (l.filter (fun c => !c.hitBy p e)).map pastKey = (l'.filter (fun c => !c.hitBy p e)).map pastKey := by
    induction l generalizing l' with
    | nil => cases l' with
      | nil => rfl
      | cons b bs => simp at h
    | cons a as ih => cases l' with
      | nil => simp at h
      | cons b bs =>
        obtain ⟨h1, h2⟩ := List.cons.inj h
        have := ih bs h2
        simp only [List.filter_cons, hitBy_key h1]
        split
        · simp only [List.map_cons, this, h1]
        · exact this
  unfold Unhit at *
  rw [lateHit_keys, key _ _ h, List.filter_filter]
  refine congrArg _ (List.filter_congr (fun c _ => ?_))
  rw [hitByAny_append]
  cases h1 : hitByAny p es c <;> simp [hitByAny]

theorem takenBack_lateHit {p : Params} {d₀ d : Dram} {es : List PinStore} (e : PinStore) (h : TakenBack p d₀ es d) :
    TakenBack p d₀ (es ++ [e]) (d.lateHit p e) := by
  have hu := unhit_lateHit e h.unhit
  have hcount : d.watch.pend.countP (fun c => c.credited && c.hitBy p e)
      = d₀.watch.pend.countP (fun c => c.credited && (!hitByAny p es c && c.hitBy p e)) := by
    have e1 (l : List Past) : l.countP (fun c => c.credited && c.hitBy p e) = (l.map pastKey).countP (fun k =>
        k.2.2.2.2 && (⟨k.1, k.2.1, k.2.2.1, k.2.2.2.1, k.2.2.2.2, none⟩ : Past).hitBy p e) := by
      rw [List.countP_map]; rfl
    rw [e1, h.unhit, ← e1, List.countP_filter]
    refine List.countP_congr (fun c _ => ?_)
    cases c.credited <;> cases hitByAny p es c <;> cases c.hitBy p e <;> decide
  have hsplit : d₀.watch.pend.countP (fun c => c.credited && hitByAny p (es ++ [e]) c)
      = d₀.watch.pend.countP (fun c => c.credited && hitByAny p es c)
        + d₀.watch.pend.countP (fun c => c.credited && (!hitByAny p es c && c.hitBy p e)) := by
    generalize d₀.watch.pend = l
    induction l with
    | nil => rfl
    | cons a as ih =>
      have e2 : hitByAny p [e] a = a.hitBy p e := by simp [hitByAny]
      simp only [List.countP_cons]
      rw [ih, hitByAny_append, e2]
      cases a.credited <;> cases hitByAny p es a <;> cases a.hitBy p e <;> simp <;> omega
  refine ⟨?_, pendInOrder_lateHit _ _ _ h.order, hu, ?_, ?_⟩
  · unfold Dram.lateHit; split
    · have (cs : List Past) (d : Dram) (h : Sparse.rising d.lastref) :
          Sparse.rising (cs.foldl (Dram.takeBack p e.teff) d).lastref := by
        induction cs generalizing d with
        | nil => exact h
        | cons c cs ih =>
          refine ih _ ?_
          simp only [Dram.takeBack]; split
          · exact rising_set _ _ _ h
          · exact h
      exact this _ _ h.rising
    · exact h.rising
  · rw [hsplit, ← hcount, lateHit_wake_eq]
    have h1 := countP_split d.watch.pend Past.credited (Past.hitBy p e)
    have h2 := h.order.3
    have h3 := h.wake
    omega
  · intro c hc hcr hh
    by_cases ha : d.watch.pend.any (Past.hitBy p e) = true
    · have hAged := aged_pend h.order (Past.hitBy p e)
      have hl : (d.lateHit p e).lastref
          = ((d.watch.pend.filter (Past.hitBy p e)).foldl (Dram.takeBack p e.teff) d).lastref := by
        unfold Dram.lateHit; rw [if_pos ha]
      rw [hl, lateHit_pend p e d ha]
      cases hes : hitByAny p es c with
      | true =>
        obtain ⟨g1, g2⟩ := h.gone c hc hcr hes
        have g3 : ∀ x ∈ d.watch.pend.filter (Past.hitBy p e), x.row = c.row → x.refBefore ≠ some c.rise :=
          fun x hx => g2 x (List.mem_filter.1 hx).1
        refine ⟨get_foldl_takeBack_ne _ _ _ _ _ _ g1 g3, fun x hx hr => ?_⟩
        obtain ⟨y, hy, rfl⟩ := List.mem_map.1 (List.mem_filter.1 hx).1
        rw [withoutAll_row] at hr
        exact refBefore_withoutAll_ne _ _ _ (g2 y hy hr) (fun z hz hzr => g3 z hz (hzr.trans hr))
      | false =>
        obtain ⟨y, hy, hk⟩ := unhit_mem h.unhit hc hes
        have hye : y.hitBy p e = true := by
          rw [hitBy_key hk]
          rw [hitByAny_append, hes] at hh
          simpa [hitByAny] using hh
        have hym : y ∈ d.watch.pend.filter (Past.hitBy p e) := List.mem_filter.2 ⟨hy, hye⟩
        simp only [pastKey, Prod.mk.injEq] at hk
        obtain ⟨k1, _, _, k4, k5⟩ := hk
        refine ⟨?_, fun x hx hr => ?_⟩
        · have := get_foldl_takeBack_gone p e.teff _ d hAged y hym (k5.trans hcr)
          rwa [k1, k4] at this
        · obtain ⟨z, _, rfl⟩ := List.mem_map.1 (List.mem_filter.1 hx).1
          have := refBefore_withoutAll_gone _ hAged y hym (k5.trans hcr) z (by rw [k1, ← hr, withoutAll_row])
          rwa [k4] at this
    · have hn : ∀ c ∈ d.watch.pend, c.hitBy p e = false := by simpa using ha
      rw [lateHit_eq_self p e d hn]
      cases hes : hitByAny p es c with
      | true => exact h.gone c hc hcr hes
      | false =>
        obtain ⟨y, hy, hk⟩ := unhit_mem h.unhit hc hes
        have := hn y hy
        rw [hitBy_key hk] at this
        rw [hitByAny_append, hes] at hh
        simp [hitByAny, this] at hh

theorem takenBack_congr {p : Params} {d₀ d d' : Dram} {es : List PinStore} (h : TakenBack p d₀ es d)
    (hs : SameCredits d d') : TakenBack p d₀ es d' := by
  obtain ⟨h1, h2, h3⟩ := hs
  exact ⟨h1 ▸ h.rising, pendInOrder_congr h.order h3 h2, by unfold Unhit; rw [h3]; exact h.unhit, by rw [h2]; exact h.wake,
    by rw [h1, h3]; exact h.gone⟩

theorem takenBack_decay {p : Params} {d₀ d : Dram} {es : List PinStore} (τ : Nat) (h : TakenBack p d₀ es d) :
    TakenBack p d₀ es (d.decay p τ) := by
  refine ⟨rising_filter _ _ h.rising, pendInOrder_congr h.order rfl rfl, h.unhit, h.wake, fun c hc hcr hh => ?_⟩
  refine ⟨?_, (h.gone c hc hcr hh).2⟩
  rw [decay_lastref, get_filter _ _ h.rising]
  intro hx
  cases hg : Sparse.get c.row d.lastref with
  | none => rw [hg] at hx; cases hx
  | some v =>
    rw [hg] at hx
    simp only [Option.filter] at hx
    split at hx
    · cases hx; exact (h.gone c hc hcr hh).1 hg
    · cases hx

/-- The micro-operation ends no cycle: it is no CTRL store that raises RAS. -/
def endsNoCycle (m : MicroOp) : Prop := ∀ v, m = .stCtrl v → Ctrl.rasN v.bits = false

theorem unhit_perform {s : State} {d₀ : Dram} {es : List PinStore} (m : MicroOp) (hm : endsNoCycle m)
    (h : Unhit s.params d₀ es s.dram) :
    Unhit s.params d₀ (es ++ storesOf s.params s.t [m]) (s.perform m).dram := by
  cases m with
  | stAddr v => exact unhit_lateHit ⟨.addr, _⟩ h
  | stA8 v => exact unhit_lateHit ⟨.a8, _⟩ h
  | stDin v => exact unhit_lateHit ⟨.din, _⟩ h
  | nop =>
    rw [show storesOf s.params s.t [.nop] = [] from rfl, List.append_nil]
    exact h
  | sample =>
    rw [show storesOf s.params s.t [.sample] = [] from rfl, List.append_nil]
    exact h
  | stCtrl v =>
    have hs := edges_rasLow s.params (s.t + s.params.cSt) (s.dram.decay s.params (s.t + s.params.cSt)) s.ctrl v.bits s.addr
      s.a8 s.din (hm v rfl)
    have e0 : storesOf s.params s.t [.stCtrl v] = [] := rfl
    rw [e0, List.append_nil]
    show (Dram.edges _ _ _ _ _ _ _ _).watch.pend.map pastKey = _
    rw [hs.2.2]; exact h

theorem takenBack_perform {s : State} {d₀ : Dram} {es : List PinStore} (m : MicroOp) (hm : endsNoCycle m)
    (h : TakenBack s.params d₀ es s.dram) :
    TakenBack s.params d₀ (es ++ storesOf s.params s.t [m]) (s.perform m).dram := by
  have store (e : PinStore) (τ : Nat) (d' : Dram) (hd : SameCredits ((s.dram.decay s.params τ).pinStore s.params e) d') :
      TakenBack s.params d₀ (es ++ [e]) d' := by
    have hf : TakenBack s.params d₀ es ((s.dram.decay s.params τ).flag ((s.dram.decay s.params τ).hitNow s.params e)) :=
      takenBack_congr (takenBack_decay τ h) ⟨rfl, rfl, rfl⟩
    exact takenBack_congr (takenBack_lateHit e hf) hd
  cases m with
  | stAddr v => exact store ⟨.addr, _⟩ _ _ ⟨rfl, rfl, rfl⟩
  | stA8 v => exact store ⟨.a8, _⟩ _ _ ⟨rfl, rfl, rfl⟩
  | stDin v => exact store ⟨.din, _⟩ _ _ ⟨rfl, rfl, rfl⟩
  | nop =>
    rw [show storesOf s.params s.t [.nop] = [] from rfl, List.append_nil]
    exact takenBack_decay _ h
  | sample =>
    rw [show storesOf s.params s.t [.sample] = [] from rfl, List.append_nil]
    exact takenBack_decay _ (takenBack_congr h ⟨rfl, rfl, rfl⟩)
  | stCtrl v =>
    rw [show storesOf s.params s.t [.stCtrl v] = [] from rfl, List.append_nil]
    exact takenBack_congr (takenBack_decay _ h) (edges_rasLow _ _ _ _ _ _ _ _ (hm v rfl))

/-- A list that ends no cycle takes back what its stores hit. -/
theorem takenBack_runOps (ops : List MicroOp) {s : State} {d₀ : Dram} {es : List PinStore}
    (hm : ∀ m ∈ ops, endsNoCycle m) (h : TakenBack s.params d₀ es s.dram) :
    TakenBack s.params d₀ (es ++ storesOf s.params s.t ops) (s.runOps ops).dram := by
  induction ops generalizing s es with
  | nil => simpa [storesOf] using h
  | cons m ms ih =>
    have h1 := takenBack_perform m (hm m List.mem_cons_self) h
    have h2 := ih (s := s.perform m) (fun x hx => hm x (List.mem_cons_of_mem _ hx)) (by rw [perform_params]; exact h1)
    rw [perform_params] at h2
    obtain ⟨_, _, _, ht⟩ := perform_stores s m
    have e : storesOf s.params s.t (m :: ms) = storesOf s.params s.t [m] ++ storesOf s.params (s.perform m).t ms := by
      rw [show m :: ms = [m] ++ ms from rfl, storesOf_append, ht]; simp [opsCycles]
    rw [e, ← List.append_assoc]
    exact h2

/-- And leaves no cell known, once one is hit and while nothing is written (R48 c). -/
theorem cells_runOps_hit (ops : List MicroOp) {s : State} {d₀ : Dram} {es : List PinStore}
    (hm : ∀ m ∈ ops, endsNoCycle m ∧ m ≠ .stCtrl .wrCol) (hu : Unhit s.params d₀ es s.dram)
    (h : (∃ c ∈ d₀.watch.pend, hitByAny s.params es c = true) → ∀ a, Memory.read a s.dram.cells = none) :
    (∃ c ∈ d₀.watch.pend, hitByAny s.params (es ++ storesOf s.params s.t ops) c = true) →
      ∀ a, Memory.read a (s.runOps ops).dram.cells = none := by
  induction ops generalizing s es with
  | nil => simpa [storesOf] using h
  | cons m ms ih =>
    obtain ⟨m1, m2⟩ := hm m List.mem_cons_self
    obtain ⟨_, _, _, ht⟩ := perform_stores s m
    have e : storesOf s.params s.t (m :: ms) = storesOf s.params s.t [m] ++ storesOf s.params (s.perform m).t ms := by
      rw [show m :: ms = [m] ++ ms from rfl, storesOf_append, ht]; simp [opsCycles]
    rw [e, ← List.append_assoc]
    have h2 := ih (s := s.perform m) (es := es ++ storesOf s.params s.t [m])
      (fun x hx => hm x (List.mem_cons_of_mem _ hx))
      (by rw [perform_params]; exact unhit_perform m m1 hu)
    rw [perform_params] at h2
    refine h2 ?_
    rintro ⟨c, hc, hx⟩ a
    have hfade := perform_onlyFades s m m2 a
    have fade (h0 : Memory.read a s.dram.cells = none) : Memory.read a (s.perform m).dram.cells = none := by
      cases hr : Memory.read a (s.perform m).dram.cells with
      | none => rfl
      | some b => rw [hfade b hr] at h0; cases h0
    cases hes : hitByAny s.params es c with
    | true => exact fade (h ⟨c, hc, hes⟩ a)
    | false =>
      obtain ⟨y, hy, hk⟩ := unhit_mem hu hc hes
      rw [hitByAny_append, hes, ← hitByAny_key hk, Bool.false_or] at hx
      have none_of (e : PinStore) (τ : Nat) (hy' : y.hitBy s.params e = true) :
          ((s.dram.decay s.params τ).pinStore s.params e).cells = [] :=
        lateHit_cells s.params e (Dram.flag _ (s.dram.decay s.params τ)) (c := y) hy hy'
      cases m with
      | stAddr v =>
        have := none_of ⟨.addr, s.t + s.params.cSt⟩ (s.t + s.params.cSt) (by
          simpa [hitByAny, storesOf, MicroOp.pinLine, MicroOp.cycles] using hx)
        show Memory.read a (Dram.pinStore _ _ _).cells = none
        rw [this]; rfl
      | stA8 v =>
        have := none_of ⟨.a8, s.t + s.params.cA8⟩ (s.t + s.params.cA8) (by
          simpa [hitByAny, storesOf, MicroOp.pinLine, MicroOp.cycles] using hx)
        show Memory.read a (Dram.pinStore _ _ _).cells = none
        rw [this]; rfl
      | stDin v =>
        have := none_of ⟨.din, s.t + s.params.cDin⟩ (s.t + s.params.cDin) (by
          simpa [hitByAny, storesOf, MicroOp.pinLine, MicroOp.cycles] using hx)
        show Memory.read a (Dram.pinStore _ _ _).cells = none
        rw [this]; rfl
      | nop => simp [hitByAny, storesOf, MicroOp.pinLine] at hx
      | sample => simp [hitByAny, storesOf, MicroOp.pinLine] at hx
      | stCtrl v => simp [hitByAny, storesOf, MicroOp.pinLine] at hx

/-! ### The drives before an operation -/

/-- Every drive had ended by `t` (R43). -/
def EndedBy (t : Nat) (d : Dram) : Prop := ∀ v ∈ d.drives, ∃ e, e ≤ t ∧ v.rise = some e

theorem endedBy_rasRise {t : Nat} (p : Params) (τ : Nat) {d : Dram} (h : EndedBy t d) : EndedBy t (d.rasRise p τ) := by
  intro v hv
  unfold Dram.rasRise at hv
  cases hr : d.rlat with
  | none => rw [hr] at hv; exact h v hv
  | some r =>
    rw [hr] at hv; dsimp only at hv; split at hv
    · exact h v (List.mem_filter.1 hv).1
    · exact h v hv

/-- A CTRL store starts no drive if CAS is high after it, or if no cell is known (R42). -/
theorem endedBy_edges {t : Nat} (p : Params) (τ : Nat) (old new : Lines) (a : Byte) (b x : Bit) {d : Dram}
    (h : EndedBy t d) (hc : Ctrl.casN new = true ∨ ∀ a, Memory.read a d.cells = none) :
    EndedBy t (d.edges p τ old new a b x) := by
  unfold Dram.edges
  have k1 := onEdge_of (P := fun y => EndedBy t y ∧ y.cells = d.cells) (f := Dram.rasFall p τ (Ctrl.casN new) a b)
    (fell (Ctrl.rasN old) (Ctrl.rasN new)) ⟨h, rfl⟩ ⟨h, rfl⟩
  have k2 := onEdge_of (P := fun y => EndedBy t y ∧ y.cells = d.cells) (f := Dram.weFall τ)
    (fell (Ctrl.weN old) (Ctrl.weN new)) k1 k1
  generalize (d.onEdge (fell (Ctrl.rasN old) (Ctrl.rasN new)) (Dram.rasFall p τ (Ctrl.casN new) a b)).onEdge
    (fell (Ctrl.weN old) (Ctrl.weN new)) (Dram.weFall τ) = d2 at k2 ⊢
  have k3 : EndedBy t (d2.onEdge (fell (Ctrl.casN old) (Ctrl.casN new))
      (Dram.casFall p τ (Ctrl.rasN new) (Ctrl.weN new) a b x)) := by
    rcases hc with hc | hc
    · rw [show fell (Ctrl.casN old) (Ctrl.casN new) = false by rw [hc]; cases Ctrl.casN old <;> rfl]
      exact k2.1
    · refine onEdge_of _ k2.1 ?_
      unfold Dram.casFall
      split
      · next r _ =>
        cases Ctrl.weN new
        · exact k2.1
        · intro v hv
          rcases List.mem_append.1 hv with hv | hv
          · exact k2.1 v hv
          · unfold driveOf at hv
            rw [flag_cells, k2.2, hc] at hv
            cases hv
      · exact k2.1
  have k4 := onEdge_of (P := EndedBy t) (f := Dram.weRise p τ) (rose (Ctrl.weN old) (Ctrl.weN new)) k3 k3
  have k5 := onEdge_of (P := EndedBy t) (f := Dram.casRise p τ) (rose (Ctrl.casN old) (Ctrl.casN new)) k4 (by
    intro v hv
    obtain ⟨w, hw, rfl⟩ := List.mem_map.1 hv
    obtain ⟨e, he, hr⟩ := k4 w hw
    exact ⟨e, he, by simp [Drive.close, hr]⟩)
  exact onEdge_of _ k5 (endedBy_rasRise p τ k5)

theorem endedBy_perform {t : Nat} {s : State} (m : MicroOp) (h : EndedBy t s.dram)
    (hm : ∀ v, m = .stCtrl v → Ctrl.casN v.bits = true ∨ ∀ a, Memory.read a s.dram.cells = none) :
    EndedBy t (s.perform m).dram := by
  cases m
  case stCtrl v =>
    refine endedBy_edges _ _ _ _ _ _ _ (d := s.dram.decay _ _) h ((hm v rfl).imp_right fun hn a => ?_)
    cases hr : Memory.read a (s.dram.decay s.params (s.t + s.params.cSt)).cells with
    | none => rfl
    | some b => have := hn a; rw [decay_onlyFades _ _ _ a b hr] at this; cases this
  all_goals exact fun v hv' => h v ((perform_noCtrl s _ (by simp)).2.2.2 v hv')

end Sys2Proof.Laws
end

