-- ==== Sys2Proof/Laws/OwnStores.lean ====
section
/-! SUPPORT. What a whole operation leaves whose own stores fall into hold windows of cycles that ended before it
(20_memory.md R48): credits, cells, and what a READ hands back. -/

namespace Sys2Proof.Laws

open Sys2Proof.Machine

/-- The list of an operation that makes a cycle ends no cycle but by its last store. -/
theorem cycle_list (i : Instr) (p : Params) (rc : Byte) (h : makesCycle i = true) :
    ∃ pre, microOps i p rc = pre ++ [.stCtrl .default] ∧ ∀ m ∈ pre, endsNoCycle m := by
  have w (n : Nat) : ∀ m ∈ waitOps n, endsNoCycle m := fun m hm v e => by
    subst e; exact absurd hm (stCtrl_not_mem_wait v n)
  have a (o : Option Bit) : ∀ m ∈ a8Ops o, endsNoCycle m := fun m hm v e => by
    subst e; exact absurd hm (stCtrl_not_mem_a8Ops v o)
  have nd (m : MicroOp) (hm : ∀ v, m = .stCtrl v → Ctrl.rasN v.bits = false) : endsNoCycle m := hm
  cases i with
  | read row col rh ch =>
    refine ⟨toCas p .read row col rh ch ++ (waitOps p.dCac ++ [.sample]), by
      simp only [microOps]; rw [readOps_eq]; simp, ?_⟩
    intro m hm
    simp only [toCas, List.mem_append, List.mem_singleton] at hm
    rcases hm with ((((((rfl | h) | rfl) | h) | rfl) | h) | rfl) | h | rfl
    all_goals first | exact w _ _ h | exact a _ _ h | exact nd _ (by intro v e; cases e <;> rfl)
  | write row col rh ch =>
    refine ⟨toCas p .write row col rh ch ++ waitOps p.dCas, by
      simp only [microOps]; rw [writeOps_eq]; simp, ?_⟩
    intro m hm
    simp only [toCas, List.mem_append, List.mem_singleton] at hm
    rcases hm with ((((((rfl | h) | rfl) | h) | rfl) | h) | rfl) | h
    all_goals first | exact w _ _ h | exact a _ _ h | exact nd _ (by intro v e; cases e <;> rfl)
  | refresh =>
    refine ⟨[.stAddr rc, .stCtrl .rasOnly] ++ waitOps p.dRas, rfl, ?_⟩
    intro m hm
    simp only [List.mem_append, List.mem_cons, List.not_mem_nil, or_false] at hm
    rcases hm with (rfl | rfl) | h
    all_goals first | exact w _ _ h | exact nd _ (by intro v e; cases e <;> rfl)
  | rasonly row rh =>
    refine ⟨[.stAddr row] ++ a8Ops rh ++ [.stCtrl .rasOnly] ++ waitOps p.dRas, rfl, ?_⟩
    intro m hm
    simp only [List.mem_append, List.mem_singleton] at hm
    rcases hm with ((rfl | h) | rfl) | h
    all_goals first | exact w _ _ h | exact a _ _ h | exact nd _ (by intro v e; cases e <;> rfl)
  | idle => cases h
  | wait n => cases h
  | setdin v => cases h
  | errpulse => cases h

/-- After a whole operation the credits of the cycles its own stores hit are gone: from their rows, and from the wake-up
(R48 b). -/
theorem exec_takesBack {s t : State} {i : Instr} (hq : s.quiet) (hm : s.memInv) (ho : s.dram.PendInOrder)
    (hl : s.params.legal = true) (h : exec i s = .next t) (hne : s.ownStores i ≠ []) :
    (∀ c ∈ s.dram.watch.pend, c.credited = true → hitByAny s.params (s.ownStores i) c = true →
      Sparse.get c.row t.dram.lastref ≠ some c.rise)
    ∧ t.dram.wake + s.dram.watch.pend.countP (fun c => c.credited && hitByAny s.params (s.ownStores i) c)
        ≤ s.dram.wake + (if makesCycle i then 1 else 0) := by
  have hb : TakenBack s.params s.dram [] (s.beginOp i).dram := takenBack_refl _ hm.2.1 ho
  rw [(exec_next h).2, endOp_dram]
  cases hc : makesCycle i with
  | true =>
    obtain ⟨pre, he, hpre⟩ := cycle_list i s.params s.rc hc
    have hown : s.ownStores i = storesOf s.params s.t pre := by
      simp only [State.ownStores, he, storesOf_append]
      simp [storesOf, MicroOp.pinLine]
    have hT := takenBack_runOps (s := s.beginOp i) pre hpre hb
    rw [List.nil_append, show storesOf (s.beginOp i).params (s.beginOp i).t pre = s.ownStores i from hown.symm] at hT
    rw [he, runOps_append]
    have hp : ((s.beginOp i).runOps pre).params = s.params := runOps_params pre (s.beginOp i)
    have ht : s.t ≤ ((s.beginOp i).runOps pre).t := by
      obtain ⟨_, _, _, h⟩ := runOps_stores pre (s.beginOp i)
      rw [h]; exact Nat.le_add_right _ _
    generalize (s.beginOp i).runOps pre = x at *
    have hT' := takenBack_decay (x.t + s.params.cSt) hT
    obtain ⟨e1, e2⟩ := edges_credits s.params (x.t + s.params.cSt) (x.dram.decay s.params (x.t + s.params.cSt)) x.ctrl
      CtrlValue.default.bits x.addr x.a8 x.din
    have hd : (x.runOps [.stCtrl .default]).dram = Dram.edges s.params (x.t + s.params.cSt) x.ctrl
      CtrlValue.default.bits x.addr x.a8 x.din (x.dram.decay s.params (x.t + s.params.cSt)) := by rw [← hp]; rfl
    rw [hd]
    have hleg : 1 ≤ s.params.cSt := by
      simp only [Params.legal, Bool.and_eq_true, decide_eq_true_eq] at hl
      omega
    refine ⟨fun c hcm hcr hh hx => ?_, ?_⟩
    · rcases e2 _ _ hx with hx | hx
      · exact (hT'.gone c hcm hcr hh).1 hx
      · have := (hq.2.2.pend c hcm).1
        omega
    · have h3 : (x.dram.decay s.params (x.t + s.params.cSt)).wake + s.dram.watch.pend.countP (fun c => c.credited
        && hitByAny s.params (s.ownStores i) c) = s.dram.wake := hT'.wake
      simp only [if_true]; omega
  | false =>
    cases i with
    | setdin v =>
      have hT := takenBack_runOps (s := s.beginOp (.setdin v)) [.stDin v] (fun m hm w e => by
        obtain rfl := List.mem_singleton.1 hm; cases e) hb
      rw [List.nil_append] at hT
      exact ⟨fun c hcm hcr hh => (hT.gone c hcm hcr hh).1, Nat.le_of_eq hT.wake⟩
    | idle => exact absurd rfl hne
    | errpulse =>
      refine absurd ?_ hne
      show storesOf _ _ ([MicroOp.stCtrl .err] ++ waitOps s.params.dErr ++ [.stCtrl .default]) = []
      rw [storesOf_append, storesOf_append, storesOf_wait]; rfl
    | wait n => exact absurd (storesOf_wait _ _ _) hne
    | read row col rh ch => cases hc
    | write row col rh ch => cases hc
    | refresh => cases hc
    | rasonly row rh => cases hc

/-- The list of a data cycle before its CAS fall. -/
def beforeCas (p : Params) (mode : CasMode) (row col : Byte) (rh ch : Option Bit) : List MicroOp :=
  [.stAddr row] ++ a8Ops rh ++ [.stCtrl (rowValue mode)] ++ waitOps p.dRcd ++ [.stAddr col] ++ a8Ops ch

/-- Before the CAS fall no cycle ends and CAS stays high. -/
theorem beforeCas_ops (p : Params) (mode : CasMode) (row col : Byte) (rh ch : Option Bit) :
    ∀ m ∈ beforeCas p mode row col rh ch, (endsNoCycle m ∧ m ≠ .stCtrl .wrCol)
      ∧ ∀ v, m = .stCtrl v → Ctrl.casN v.bits = true := by
  intro m hm
  simp only [beforeCas, List.mem_append, List.mem_singleton] at hm
  have w (n : Nat) (h : m ∈ waitOps n) (v) : m ≠ .stCtrl v := fun e => stCtrl_not_mem_wait v n (e ▸ h)
  have a (o : Option Bit) (h : m ∈ a8Ops o) (v) : m ≠ .stCtrl v := fun e => stCtrl_not_mem_a8Ops v o (e ▸ h)
  rcases hm with ((((rfl | h) | rfl) | h) | rfl) | h
  · exact ⟨⟨fun v e => (by cases e), by simp⟩, fun v e => (by cases e)⟩
  · exact ⟨⟨fun v e => absurd e (a _ h v), a _ h _⟩, fun v e => absurd e (a _ h v)⟩
  · cases mode <;> exact ⟨⟨fun v e => (by cases e; rfl), by simp [rowValue]⟩, fun v e => (by cases e; rfl)⟩
  · exact ⟨⟨fun v e => absurd e (w _ h v), w _ h _⟩, fun v e => absurd e (w _ h v)⟩
  · exact ⟨⟨fun v e => (by cases e), by simp⟩, fun v e => (by cases e)⟩
  · exact ⟨⟨fun v e => absurd e (a _ h v), a _ h _⟩, fun v e => absurd e (a _ h v)⟩

/-- The CAS fall itself is no pin store. -/
theorem storesOf_toCas (p : Params) (t : Nat) (mode : CasMode) (row col : Byte) (rh ch : Option Bit) :
    storesOf p t (toCas p mode row col rh ch) = storesOf p t (beforeCas p mode row col rh ch) := by
  rw [show toCas p mode row col rh ch = beforeCas p mode row col rh ch ++ [.stCtrl (colValue mode)] from rfl, storesOf_append]
  simp [storesOf, MicroOp.pinLine]

/-- If an own store of a data cycle hits an ended cycle, no cell is known when CAS falls (R48 c). -/
theorem cells_beforeCas (s : State) (i : Instr) (mode : CasMode) (row col : Byte) (rh ch : Option Bit)
    (hi : s.ownStores i = storesOf s.params s.t (toCas s.params mode row col rh ch))
    (hh : ∃ c ∈ s.dram.watch.pend, hitByAny s.params (s.ownStores i) c = true) :
    ∀ a, Memory.read a ((s.beginOp i).runOps (beforeCas s.params mode row col rh ch)).dram.cells = none := by
  refine cells_runOps_hit (s := s.beginOp i) (d₀ := s.dram) (es := []) _ (fun m hm => (beforeCas_ops _ _ _ _ _ _ m hm).1)
    (unhit_refl _ _) (fun ⟨c, _, hx⟩ => by simp [hitByAny] at hx) ?_
  rw [hi, storesOf_toCas] at hh
  simpa using hh

/-- So a READ that looks at a time of its own returns the next draw (R42). -/
theorem read_own_hit (s : State) (row col : Byte) (rh ch : Option Bit) (hq : s.quiet)
    (hpin : s.t + s.params.lIn ≤ casAt s rh ch + s.params.dCac)
    (hh : ∃ c ∈ s.dram.watch.pend, hitByAny s.params (s.ownStores (.read row col rh ch)) c = true) :
    ∃ t, exec (.read row col rh ch) s = .next t ∧ t.readSample = some (Config.freeBit s.draws)
      ∧ t.draws = s.draws + 1 := by
  refine ⟨_, exec_run hq.1, ?_⟩
  have h1 := read_sample s row col rh ch hpin
  have hcell := cells_beforeCas s (.read row col rh ch) .read row col rh ch (storesOf_readOps _ _ _ _ _ _) hh
  have he : EndedBy s.t ((s.beginOp (.read row col rh ch)).runOps (beforeCas s.params .read row col rh ch)).dram := by
    refine runOps_of (P := fun x => EndedBy s.t x.dram) _ _ ?_
      (fun x m hm hx => endedBy_perform m hx (fun v e => .inl ((beforeCas_ops _ _ _ _ _ _ m hm).2 v e)))
    intro v hv
    obtain ⟨e, he⟩ := Option.isSome_iff_exists.1 (quiet_drives hq v hv)
    exact ⟨e, (hq.2.2.drives v hv).2.2 e he, he⟩
  have he2 : EndedBy s.t (((s.beginOp (.read row col rh ch)).runOps (toCas s.params .read row col rh ch)).runOps
      (waitOps s.params.dCac)).dram := by
    refine runOps_of (P := fun x => EndedBy s.t x.dram) (waitOps s.params.dCac) _ ?_ (fun x m hm hx =>
      endedBy_perform m hx (fun v e => absurd (e ▸ hm) (stCtrl_not_mem_wait v _)))
    rw [show toCas s.params .read row col rh ch = beforeCas s.params .read row col rh ch ++ [.stCtrl .rdCol] from rfl,
      runOps_append]
    exact endedBy_perform _ he (fun v e => .inr hcell)
  obtain ⟨ht, hp⟩ := beforeSample_time s row col rh ch
  have hlevel : (((s.beginOp (.read row col rh ch)).runOps (toCas s.params .read row col rh ch)).runOps
      (waitOps s.params.dCac)).pinLevel = none := by
    generalize ((s.beginOp (.read row col rh ch)).runOps (toCas s.params .read row col rh ch)).runOps
      (waitOps s.params.dCac) = u at *
    have h0 : u.pin = ((casAt s rh ch + s.params.dCac - s.params.lIn : Nat) : Int) := by
      simp only [State.pin, ht, hp]; omega
    unfold State.pinLevel
    rw [if_neg (by rw [h0]; omega)]
    have hf : (u.dram.judgeSample u.params u.pin).drives.find? (fun v => v.covers u.params u.pin.toNat) = none := by
      rw [List.find?_eq_none]
      intro v hv
      obtain ⟨e, h1, h2⟩ := he2 v hv
      rw [covers_of_ended _ _ s.t v (fun x hx => by rw [h2] at hx; cases hx; exact h1) (by rw [h2]; rfl) (by
        rw [h0]; simp only [Int.toNat_natCast]; omega)]
      simp
    unfold Dram.dout
    rw [hf]
  simp only at h1
  rw [hlevel] at h1
  exact h1

/-- The early-write store, no cell being known before it. -/
theorem wrCol_cells (s : State) (r : RowLatch) (hc : s.ctrl = CtrlValue.wrRow.bits) (hr : s.dram.rlat = some r)
    (hn : ∀ a, Memory.read a s.dram.cells = none) : ∀ a b, Memory.read a (s.perform (.stCtrl .wrCol)).dram.cells = some b →
    b = s.din ∧ a = cellNo s.params.kind r.row (indexOf s.params.kind s.addr s.a8) := by
  intro a b h
  have he : (s.perform (.stCtrl .wrCol)).dram
      = Dram.casFall s.params (s.t + s.params.cSt) false false s.addr s.a8 s.din (s.dram.decay s.params (s.t + s.params.cSt)) := by
    show Dram.edges _ _ s.ctrl _ _ _ _ _ = _
    rw [hc]; rfl
  rw [he, casFall_write _ _ _ _ _ (s.dram.decay _ _) r hr] at h
  by_cases ha : a = cellNo s.params.kind r.row (indexOf s.params.kind s.addr s.a8)
  · subst ha
    simp only [read_write_same, writtenBit, Option.map_eq_some_iff] at h
    obtain ⟨_, _, h⟩ := h
    exact ⟨h.symm, rfl⟩
  · simp only [read_write_other ha] at h
    have := decay_onlyFades _ _ _ a b h
    rw [hn a] at this; cases this

/-- After an operation whose own stores hit an ended cycle, only the cell it writes itself is known, and holds DIN. -/
theorem cells_own_hit (s : State) (i : Instr) (t : State) (h : exec i s = .next t)
    (hh : ∃ c ∈ s.dram.watch.pend, hitByAny s.params (s.ownStores i) c = true) :
    ∀ a b, Memory.read a t.dram.cells = some b →
      b = s.din ∧ ∃ row col rh ch, i = .write row col rh ch ∧ a = cellOf s row col rh ch := by
  have hctrl := (exec_next h).1
  rw [(exec_next h).2, endOp_dram]
  by_cases hw : ∃ row col rh ch, i = .write row col rh ch
  · obtain ⟨row, col, rh, ch, rfl⟩ := hw
    intro a b hab
    have hcell := cells_beforeCas s (.write row col rh ch) .write row col rh ch (storesOf_writeOps _ _ _ _ _ _) hh
    simp only [microOps] at hab
    have hlist : writeOps s.params row col rh ch = beforeCas s.params .write row col rh ch
        ++ (.stCtrl .wrCol :: (waitOps s.params.dCas ++ [.stCtrl .default])) := by
      simp [writeOps, beforeCas, rowValue]
    rw [hlist, runOps_append, runOps_cons] at hab
    obtain ⟨r1, r2, r3, r4, _, r6, _, _⟩ := rowPhase_driver (s.beginOp (.write row col rh ch)) row rh .wrRow
    have rr := rowPhase_rlat (s.beginOp (.write row col rh ch)) row rh .wrRow hctrl (by simp)
    have hsplit : (s.beginOp (.write row col rh ch)).runOps (beforeCas s.params .write row col rh ch)
        = ((s.beginOp (.write row col rh ch)).runOps ([.stAddr row] ++ a8Ops rh ++ [.stCtrl .wrRow])).runOps
          (waitOps s.params.dRcd ++ [.stAddr col] ++ a8Ops ch) := by
      rw [← runOps_append]; simp [beforeCas, rowValue]
    rw [hsplit] at hab hcell
    generalize (s.beginOp (.write row col rh ch)).runOps ([.stAddr row] ++ a8Ops rh ++ [.stCtrl .wrRow]) = s1 at *
    have cr : (s1.runOps (waitOps s.params.dRcd ++ [.stAddr col] ++ a8Ops ch)).dram.rlat = s1.dram.rlat :=
      (runOps_noCtrl _ s1 (fun m hm v e => by
        subst e
        simp only [List.mem_append, List.mem_singleton] at hm
        rcases hm with (hm | hm) | hm
        · exact stCtrl_not_mem_wait _ _ hm
        · cases hm
        · exact stCtrl_not_mem_a8Ops _ _ hm)).1
    have cc : (s1.runOps (waitOps s.params.dRcd ++ [.stAddr col] ++ a8Ops ch)).addr = col
        ∧ (s1.runOps (waitOps s.params.dRcd ++ [.stAddr col] ++ a8Ops ch)).a8 = a8After ch s1.a8
        ∧ (s1.runOps (waitOps s.params.dRcd ++ [.stAddr col] ++ a8Ops ch)).ctrl = s1.ctrl
        ∧ (s1.runOps (waitOps s.params.dRcd ++ [.stAddr col] ++ a8Ops ch)).params = s1.params
        ∧ (s1.runOps (waitOps s.params.dRcd ++ [.stAddr col] ++ a8Ops ch)).din = s1.din := by
      cases ch <;> simp [a8Ops, State.perform, State.effect, a8After, runOps_wait]
    rw [rr] at cr
    generalize s1.runOps (waitOps s.params.dRcd ++ [.stAddr col] ++ a8Ops ch) = s2 at *
    have f3 := runOps_of (P := fun x => onlyFades (s2.perform (.stCtrl .wrCol)).dram.cells x.dram.cells)
      (waitOps s.params.dCas ++ [.stCtrl .default]) (s2.perform (.stCtrl .wrCol)) (onlyFades_refl _)
      (fun s' m hm h' => onlyFades_trans h' (perform_onlyFades _ _ (by
        rintro rfl
        simp only [List.mem_append, List.mem_singleton] at hm
        rcases hm with hm | hm
        · exact stCtrl_not_mem_wait _ _ hm
        · cases hm)))
    obtain ⟨h1, h2⟩ := wrCol_cells s2 _ (by rw [cc.2.2.1, r3]) cr hcell a b (f3 a b hab)
    refine ⟨by rw [h1, cc.2.2.2.2, r4]; rfl, row, col, rh, ch, rfl, ?_⟩
    rw [h2, cc.2.2.2.1, cc.1, cc.2.1, r6, r2]; rfl
  · suffices hnone : ∀ a, Memory.read a ((s.beginOp i).runOps (microOps i s.params s.rc)).dram.cells = none by
      intro a b hab; rw [hnone a] at hab; cases hab
    have run (pre : List MicroOp) (hm : ∀ m ∈ pre, endsNoCycle m ∧ m ≠ .stCtrl .wrCol)
        (hs : s.ownStores i = storesOf s.params s.t pre) :
        ∀ a, Memory.read a ((s.beginOp i).runOps pre).dram.cells = none :=
      cells_runOps_hit (s := s.beginOp i) (d₀ := s.dram) (es := []) pre hm
        (unhit_refl _ _) (fun ⟨c, _, hx⟩ => by simp [hitByAny] at hx) (by rw [hs] at hh; simpa using hh)
    cases hc : makesCycle i with
    | true =>
      obtain ⟨pre, he, hpre⟩ := cycle_list i s.params s.rc hc
      have hnw : .stCtrl .wrCol ∉ microOps i s.params s.rc := by
        cases i with
        | write row col rh ch => exact absurd ⟨_, _, _, _, rfl⟩ hw
        | read row col rh ch => cases rh <;> cases ch <;> simp [microOps, readOps, a8Ops, waitOps, List.mem_replicate]
        | rasonly row rh => cases rh <;> simp [microOps, rasonlyOps, a8Ops, waitOps, List.mem_replicate]
        | refresh => simp [microOps, refreshOps, waitOps, List.mem_replicate]
        | idle => cases hc
        | wait n => cases hc
        | setdin v => cases hc
        | errpulse => cases hc
      have h1 := run pre (fun m hm => ⟨hpre m hm, fun e => hnw (by rw [he, ← e]; exact List.mem_append.2 (.inl hm))⟩) (by
        simp only [State.ownStores, he, storesOf_append]
        simp [storesOf, MicroOp.pinLine])
      intro a
      rw [he, runOps_append]
      cases hr : Memory.read a (((s.beginOp i).runOps pre).perform (.stCtrl .default)).dram.cells with
      | none => exact hr
      | some b => have := perform_onlyFades _ _ (by simp) a b hr; rw [h1 a] at this; cases this
    | false =>
      cases i with
      | setdin v => exact run [.stDin v] (fun m hm => by
          obtain rfl := List.mem_singleton.1 hm; exact ⟨fun v e => (by cases e), by simp⟩) rfl
      | idle => obtain ⟨c, _, hx⟩ := hh; cases hx
      | wait n =>
        obtain ⟨c, _, hx⟩ := hh
        rw [show s.ownStores (.wait n) = [] from storesOf_wait _ _ _] at hx; cases hx
      | errpulse =>
        obtain ⟨c, _, hx⟩ := hh
        have : s.ownStores .errpulse = [] := by
          show storesOf _ _ ([MicroOp.stCtrl .err] ++ waitOps s.params.dErr ++ [.stCtrl .default]) = []
          rw [storesOf_append, storesOf_append, storesOf_wait]; rfl
        rw [this] at hx; cases hx
      | read row col rh ch => cases hc
      | write row col rh ch => cases hc
      | refresh => cases hc
      | rasonly row rh => cases hc

end Sys2Proof.Laws
end

