-- ==== Sys2Proof/Machine/Assembler.lean ====
section
/-! DEFINITION. The spec's assembler syntax, one command per line (30_encoding.md R61), with the pseudo-instructions
of R62. A line is a list of characters; no step of the machine uses this file. -/

namespace Sys2Proof.Machine

/-- The value of a digit below `base`. -/
def Asm.digit (base : Nat) (c : Char) : Option Nat :=
  let n := c.toNat
  let v := if 48 ≤ n ∧ n ≤ 57 then n - 48 else if 97 ≤ n ∧ n ≤ 102 then n - 87 else base
  if v < base then some v else none

/-- The digits of a number, most significant first. -/
def Asm.digits (base : Nat) : Nat → List Char → Option Nat
  | acc, [] => some acc
  | acc, c :: cs => (Asm.digit base c).bind (fun v => Asm.digits base (base * acc + v) cs)

/-- "Numbers are decimal or 0x hex" (R61), in small letters. -/
def Asm.number : List Char → Option Nat
  | [] => none
  | '0' :: 'x' :: c :: cs => Asm.digits 16 0 (c :: cs)
  | c :: cs => Asm.digits 10 0 (c :: cs)

/-- `<row>`, `<col>`: 0..255. -/
def Asm.byte (cs : List Char) : Option Byte :=
  (Asm.number cs).bind (fun n => if n < 256 then some (BitVec.ofNat 8 n) else none)

/-- `<n>`: legal only in 0..16. -/
def Asm.count (cs : List Char) : Option Byte :=
  (Asm.byte cs).bind (fun n => if n.toNat ≤ Config.nMax then some n else none)

/-- `<b>`: 0 or 1. -/
def Asm.bit (cs : List Char) : Option Bit :=
  (Asm.number cs).bind (fun n => if n < 2 then some (BitVec.ofNat 1 n) else none)

/-- `rh=<b>` or `ch=<b>`, `c` being its first letter. -/
def Asm.high (c : Char) : List Char → Option Bit
  | a :: 'h' :: '=' :: cs => if a = c then Asm.bit cs else none
  | _ => none

/-- Optional high operands: none, rh, ch, or rh then ch (R61). -/
def Asm.highs : List (List Char) → Option (Option Bit × Option Bit)
  | [] => some (none, none)
  | [a] => ((Asm.high 'r' a).map (fun b => (some b, none))) <|> ((Asm.high 'c' a).map (fun b => (none, some b)))
  | [a, b] => (Asm.high 'r' a).bind (fun x => (Asm.high 'c' b).map (fun y => (some x, some y)))
  | _ => none

/-- The optional row-high operand of RASONLY. -/
def Asm.rowHigh : List (List Char) → Option (Option Bit)
  | [] => some none
  | [a] => (Asm.high 'r' a).map some
  | _ => none

/-- Cut a list at every separator. -/
def Asm.split (sep : Char) : List Char → List (List Char)
  | [] => [[]]
  | c :: cs =>
    if c = sep then [] :: Asm.split sep cs
    else match Asm.split sep cs with
      | [] => [[c]]
      | w :: ws => (c :: w) :: ws

/-- A space or a tab. -/
def Asm.blank (c : Char) : Bool := c == ' ' || c == '\t'

/-- Without the blanks at both ends. -/
def Asm.trim (cs : List Char) : List Char := ((cs.dropWhile Asm.blank).reverse.dropWhile Asm.blank).reverse

/-- What READ and WRITE take: row, col and the optional high operands. -/
def Asm.tuple (mk : Byte → Byte → Option Bit → Option Bit → Instr) : List (List Char) → Option Instr
  | r :: c :: hs => (Asm.byte r).bind (fun row => (Asm.byte c).bind (fun col =>
      (Asm.highs hs).map (fun h => mk row col h.1 h.2)))
  | _ => none

/-- The command of a mnemonic, in small letters, and its operands (R61, R62). -/
def Asm.command (m : List Char) (ops : List (List Char)) : Option (List Instr) :=
  if m = ['i', 'd', 'l', 'e'] ∧ ops = [] then some [.idle]
  else if m = ['r', 'e', 'a', 'd'] then (Asm.tuple Instr.read ops).map (fun i => [i])
  else if m = ['w', 'r', 'i', 't', 'e'] then (Asm.tuple Instr.write ops).map (fun i => [i])
  else if m = ['r', 'e', 'f', 'r', 'e', 's', 'h'] ∧ ops = [] then some [.refresh]
  else if m = ['r', 'a', 's', 'o', 'n', 'l', 'y'] then match ops with
    | r :: hs => (Asm.byte r).bind (fun row => (Asm.rowHigh hs).map (fun rh => [Instr.rasonly row rh]))
    | [] => none
  else if m = ['w', 'a', 'i', 't'] then match ops with
    | [n] => (Asm.count n).map (fun n => [Instr.wait n])
    | _ => none
  else if m = ['s', 'e', 't', 'd', 'i', 'n'] then match ops with
    | [b] => (Asm.bit b).map (fun b => [Instr.setdin b])
    | _ => none
  else if m = ['e', 'r', 'r', 'p', 'u', 'l', 's', 'e'] ∧ ops = [] then some [.errpulse]
  else if m = ['n', 'o', 'p'] ∧ ops = [] then some [Instr.nop]
  else if m = ['w', 'a', 'k', 'e', 'u', 'p'] ∧ ops = [] then some Instr.wakeup
  else none

/-- One line of assembler: what it stands for, or `none` (R61, R62). Letters count alike in both cases, and a ';'
starts a comment. R61 says so of the mnemonics; that rh=, ch= and 0x may be written in capitals too is the model's
choice: DESIGN CHOICE, log entry 16. A line that is blank, or a comment only, holds no command and answers `none`: R61 does not say whether
it is legal. DESIGN CHOICE, log entry 16. -/
def assemble (line : List Char) : Option (List Instr) :=
  let cs := Asm.trim ((line.takeWhile (fun c => c != ';')).map Char.toLower)
  let m := cs.takeWhile (fun c => !Asm.blank c)
  let rest := Asm.trim (cs.dropWhile (fun c => !Asm.blank c))
  Asm.command m (if rest = [] then [] else (Asm.split ',' rest).map Asm.trim)

end Sys2Proof.Machine
end

