-- ==== Sys2Proof/Tests/Slice0.lean ====
section
/-! SUPPORT. Tests of the model against the spec's own examples (95_test_vectors.md), and a witness for every
statement that has hypotheses: a state and operands that meet all of them together. Every expected value is the
spec's, or worked out by hand from the rule named. -/

namespace Sys2Proof.Tests

open Sys2Proof Sys2Proof.Machine Sys2Proof.Laws

/-! ### States to test on -/

/-- The reference parameters, each OPEN one at the realized figure of 70_reset_and_hazards.md R112. -/
def params (k : Kind) : Params :=
  { Params.reference with
    tRcd := 125000
    tRp := 125000
    tAsr := 62500
    tRah := 62500
    tAsc := 62500
    tCah := 125000
    tWcs := 125000
    tWch := 125000
    tDs := 250000
    tDh := 125000
    kind := k }

/-- A driver between operations at `t`, its registers zero. -/
def idleAt (k : Kind) (t : Nat) : State :=
  { State.resetWith (params k) with addr := 0, a8 := 0, din := 0, doutReset := 0, t := t }

/-- The same with an awake DRAM that holds `cells`. -/
def awakeAt (k : Kind) (t : Nat) (cells : List Host.Cell) : State :=
  let s := idleAt k t
  { s with dram := { s.dram with cells := cells, wake := 8 } }

/-- The boot state B (95_test_vectors.md section 3) one SETDIN 1 later: t = 8049, row 0 credited at 8048. -/
def booted (k : Kind) (cells : List Host.Cell) : State :=
  let s := awakeAt k 8049 cells
  { s with
    din := 1
    dram := { s.dram with
      lastref := [(0, 8048)]
      watch := { s.dram.watch with addrAt := some 8043, dinAt := some 8049, prevRise := some 8048 } } }

/-- Hold times of a microsecond on the column address and DIN: the windows of P7 and P9 outlast the cycle. -/
def longHold (s : State) : State := { s with params := { s.params with tCah := 1000000, tDh := 1000000 } }

/-- An ended WRITE of row 9, its CAS fall at 8040, is still remembered. -/
def withPast (s : State) : State :=
  { s with dram := { s.dram with watch := { s.dram.watch with pend := [⟨9, 8038, some (8040, .write), 8042, true, none⟩] } } }

/-- The next state, where there is one. -/
def nextOf (o : Host.Outcome State Fault Refusal) : Option State :=
  match o with
  | .next s => some s
  | .fault _ => none
  | .refused _ => none

/-- The row and column (0x42, 0x17) as a cell's number. -/
def cell4217 : Nat := 0x1742

/-! ### Well-formedness -/

theorem test_wf_wait_17 : Instr.wf (.wait 17) = false := by decide
theorem test_wf_wait_16 : Instr.wf (.wait 16) = true := by decide
theorem test_ill_formed_wait_has_no_word : decode (encode (.wait 17)) = .refuse .waitRange := by decide

/-! ### Decoding (95_test_vectors.md 2.1) -/

theorem test_decode_idle : decode 0x00000000 = .command .idle := by decide
theorem test_decode_idle_bit4 : decode 0x00000010 = .refuse .nonzeroUnused := by decide
theorem test_decode_read : decode 0x00017421 = .command (.read 0x42 0x17 none none) := by decide
theorem test_decode_read_high : decode 0x00717421 = .command (.read 0x42 0x17 (some 1) (some 0)) := by decide
theorem test_decode_write : decode 0x00017422 = .command (.write 0x42 0x17 none none) := by decide
theorem test_decode_write_high : decode 0x00F17422 = .command (.write 0x42 0x17 (some 1) (some 1)) := by decide
theorem test_decode_refresh : decode 0x00000003 = .command .refresh := by decide
theorem test_decode_rasonly : decode 0x00300054 = .command (.rasonly 0x05 (some 1)) := by decide
theorem test_decode_rasonly_top : decode 0x00100FF4 = .command (.rasonly 0xFF (some 0)) := by decide
theorem test_decode_wait : decode 0x00000035 = .command (.wait 3) := by decide
theorem test_decode_wait_largest : decode 0x00000105 = .command (.wait 16) := by decide
theorem test_decode_setdin : decode 0x00000016 = .command (.setdin 1) := by decide
theorem test_decode_errpulse : decode 0x00000007 = .command .errpulse := by decide
theorem test_refuse_reserved_first : decode 0x01000008 = .refuse .reservedOp := by decide
theorem test_refuse_unused_before_high : decode 0x01200001 = .refuse .nonzeroUnused := by decide
theorem test_refuse_high : decode 0x00800002 = .refuse .highWithoutPresent := by decide
theorem test_refuse_rasonly_col : decode 0x00001004 = .refuse .nonzeroUnused := by decide
theorem test_refuse_rasonly_chp : decode 0x00400004 = .refuse .nonzeroUnused := by decide
theorem test_refuse_wait_17 : decode 0x00000115 = .refuse .waitRange := by decide
theorem test_refuse_unused_before_wait : decode 0x10000115 = .refuse .nonzeroUnused := by decide
theorem test_encode_read : encode (.read 0x42 0x17 (some 1) (some 0)) = 0x00717421 := by decide
theorem test_encode_rasonly : encode (.rasonly 0x05 (some 1)) = 0x00300054 := by decide
theorem test_refuse_numbers : [RefuseCode.reservedOp, .nonzeroUnused, .highWithoutPresent, .waitRange].map RefuseCode.number
    = [1, 2, 3, 4] := by decide

/-! ### Assembler (30_encoding.md R61, R62) -/

theorem test_asm_read : assemble "READ 0x42, 0x17, rh=1, ch=0".toList = some [.read 0x42 0x17 (some 1) (some 0)] := by
  decide
theorem test_asm_case_comment : assemble "setdin 1 ; pass 2".toList = some [.setdin 1] := by decide
theorem test_asm_wait_17 : assemble "WAIT 17".toList = none := by decide
theorem test_asm_nop : assemble "NOP".toList = some [.wait 1] := by decide
theorem test_asm_wakeup : (assemble "WAKEUP".toList).map List.length = some 8 := by decide

/-! ### Each operation once (95_test_vectors.md 2.2-2.6) -/

/-- V-R1, the whole trace. -/
theorem test_read_trace : (nextOf (exec (.read 0x42 0x17 none none) (awakeAt .dram64K 0 [(cell4217, 1)]))).map State.trace
    = some [.opBegin (.read 0x42 0x17 none none) 0, .store (.addr 0 0x42) 0 1, .store (.ctrl 0x1F 0x16) 1 2,
      .store (.addr 0x42 0x17) 2 3, .store (.ctrl 0x16 0x14) 3 4, .sample 1 7 6, .store (.ctrl 0x14 0x1F) 8 9,
      .opEnd (.read 0x42 0x17 none none) 9] := by decide

/-- V-R3: rh alone leaves A8 at the row-high value, so the cell is (0x142, 0x117); the operation takes 10 cycles. -/
theorem test_read_row_high_only :
    (nextOf (exec (.read 0x42 0x17 (some 1) none)
      (awakeAt .dram256K 0 [(0x42 + 256 * 0x17 + 65536 + 131072, 1)]))).map (fun t => (t.readSample, t.a8, t.t))
    = some (some 1, 1, 10) := by decide

/-- R42, R111 P7: T_CAH outlasts the READ. With no store to come the bit is the cell's; with a RASONLY to come, whose
ADDR store falls into the window, it is a draw (R48 a). -/
theorem test_read_open_window :
    (nextOf (exec (.read 0x42 0x17 none none) (longHold (booted .dram64K [(cell4217, 1)])))).map
      (fun t => (t.readSample, t.draws)) = some (some 1, 0)
    ∧ (nextOf (exec (.read 0x42 0x17 none none)
      { longHold (booted .dram64K [(cell4217, 1)]) with host := [⟨0, 0x00000004⟩] })).map State.draws = some 1 := by decide

/-- R48 b: row 9 was credited at 100, then by a WRITE that ended at 8042, then by a READ that ended at 8058. A DIN
store puts the WRITE in violation, an ADDR store the READ: whichever comes first, the credit of 100 is left. -/
theorem test_take_back_in_any_order :
    let p := (longHold (booted .dram64K [])).params
    let a : Past := ⟨9, 8038, some (8040, .write), 8042, true, some 100⟩
    let b : Past := ⟨9, 8051, some (8053, .read), 8058, true, some 8042⟩
    let d := { (booted .dram64K [(5, 1)]).dram with
      lastref := [(9, 8058)], wake := 10, watch := { (booted .dram64K []).dram.watch with pend := [b, a] } }
    let d1 := (d.pinStore { p with tDh := 2000000 } ⟨.din, 8059⟩).pinStore p ⟨.addr, 8060⟩
    let d2 := (d.pinStore p ⟨.addr, 8059⟩).pinStore { p with tDh := 2000000 } ⟨.din, 8060⟩
    (d1.lastref, d1.wake, d1.cells) = ([(9, 100)], 8, []) ∧ (d2.lastref, d2.wake, d2.cells) = ([(9, 100)], 8, []) := by
  decide

/-- V-W1: the cell becomes 0, and the operation ends at 6. -/
theorem test_write : (nextOf (exec (.write 0x42 0x17 none none) { booted .dram64K [] with din := 0 })).map
    (fun t => (Memory.read cell4217 t.dram.cells, t.t, t.trace.length)) = some (some 0, 8055, 7) := by decide

/-- V-W2: with both high bits, the cell (0x142, 0x117) becomes 1 in 8 cycles. -/
theorem test_write_high : (nextOf (exec (.write 0x42 0x17 (some 1) (some 1)) (booted .dram256K []))).map
    (fun t => (t.dram.cells, t.t, t.a8)) = some ([(0x42 + 256 * 0x17 + 65536 + 131072, 1)], 8057, 1) := by decide

/-- V-W3: a WRITE before any SETDIN stores `?`. -/
theorem test_write_unset_din : (nextOf (exec (.write 0x42 0x17 none none) (awakeAt .dram64K 8049 [(cell4217, 1)]))).map
    (fun t => t.dram.cells) = some [] := by decide

/-- V-R6: D_CAC = 2 samples 62.5 ns after CAS: a draw, 8 cycles, and every cell `?`. -/
theorem test_read_too_early :
    (nextOf (exec (.read 0x42 0x17 none none)
      { awakeAt .dram64K 0 [(cell4217, 1)] with params := { params .dram64K with dCac := 2 } })).map
      (fun t => (t.draws, t.t, t.dram.cells)) = some (1, 8, []) := by decide

/-- V-W5: at 20 MHz CAS is low for 100 ns: every cell becomes `?`. -/
theorem test_write_too_fast :
    (nextOf (exec (.write 0x42 0x17 none none)
      { booted .dram64K [(5, 1)] with params := { params .dram64K with fCpu := 20000000 } })).map
      (fun t => t.dram.cells) = some [] := by decide

/-- V-F1: RC = 0xFF goes on ADDR and wraps to 0; six cycles. -/
theorem test_refresh_wraps : (nextOf (exec .refresh { booted .dram64K [] with rc := 0xFF })).map
    (fun t => (t.addr, t.rc, t.t, t.dram.lastref)) = some (0xFF, 0x00, 8055, [(0, 8048), (255, 8055)]) := by decide

/-- V-F2: RC = 0x7F becomes 0x80. -/
theorem test_refresh_no_carry : (nextOf (exec .refresh { booted .dram64K [] with rc := 0x7F })).map State.rc
    = some 0x80 := by decide

/-- V-F4, the whole trace. -/
theorem test_rasonly_trace : (nextOf (exec (.rasonly 0x05 (some 1)) (awakeAt .dram64K 0 []))).map State.trace
    = some [.opBegin (.rasonly 0x05 (some 1)) 0, .store (.addr 0 0x05) 0 1, .store (.a8 0 1) 1 2,
      .store (.ctrl 0x1F 0x1E) 2 3, .store (.ctrl 0x1E 0x1F) 6 7, .opEnd (.rasonly 0x05 (some 1)) 7] := by decide

/-- V-F5 before T_PWR: no credit and no wake count (V-F6). -/
theorem test_rasonly_before_power_up : (nextOf (exec (.rasonly 0 none) (idleAt .dram64K 0))).map
    (fun t => (t.t, t.dram.wake, t.dram.lastref)) = some (6, 0, []) := by decide

/-- 2.5: WAIT 3 from t = 10 ends at 13 with no store. -/
theorem test_wait : (nextOf (exec (.wait 3) (idleAt .dram64K 10))).map State.trace
    = some [.opBegin (.wait 3) 10, .opEnd (.wait 3) 13] := by decide

/-- 2.5: WAIT 0 takes no cycle. -/
theorem test_wait_zero : (nextOf (exec (.wait 0) (idleAt .dram64K 10))).map (fun t => (t.t, t.op)) = some (10, none) := by
  decide

/-- 2.6: SETDIN 1. -/
theorem test_setdin : (nextOf (exec (.setdin 1) (idleAt .dram64K 0))).map (fun t => (t.din, t.t)) = some (1, 1) := by
  decide

/-- 2.6: ERRPULSE, the whole trace. -/
theorem test_errpulse : (nextOf (exec .errpulse (idleAt .dram64K 0))).map State.trace
    = some [.opBegin .errpulse 0, .store (.ctrl 0x1F 0x0F) 0 1, .store (.ctrl 0x0F 0x1F) 1 2, .opEnd .errpulse 2] := by
  decide

/-- 2.6: IDLE from t = 4 records its store. -/
theorem test_idle : (nextOf (exec .idle (idleAt .dram64K 4))).map State.trace
    = some [.opBegin .idle 4, .store (.ctrl 0x1F 0x1F) 4 5, .opEnd .idle 5] := by decide

/-- R94: no operation starts from another port. -/
theorem test_ctrl_not_idle : exec .idle { idleAt .dram64K 0 with ctrl := 0x1E } = .fault .ctrlNotIdle := by rfl

/-! ### One step -/

/-- 2.5: the word 0x115 from t = 10 is refused with code 4, and there is no later step. -/
theorem test_step_refuses :
    ((nextOf (step { idleAt .dram64K 10 with host := [⟨0, 0x115⟩, ⟨0, 0⟩] })).map (fun t => (t.trace, t.refused))
      = some ([.refused 0x115 .waitRange 10], true))
    ∧ ((nextOf (step { idleAt .dram64K 10 with host := [⟨0, 0x115⟩, ⟨0, 0⟩] })).bind (fun t => nextOf (step t))) = none := by
  decide

/-- A placed word runs as the first instruction after reset, whatever the open parameters are. -/
theorem test_first_instruction : (nextOf (step (State.reset.withFetchWord 32 0x00000016))).map (fun t => (t.din, t.t))
    = some (1, 1) := by rfl

/-- V-H2: a row not credited for 32001 cycles decays on Dram64K; at 32000 it has not. -/
theorem test_decay :
    (({ booted .dram64K [(0, 1)] with t := 40047 }.pass 1).dram.cells = [(0, 1)])
    ∧ (({ booted .dram64K [(0, 1)] with t := 40047 }.pass 2).dram.cells = []) := by decide

/-! ### Witnesses: the hypotheses of each statement, met together -/

theorem completes (i : Instr) (s : State) (h : s.ctrl = CtrlValue.default.bits) : ∃ t, exec i s = .next t :=
  ⟨_, (exec_eq i s).trans (runOperation_idle i _ h)⟩

theorem nextOf_some {o : Host.Outcome State Fault Refusal} {f : State → Bool} (h : (nextOf o).map f = some true) :
    ∃ t, o = .next t ∧ f t = true := by
  cases o with
  | next s => exact ⟨s, rfl, by simpa [nextOf] using h⟩
  | fault r => simp [nextOf] at h
  | refused r => simp [nextOf] at h

theorem kept {p : Params} {t : Nat} {d : Dram} (h : d.lastref.all (fun e => !expired p t e.2) = true) :
    d.keptUntil p t := by
  intro e he
  have := List.all_eq_true.1 h e he
  simpa using this

theorem booted_quiet (k : Kind) (cells : List Host.Cell) : (booted k cells).quiet := by
  refine ⟨rfl, ⟨by simp [booted, awakeAt, idleAt, State.resetWith, Dram.reset, Ctrl.rasN],
    by simp [booted, awakeAt, idleAt, State.resetWith, Dram.reset, Ctrl.casN], ?_⟩, ?_⟩
  · simp [booted, awakeAt, idleAt, State.resetWith, Dram.reset]
  · constructor <;> simp [booted, awakeAt, idleAt, State.resetWith, Dram.reset, Watch.reset]

theorem awakeAt_quiet (k : Kind) (t : Nat) (cells : List Host.Cell) : (awakeAt k t cells).quiet := by
  refine ⟨rfl, ⟨by simp [awakeAt, idleAt, State.resetWith, Dram.reset, Ctrl.rasN],
    by simp [awakeAt, idleAt, State.resetWith, Dram.reset, Ctrl.casN], ?_⟩, ?_⟩
  · simp [awakeAt, idleAt, State.resetWith, Dram.reset]
  · constructor <;> simp [awakeAt, idleAt, State.resetWith, Dram.reset, Watch.reset]

/-- The parameters, the queue and the wake-up count have no part in it. -/
theorem quiet_with {s : State} (h : s.quiet) (p : Params) (l : List Issue) (w : Nat) :
    { s with params := p, host := l, dram := { s.dram with wake := w } }.quiet := ⟨h.1, h.2.1, { h.2.2 with }⟩

/-- The ended WRITE lies in the past. -/
theorem withPast_quiet (k : Kind) (cells : List Host.Cell) : (withPast (booted k cells)).quiet := by
  refine ⟨rfl, (booted_quiet k cells).2.1, { (booted_quiet k cells).2.2 with pend := ?_ }⟩
  intro c hc
  obtain rfl := List.mem_singleton.1 hc
  simp [withPast, booted, awakeAt, idleAt, State.resetWith]

/-- No cycle is remembered, so no store falls into one's window. -/
theorem untouched_nil {s : State} (h : s.dram.watch.pend = []) (es : List PinStore) : s.untouched es := by
  intro c hc; rw [h] at hc; cases hc

theorem rowKept_of {s : State} {cell t : Nat}
    (h : s.dram.lastref.all (fun e => e.1 != cellRow cell || !expired s.params t e.2) = true) : s.rowKept cell t := by
  intro e he hr
  have := List.all_eq_true.1 h e he
  simpa [hr] using this

theorem untouched_of {s : State} {es : List PinStore}
    (h : s.dram.watch.pend.all (fun c => es.all (fun e => !c.hitBy s.params e)) = true) : s.untouched es := by
  intro c hc e he
  have := List.all_eq_true.1 (List.all_eq_true.1 h c hc) e he
  simpa using this

theorem booted_precharged (k : Kind) (cells : List Host.Cell) (rh : Option Bit) : precharged (booted k cells) rh := by
  intro e he
  have hp : (booted k cells).dram.watch.prevRise = some 8048 := rfl
  rw [hp] at he; cases he
  have h3 : atLeast (params k) 3 125000 = true := by cases k <;> decide
  refine atLeast_mono h3 (?_ : 3 ≤ 8049 + 2 * 1 + present rh * 1 - 8048)
  omega

theorem reference_readTiming (ch : Option Bit) : readTiming (params .dram64K) ch := by
  cases ch <;> refine ⟨⟨?_, ?_, ?_, ?_⟩, ?_, ?_, ?_, ?_⟩ <;>
    simp [atLeast, params, Params.reference, present, readRasLow]

theorem reference_writeTiming (ch : Option Bit) : writeTiming (params .dram64K) ch := by
  cases ch <;> refine ⟨⟨?_, ?_, ?_, ?_⟩, ?_, ?_, ?_, ?_, ?_, ?_⟩ <;>
    simp [atLeast, params, Params.reference, present, writeRasLow]

theorem witness_DecodeEncode : Instr.wf (.read 0xFF 0x00 (some 1) none) = true ∧ Instr.wf (.wait 16) = true := by decide

theorem witness_EncodeDecode : decode 0x00F17422 = .command (.write 0x42 0x17 (some 1) (some 1)) := by decide

/-- Each clause of R58's order, and the words on both sides of its bounds. -/
theorem witness_RefusedWords :
    refusalOf 0x8 = some .reservedOp ∧ refusalOf 0x7 = none ∧ refusalOf 0x13 = some .nonzeroUnused
    ∧ refusalOf 0x01000001 = some .nonzeroUnused ∧ refusalOf 0x00400004 = some .nonzeroUnused
    ∧ refusalOf 0x00001004 = some .nonzeroUnused ∧ refusalOf 0x00001005 = some .nonzeroUnused
    ∧ refusalOf 0x26 = some .nonzeroUnused ∧ refusalOf 0x00200001 = some .highWithoutPresent
    ∧ refusalOf 0x00800002 = some .highWithoutPresent ∧ refusalOf 0x00300001 = none
    ∧ refusalOf 0x00000105 = none ∧ refusalOf 0x00000115 = some .waitRange := by decide

/-- A micro-operation, and a step that stores into ADDR twice. -/
theorem witness_StAddrWritesAddr : ((idleAt .dram64K 0).perform (.stAddr 5)).addr ≠ (idleAt .dram64K 0).addr
    ∧ (nextOf (step { idleAt .dram64K 0 with host := [⟨0, 0x00017421⟩] })).map
      (fun t => (t.addr, t.trace.filterMap Event.addrStored)) = some (0x17, [0x42, 0x17]) := by decide

theorem witness_StDinWritesDin : MicroOp.stDin 1 ∈ microOps (.setdin 1) (params .dram64K) 0 := by decide

theorem witness_StA8WritesA8 : MicroOp.stA8 1 ∈ microOps (.rasonly 5 (some 1)) (params .dram64K) 0
    ∧ MicroOp.stA8 0 ∈ microOps (.read 5 6 none (some 0)) (params .dram64K) 0
    ∧ MicroOp.stA8 1 ∉ microOps (.read 5 6 none (some 0)) (params .dram64K) 0 := by decide

/-- D24: with L_IN = 2 the samples at times 0 and 1 take a draw each. -/
theorem test_early_samples_draw_each :
    let s := idleAt .dram64K 0
    let u := { s with params := { s.params with lIn := 2 } }
    u.sample.readSample = some (Config.resetSample 0 0)
      ∧ u.sample.sample.readSample = some (Config.resetSample 0 1) ∧ u.sample.sample.draws = 2 := ⟨rfl, rfl, rfl⟩

/-- Time 0 is before L_IN = 1; time 1 is not. At 6, two cycles after CAS, a READ drives its cell's bit; with no drive
there is no level. -/
theorem witness_SampleSeesThePin :
    (idleAt .dram64K 0).t < (params .dram64K).lIn ∧ ¬ (idleAt .dram64K 1).t < (params .dram64K).lIn
    ∧ ((idleAt .dram64K 1).dram.judgeSample (params .dram64K) 0).dout (params .dram64K) 0 3 [] = none
    ∧ (let s := (awakeAt .dram64K 0 [(cell4217, 1)]).runOps
          [.stAddr 0x42, .stCtrl .rdRow, .stAddr 0x17, .stCtrl .rdCol, .nop, .nop, .nop];
        s.t = 7 ∧ (s.dram.judgeSample s.params s.pin).dout s.params (s.t - s.params.lIn) s.readEnd s.coming = some 1)
    ∧ (booted .dram64K [(5, 1)]).dram.lastref.all (fun e => !expired (params .dram64K) (8049 + 1) e.2) = true := by
  decide

theorem witness_IdleResult : (idleAt .dram64K 4).ctrl = 0x1F := rfl
theorem witness_SetdinResult : (idleAt .dram64K 4).ctrl = 0x1F := rfl
theorem witness_ErrpulseResult : (idleAt .dram64K 4).ctrl = 0x1F := rfl
theorem witness_WaitResult : (idleAt .dram64K 4).ctrl = 0x1F := rfl
theorem witness_RefreshResult : (booted .dram64K []).ctrl = 0x1F := rfl
theorem witness_RasonlyResult : (booted .dram256K []).ctrl = 0x1F := rfl
theorem witness_ReadResult : (booted .dram256K []).ctrl = 0x1F := rfl
theorem witness_WriteResult : (booted .dram256K []).ctrl = 0x1F := rfl

theorem witness_CycleCounts : ∃ t, exec .errpulse (idleAt .dram64K 0) = .next t := completes _ _ rfl

theorem witness_NonStoringMemoryFrame :
    (∃ t, exec (.read 1 2 none none) (booted .dram64K []) = .next t)
    ∧ ∀ row col rh ch, Instr.read 1 2 none none ≠ .write row col rh ch :=
  ⟨completes _ _ rfl, fun _ _ _ _ h => by cases h⟩

theorem witness_WriteMemoryFrame :
    (∃ t, exec (.write 1 2 none none) (booted .dram64K [(5, 1)]) = .next t
      ∧ decide (Memory.read 5 t.dram.cells = some 1) = true)
    ∧ 5 ≠ cellOf (booted .dram64K [(5, 1)]) 1 2 none none :=
  ⟨nextOf_some (by decide), by decide⟩

/-- At the last cycle before the row decays. -/
theorem witness_PortOperationsLeaveDram :
    ∃ t, exec (.wait 16) { booted .dram64K [(0, 1)] with t := 40032 } = .next t
      ∧ (booted .dram64K [(0, 1)]).dram.keptUntil (params .dram64K) t.t := by
  obtain ⟨t, h, hk⟩ := nextOf_some (o := exec (.wait 16) { booted .dram64K [(0, 1)] with t := 40032 })
    (f := fun t => (booted .dram64K [(0, 1)]).dram.lastref.all (fun e => !expired (params .dram64K) t.t e.2)) (by decide)
  exact ⟨t, h, kept hk⟩

/-- With no cycle remembered, and with one whose data hold ended two cycles after 8040. -/
theorem witness_SetdinLeavesCells :
    (booted .dram64K [(0, 1)]).quiet ∧ (withPast (booted .dram64K [(0, 1)])).quiet
    ∧ (withPast (booted .dram64K [(0, 1)])).untouched ((withPast (booted .dram64K [(0, 1)])).ownStores (.setdin 0))
    ∧ ∃ t, exec (.setdin 0) (booted .dram64K [(0, 1)]) = .next t
      ∧ (booted .dram64K [(0, 1)]).dram.keptUntil (params .dram64K) t.t := by
  obtain ⟨t, h, hk⟩ := nextOf_some (o := exec (.setdin 0) (booted .dram64K [(0, 1)]))
    (f := fun t => (booted .dram64K [(0, 1)]).dram.lastref.all (fun e => !expired (params .dram64K) t.t e.2)) (by decide)
  exact ⟨booted_quiet _ _, withPast_quiet _ _, untouched_of (by decide), t, h, kept hk⟩

/-- The windows of its cycle outlast the READ, and the SETDIN to come falls into none of them: a READ has no data
hold. -/
theorem witness_ReadReturnsTheCell :
    let s := { longHold (booted .dram64K [(cell4217, 1)]) with host := [⟨0, 0x00000016⟩] }
    let i := Instr.read 0x42 0x17 none none
    s.quiet ∧ s.awake ∧ s.breaks i = false ∧ s.untouched (s.ownStores i)
    ∧ s.dram.keptUntil s.params (s.t + opCycles s.params i)
    ∧ Memory.read (cellOf s 0x42 0x17 none none) s.dram.cells = some 1
    ∧ s.untouched (s.laterStores i) ∧ (s.laterStores i).length = 1 ∧ ∀ e ∈ s.laterStores i, s.hitBy i e = false :=
  ⟨quiet_with (booted_quiet _ _) _ _ _, ⟨by decide, by decide⟩, by decide, untouched_nil rfl _, kept (by decide), by decide,
    untouched_nil rfl _, by decide, by decide⟩

/-- An ADDR store to come falls into its own column hold; a DIN store to come into an earlier WRITE's data hold; its own
first ADDR store into an earlier WRITE's column hold. -/
theorem witness_ReadSpoiledByALaterStoreDraws :
    let i := Instr.read 0x42 0x17 none none
    let s := { longHold (booted .dram64K [(cell4217, 1)]) with host := [⟨0, 0x00000004⟩] }
    let s' := { withPast (booted .dram64K [(cell4217, 1)]) with
      params := { params .dram64K with tDh := 2000000 }, host := [⟨0, 0x00000016⟩] }
    let s'' := longHold (withPast (booted .dram64K [(cell4217, 1)]))
    s.quiet ∧ s.t + s.params.lIn ≤ casAt s none none + s.params.dCac ∧ (∃ e ∈ s.laterStores i, s.hitBy i e = true)
    ∧ s'.quiet ∧ s'.t + s'.params.lIn ≤ casAt s' none none + s'.params.dCac
    ∧ (∃ e ∈ s'.ownStores i ++ s'.laterStores i, ∃ c ∈ s'.dram.watch.pend, c.hitBy s'.params e = true)
    ∧ s''.quiet ∧ s''.t + s''.params.lIn ≤ casAt s'' none none + s''.params.dCac ∧ s''.laterStores i = []
    ∧ (∃ e ∈ s''.ownStores i ++ s''.laterStores i, ∃ c ∈ s''.dram.watch.pend, c.hitBy s''.params e = true) :=
  ⟨quiet_with (booted_quiet _ _) _ _ _, by decide, ⟨⟨.addr, 8059⟩, by decide, by decide⟩,
    quiet_with (withPast_quiet _ _) _ _ _, by decide,
    ⟨⟨.din, 8059⟩, by decide, ⟨9, 8038, some (8040, .write), 8042, true, none⟩, by decide, by decide⟩,
    quiet_with (withPast_quiet _ _) _ _ _, by decide, by decide,
    ⟨⟨.addr, 8050⟩, by decide, ⟨9, 8038, some (8040, .write), 8042, true, none⟩, by decide, by decide⟩⟩

/-- A cell that is `?`; L_IN is as large as the premise lets it be, and above D_CAC. -/
theorem witness_ReadOfUnknownDraws :
    let s := { booted .dram64K [] with params := { params .dram64K with lIn := 7 } }
    s.quiet ∧ s.t + s.params.lIn = casAt s none none + s.params.dCac ∧ s.params.dCac < s.params.lIn
    ∧ Memory.read (cellOf s 0x42 0x17 none none) s.dram.cells = none :=
  ⟨quiet_with (booted_quiet _ _) _ _ _, by decide, by decide, by decide⟩

/-- The other clauses, the cell being known: D_CAC = 2 leaves one cycle, less than T_CAC; D_CAC = 3 leaves two;
D_CAC = 0 is below L_IN. -/
theorem witness_ReadOfUnknownDraws_early :
    let s := { booted .dram64K [(cell4217, 1)] with params := { params .dram64K with dCac := 2 } }
    let s' := { booted .dram64K [(cell4217, 1)] with params := { params .dram64K with dCac := 0 } }
    s.quiet ∧ s.t + s.params.lIn ≤ casAt s none none + s.params.dCac
    ∧ atLeast s.params (s.params.dCac - s.params.lIn) s.params.tCac = false
    ∧ atLeast (params .dram64K) (3 - 1) 120000 = true
    ∧ s'.quiet ∧ s'.t + s'.params.lIn ≤ casAt s' none none + s'.params.dCac ∧ s'.params.dCac < s'.params.lIn :=
  ⟨quiet_with (booted_quiet _ _) _ _ _, by decide, by decide, by decide, quiet_with (booted_quiet _ _) _ _ _, by decide,
    by decide⟩

theorem witness_WriteStoresDin :
    let s := booted .dram64K []
    let i := Instr.write 0x42 0x17 none none
    s.quiet ∧ s.awake ∧ s.breaks i = false ∧ s.untouched (s.ownStores i)
    ∧ s.dram.keptUntil s.params (s.t + opCycles s.params i) :=
  ⟨booted_quiet _ _, ⟨by decide, by decide⟩, by decide, untouched_nil rfl _, kept (by decide)⟩

/-- T_PWR is 8000 cycles: a RAS fall at 8051 counts; one at 7999, the operation beginning at 7996, does not; one at
8000 does. -/
theorem witness_RasOnlyCreditsTheRow :
    let i := Instr.rasonly 5 (some 1)
    let s := booted .dram64K []
    let s' := awakeAt .dram64K 7996 []
    let s'' := awakeAt .dram64K 7997 []
    s.quiet ∧ s.breaks i = false ∧ s.breaks .refresh = false
    ∧ s.untouched (s.ownStores i) ∧ s.untouched (s.ownStores .refresh)
    ∧ atLeast s.params (rasAt s none) s.params.tPwr = true
    ∧ s.dram.keptUntil s.params (s.t + opCycles s.params i)
    ∧ s.dram.keptUntil s.params (s.t + opCycles s.params .refresh)
    ∧ s'.quiet ∧ s'.breaks i = false ∧ s'.untouched (s'.ownStores i)
    ∧ s'.dram.keptUntil s'.params (s'.t + opCycles s'.params i)
    ∧ rasAt s' (some 1) = 7999 ∧ atLeast s'.params (rasAt s' (some 1)) s'.params.tPwr = false
    ∧ s''.quiet ∧ s''.breaks i = false ∧ atLeast s''.params (rasAt s'' (some 1)) s''.params.tPwr = true :=
  ⟨booted_quiet _ _, by decide, by decide, untouched_nil rfl _, untouched_nil rfl _, by decide, kept (by decide),
    kept (by decide), awakeAt_quiet _ _ _, by decide, untouched_nil rfl _, kept (by decide), by decide, by decide,
    awakeAt_quiet _ _ _, by decide, by decide⟩

theorem witness_TimingFiguresSuffice :
    let s := booted .dram64K []
    s.timeInv ∧ timingMet s.params (.read 1 2 none (some 1)) ∧ timingMet s.params (.write 1 2 (some 1) none)
    ∧ timingMet s.params .refresh ∧ timingMet s.params (.rasonly 1 (some 1)) ∧ timingMet s.params .idle
    ∧ precharged s none ∧ precharged s (some 1) :=
  ⟨(booted_quiet _ _).2.2, reference_readTiming _, reference_writeTiming _, ⟨by decide, by decide⟩,
    ⟨by decide, by decide⟩, trivial, booted_precharged _ _ _, booted_precharged _ _ _⟩

/-- On a Dram64K the READ may name the cell by another tuple; a WRITE of another cell and a REFRESH come between. -/
theorem witness_RoundTrip :
    let s := booted .dram64K []
    let w := Instr.write 1 2 (some 1) (some 1)
    let r := Instr.read 1 2 none none
    s.quiet ∧ ∃ t1, exec (.setdin 1) s = .next t1 ∧ t1.params.nWake ≤ (t1.pass 2).dram.wake ∧ (t1.pass 2).breaks w = false
      ∧ (t1.pass 2).untouched ((t1.pass 2).ownStores w)
      ∧ (t1.pass 2).rowKept (cellOf (t1.pass 2) 1 2 (some 1) (some 1)) ((t1.pass 2).t + opCycles t1.params w)
      ∧ ∃ t2, exec w (t1.pass 2) = .next t2
        ∧ ∃ t3, State.leadsTo (cellOf (t1.pass 2) 1 2 (some 1) (some 1)) [(1, .write 3 2 none none), (0, .refresh)] t2 t3
        ∧ cellOf (t3.pass 4) 1 2 none none = cellOf (t1.pass 2) 1 2 (some 1) (some 1)
        ∧ (t3.pass 4).breaks r = false
        ∧ (t3.pass 4).untouched ((t3.pass 4).ownStores r ++ (t3.pass 4).laterStores r)
        ∧ (∀ e ∈ (t3.pass 4).laterStores r, (t3.pass 4).hitBy r e = false)
        ∧ t3.rowKept (cellOf (t1.pass 2) 1 2 (some 1) (some 1)) ((t3.pass 4).t + opCycles t3.params r) := by
  intro s w r
  refine ⟨booted_quiet _ _, _, exec_run rfl, by decide, by decide, untouched_of (by decide),
    rowKept_of (by decide), _, exec_run rfl, _, ⟨⟨by decide, untouched_of (by decide), rowKept_of (by decide), ?_⟩, _,
    exec_run rfl, ⟨by decide, untouched_of (by decide), rowKept_of (by decide), ?_⟩, _, exec_run rfl, rfl⟩, by decide,
    by decide, untouched_of (by decide), by decide, rowKept_of (by decide)⟩
  · intro row col rh ch h; cases h; decide
  · intro row col rh ch h; cases h

/-- One short of N_WAKE. -/
theorem witness_AsleepDataCyclesLoseAll :
    let s := { booted .dram64K [(5, 1)] with dram := { (booted .dram64K [(5, 1)]).dram with wake := 7 } }
    (∃ t, exec (.read 1 2 none none) s = .next t) ∧ (∃ t, exec (.write 1 2 none none) s = .next t)
    ∧ s.dram.wake < s.params.nWake ∧ s.quiet ∧ s.untouched (s.ownStores (.read 1 2 none none))
    ∧ s.untouched (s.ownStores (.write 1 2 none none))
    ∧ s.t + s.params.lIn ≤ casAt s none none + s.params.dCac :=
  ⟨completes _ _ rfl, completes _ _ rfl, by decide, quiet_with (booted_quiet _ _) _ _ _, untouched_nil rfl _,
    untouched_nil rfl _, by decide⟩

/-- Each predicate broken once, all else met: P1, P2, P3, P4, P5, P6, P7 by a READ, P8 and P9 by a WRITE, P4 by a
REFRESH and P5 by a RASONLY. -/
theorem witness_BrokenCyclesLoseAll :
    let p := params .dram64K
    let s (q : Params) := { booted .dram64K [(5, 1)] with params := q }
    let r := Instr.read 1 2 none none
    let w := Instr.write 1 2 none none
    (∀ q, (s q).quiet ∧ ∀ es, (s q).untouched es) ∧ (s p).breaks r = false ∧ (s p).breaks w = false
    ∧ (s { p with tRcd := 125001 }).breaks r = true ∧ (s { p with tCac := 125001 }).breaks r = true
    ∧ (s { p with tCas := 312501 }).breaks r = true ∧ (s { p with tRas := 437501 }).breaks r = true
    ∧ (s { p with tRp := 187501 }).breaks r = true ∧ (s { p with tAsr := 62501 }).breaks r = true
    ∧ (s { p with tRah := 62501 }).breaks r = true ∧ (s { p with tAsc := 62501 }).breaks r = true
    ∧ (s { p with tWcs := 125001 }).breaks w = true ∧ (s { p with tWch := 125001 }).breaks w = true
    ∧ (s { p with tDs := 250001 }).breaks w = true ∧ (s { p with tRas := 250001 }).breaks .refresh = true
    ∧ (s { p with tRp := 187501 }).breaks (.rasonly 1 none) = true :=
  ⟨fun q => ⟨quiet_with (booted_quiet _ _) q _ _, untouched_nil rfl⟩, by decide, by decide, by decide, by decide, by decide,
    by decide, by decide, by decide, by decide, by decide, by decide, by decide, by decide, by decide, by decide⟩

/-- A DIN store in the data hold of a WRITE, and an ADDR store in the row hold of a RASONLY, in the cycle after each. -/
theorem witness_LateStoreTakesTheCycleBack :
    let late (s : State) (i : Instr) (m : MicroOp) (l : PinLine) : Prop :=
      s.quiet ∧ makesCycle i = true ∧ s.params.nWake ≤ s.dram.wake ∧ s.breaks i = false
      ∧ s.untouched (s.ownStores i) ∧ ∃ t, exec i s = .next t ∧ storesOf s.params (t.t + 0) [m] = [⟨l, t.t + 1⟩]
        ∧ s.hitBy i ⟨l, t.t + 1⟩ = true ∧ s.untouched [⟨l, t.t + 1⟩]
        ∧ s.dram.keptUntil s.params (t.t + 1) ∧ t.dram.keptUntil s.params (t.t + 1)
    late (longHold (booted .dram64K [(5, 1)])) (.write 1 2 none none) (.stDin 0) .din
    ∧ late { booted .dram64K [(5, 1)] with params := { params .dram64K with tRah := 1000000 } } (.rasonly 0 none)
      (.stAddr 7) .addr :=
  ⟨⟨quiet_with (booted_quiet _ _) _ _ _, by decide, by decide, by decide, untouched_nil rfl _, _, exec_run rfl, by decide,
      by decide, untouched_nil rfl _, kept (by decide), kept (by decide)⟩,
    ⟨quiet_with (booted_quiet _ _) _ _ _, by decide, by decide, by decide, untouched_nil rfl _, _, exec_run rfl, by decide,
      by decide, untouched_nil rfl _, kept (by decide), kept (by decide)⟩⟩

/-- A READ's first ADDR store in the column hold of the WRITE of row 9, and a SETDIN's store in its data hold. -/
theorem witness_OwnStoreTakesEarlierCyclesBack :
    let s := longHold (withPast (booted .dram64K [(5, 1)]))
    s.quiet ∧ s.memInv ∧ s.dram.PendInOrder ∧ s.params.legal = true
    ∧ (∃ c ∈ s.dram.watch.pend, ∃ e ∈ s.ownStores (.read 1 2 none none), c.hitBy s.params e = true)
    ∧ s.t + s.params.lIn ≤ casAt s none none + s.params.dCac
    ∧ (∃ c ∈ s.dram.watch.pend, c.credited = true ∧ ∃ e ∈ s.ownStores (.setdin 0), c.hitBy s.params e = true) :=
  ⟨quiet_with (withPast_quiet _ _) _ _ _, ⟨by decide, by decide, by decide, by decide⟩,
    ⟨by decide, by decide, by decide⟩, by decide,
    ⟨⟨9, 8038, some (8040, .write), 8042, true, none⟩, by decide, ⟨.addr, 8050⟩, by decide, by decide⟩, by decide,
    ⟨⟨9, 8038, some (8040, .write), 8042, true, none⟩, by decide, rfl, ⟨.din, 8050⟩, by decide, by decide⟩⟩

theorem witness_A8IsNoAddressOnDram64K : (booted .dram64K []).params.kind = .dram64K := rfl

/-- On each kind a pair of tuples that reach one cell, with a high bit absent, and a pair that does not. -/
theorem witness_TuplesNameCells :
    let s := booted .dram256K []
    let s' := { booted .dram256K [] with a8 := 1 }
    cellOf s' 0xFF 0xFF none none = cellOf s 0xFF 0xFF (some 1) (some 1)
    ∧ cellOf s 0xFF 0xFF none none ≠ cellOf s' 0xFF 0xFF none none
    ∧ cellOf (booted .dram64K []) 0 1 none none ≠ cellOf (booted .dram64K []) 1 0 none none := by decide

/-- Both outcomes: the row's last cycle, and the cycle it decays in. -/
theorem witness_DecayAsTimePasses :
    (booted .dram64K []).op = none ∧ (booted .dram64K []).refused = false ∧ (booted .dram64K []).host = []
    ∧ ¬ 2000000000 * 16000000 < (40047 + 1 - 8048) * 10 ^ 12 ∧ 2000000000 * 16000000 < (40048 + 1 - 8048) * 10 ^ 12 := by
  decide

theorem witness_StepRunsTheCommand :
    let s := { booted .dram64K [] with host := [⟨3, 0x00000035⟩] }
    s.op = none ∧ s.refused = false ∧ s.host = ⟨3, 0x00000035⟩ :: [] ∧ decode 0x00000035 = .command (.wait 3) := by decide

theorem witness_StepRefusesTheWord :
    let s := { booted .dram64K [] with host := [⟨3, 0x00000115⟩] }
    s.op = none ∧ s.refused = false ∧ s.host = ⟨3, 0x00000115⟩ :: [] ∧ decode 0x00000115 = .refuse .waitRange := by decide

/-- A refused state takes no step between operations; in the middle of one, a step keeps `refused`. -/
theorem witness_RefusedForGood :
    (nextOf (step { idleAt .dram64K 0 with refused := true, op := some (.wait 3, 0) })).map State.refused = some true
    ∧ (nextOf (step { idleAt .dram64K 0 with host := [⟨0, 0x8⟩] })).map State.refused = some true
    ∧ (nextOf (step { idleAt .dram64K 0 with host := [⟨0, 0x7⟩] })).map State.refused = some false := by decide

theorem witness_CtrlNotIdleExactly :
    exec .refresh { idleAt .dram64K 0 with ctrl := 0x0F } = .fault .ctrlNotIdle
    ∧ ∃ t, exec .refresh (idleAt .dram64K 0) = .next t := ⟨rfl, completes _ _ rfl⟩

theorem witness_SmallStepsAgree : (booted .dram256K []).ctrl = 0x1F ∧ (microOps (.wait 0) (params .dram64K) 0).length = 0 := by
  decide

theorem witness_TraceOnlyGrows : ∃ t, step (idleAt .dram64K 0) = .next t := ⟨_, rfl⟩

/-- In the middle of a READ, its column's store and a SETDIN's to come. -/
theorem witness_ForeseenStoresAreMade :
    let s := { idleAt .dram64K 2 with op := some (.read 1 2 none none, 2), host := [⟨0, 0x00000016⟩] }
    s.coming = [⟨.addr, 3⟩, ⟨.din, 10⟩] ∧ ∃ t, step s = .next t ∧ t.coming = [⟨.din, 10⟩] := ⟨by decide, _, rfl, by decide⟩

/-- Each register does change in an operation that may write it. -/
theorem witness_SingleWriters :
    (nextOf (exec .refresh (idleAt .dram64K 0))).map State.rc ≠ some (idleAt .dram64K 0).rc
    ∧ (nextOf (exec (.setdin 1) (idleAt .dram64K 0))).map State.din ≠ some (idleAt .dram64K 0).din
    ∧ (nextOf (exec (.rasonly 5 (some 1)) (idleAt .dram64K 0))).map State.a8 ≠ some (idleAt .dram64K 0).a8
    ∧ (nextOf (exec (.rasonly 5 (some 1)) (idleAt .dram64K 0))).map State.addr ≠ some (idleAt .dram64K 0).addr := by decide

/-- Two DRAMs that answer a READ differently. -/
theorem witness_DramNeverSteersTheDriver :
    let s := awakeAt .dram64K 0 [(cell4217, 1)]
    let s' := awakeAt .dram64K 0 [(cell4217, 0)]
    s' = { s with dram := s'.dram, doutReset := s'.doutReset, draws := s'.draws, readSample := s'.readSample }
    ∧ (nextOf (exec (.read 0x42 0x17 none none) s)).map State.readSample = some (some 1)
    ∧ (nextOf (exec (.read 0x42 0x17 none none) s')).map State.readSample = some (some 0) := ⟨rfl, by decide, by decide⟩

/-- Between operations, and in the middle of a READ, where CTRL is 0x16. -/
theorem witness_PortIdleBetweenOperations :
    (booted .dram64K []).portInv
    ∧ { booted .dram64K [] with op := some (.read 1 2 none none, 2), ctrl := 0x16 }.portInv := ⟨rfl, rfl⟩

theorem witness_MemoryStaysCanonical :
    (booted .dram64K [(5, 1)]).memInv ∧ ∃ t, step (booted .dram64K [(5, 1)]) = .next t :=
  ⟨⟨by decide, by decide, by decide, by decide⟩, _, rfl⟩

theorem witness_LatchesFollowTheLines :
    (booted .dram64K []).portInv ∧ (booted .dram64K []).latchInv ∧ ∃ t, step (booted .dram64K []) = .next t :=
  ⟨rfl, (booted_quiet _ _).2.1, _, rfl⟩

theorem witness_NothingFromTheFuture :
    (booted .dram64K []).timeInv ∧ ∃ t, step (booted .dram64K []) = .next t := ⟨(booted_quiet _ _).2.2, _, rfl⟩

/-- With the ended WRITE remembered, on an idle cycle and on a step that ends another cycle. -/
theorem witness_PendingCyclesInOrder :
    (withPast (booted .dram64K [])).timeInv ∧ (params .dram64K).legal = true ∧ (withPast (booted .dram64K [])).dram.PendInOrder
    ∧ (∃ t, step (withPast (booted .dram64K [])) = .next t)
    ∧ ∃ t, step { withPast (booted .dram64K []) with host := [⟨0, 0x00000004⟩] } = .next t :=
  ⟨(withPast_quiet _ _).2.2, by decide, ⟨by decide, by decide, by decide⟩, ⟨_, rfl⟩, ⟨_, rfl⟩⟩

theorem witness_UncreditedRowsAreUnknown :
    (booted .dram64K [(0, 1)]).portInv ∧ (booted .dram64K [(0, 1)]).latchInv ∧ (booted .dram64K [(0, 1)]).timeInv
    ∧ (booted .dram64K [(0, 1)]).creditInv ∧ ∃ t, step (booted .dram64K [(0, 1)]) = .next t := by
  refine ⟨rfl, (booted_quiet _ _).2.1, (booted_quiet _ _).2.2, ⟨by decide, fun _ => by decide, ?_, ?_⟩, _, rfl⟩
  · intro r hr; cases hr
  · intro a b hb
    left
    have ha : a = 0 := by
      by_cases h : 0 = a
      · exact h.symm
      · simp [booted, awakeAt, Memory.read, Sparse.get, h] at hb
    subst ha; rfl

theorem witness_ResetMeetsTheInvariants : 1 ≤ Params.reference.nWake := by decide

end Sys2Proof.Tests
end

section
/-! SUPPORT. One step of the machine (40_timing_primitives.md R72, R73): an equation for each way it can go, their
inversion, and what every step keeps. -/

namespace Sys2Proof.Proofs

open Sys2Proof.Machine Sys2Proof.Laws

/-! ### The ways of a step -/

section
variable {s t : State}

/-- An operation in progress does its next micro-operation (R14). -/
theorem step_inProgress {cmd : Instr} {k : Nat} (hop : s.op = some (cmd, k)) : step s = .next (s.microStep cmd k) := by
  simp [step, hop]

/-- While the host hands over nothing, one cycle passes (R24). -/
theorem step_idle (hop : s.op = none) (hr : s.refused = false) (hh : s.host = []) : step s = .next (s.pass 1) := by
  simp [step, hop, hr, hh]

/-- A word that decodes to a command runs as it after its gap (R73). -/
theorem step_command {i : Issue} {rest : List Issue} {cmd : Instr} (hop : s.op = none) (hr : s.refused = false)
    (hh : s.host = i :: rest) (hd : decode i.word = .command cmd) : step s = exec cmd (s.take i rest) := by
  simp [step, hop, hr, hh, hd]

/-- A word that the decoder refuses is recorded after its gap (R93). -/
theorem step_refuse {i : Issue} {rest : List Issue} {c : RefuseCode} (hop : s.op = none) (hr : s.refused = false)
    (hh : s.host = i :: rest) (hd : decode i.word = .refuse c) :
    step s = .next ((s.take i rest).refuse i.word c) := by
  simp [step, hop, hr, hh, hd]

/-- Once a word is refused, no further one is taken (R93). -/
theorem step_ended (hop : s.op = none) (hr : s.refused = true) : step s = .fault .runEnded := by
  simp [step, hop, hr]

/-- The four ways a step answers a next state. -/
theorem step_cases (h : step s = .next t) :
    (∃ cmd k, s.op = some (cmd, k) ∧ t = s.microStep cmd k)
    ∨ (s.op = none ∧ s.refused = false ∧ s.host = [] ∧ t = s.pass 1)
    ∨ (∃ i rest cmd, s.op = none ∧ s.refused = false ∧ s.host = i :: rest ∧ decode i.word = .command cmd
        ∧ exec cmd (s.take i rest) = .next t)
    ∨ ∃ i rest c, s.op = none ∧ s.refused = false ∧ s.host = i :: rest ∧ decode i.word = .refuse c
        ∧ t = (s.take i rest).refuse i.word c := by
  cases hop : s.op with
  | some o =>
    rw [step_inProgress hop] at h
    injection h with h
    exact .inl ⟨o.1, o.2, rfl, h.symm⟩
  | none =>
    cases hr : s.refused with
    | true => rw [step_ended hop hr] at h; cases h
    | false =>
      cases hh : s.host with
      | nil =>
        rw [step_idle hop hr hh] at h
        injection h with h
        exact .inr (.inl ⟨rfl, rfl, rfl, h.symm⟩)
      | cons i rest =>
        cases hd : decode i.word with
        | command cmd => exact .inr (.inr (.inl ⟨i, rest, cmd, rfl, rfl, rfl, hd, step_command hop hr hh hd ▸ h⟩))
        | refuse c =>
          rw [step_refuse hop hr hh hd] at h
          injection h with h
          exact .inr (.inr (.inr ⟨i, rest, c, rfl, rfl, rfl, hd, h.symm⟩))

end

/-! ### Time and trace (R24, R25) -/

/-- `x` comes at `s` or after it: its time is no earlier and its trace goes on from that of `s`. -/
def Follows (s x : State) : Prop := s.t ≤ x.t ∧ ∃ es, x.trace = s.trace ++ es

theorem follows_refl (s : State) : Follows s s := ⟨Nat.le_refl _, [], by simp⟩

theorem follows_trans {s x y : State} (hx : Follows s x) (hy : Follows x y) : Follows s y := by
  obtain ⟨htx, es, hes⟩ := hx
  obtain ⟨hty, fs, hfs⟩ := hy
  exact ⟨Nat.le_trans htx hty, es ++ fs, by rw [hfs, hes, List.append_assoc]⟩

/-- Every step goes on from the state it starts in. -/
theorem step_follows {s t : State} (h : step s = .next t) : Follows s t :=
  step_keeps (P := Follows s)
    (hperform := fun m x hx => follows_trans hx ⟨perform_t_le x m, perform_trace x m⟩)
    (hbegin := fun cmd x hx => follows_trans hx ⟨Nat.le_refl _, _, beginOp_trace x cmd⟩)
    (hend := fun cmd x hx => follows_trans hx ⟨Nat.le_of_eq (endOp_t x cmd).symm, _, endOp_trace x cmd⟩)
    (hpass := fun g x hx => follows_trans hx ⟨Nat.le_add_right _ g, [], by simp⟩)
    (hhost := fun _ _ hx => hx)
    (hrefuse := fun w c x hx => follows_trans hx ⟨Nat.le_refl _, _, refuse_trace x w c⟩)
    (follows_refl s) h

/-! ### Refusals (R26, R93) -/

theorem microStep_refused (s : State) (cmd : Instr) (k : Nat) : (s.microStep cmd k).refused = s.refused := by
  unfold State.microStep
  dsimp only
  split
  · exact endOp_refused s cmd
  · split
    · exact perform_refused s _
    · rw [endOp_refused, perform_refused]

theorem exec_refused {i : Instr} {s t : State} (h : exec i s = .next t) : t.refused = s.refused := by
  obtain ⟨_, rfl⟩ := exec_next h
  rw [endOp_refused, runOps_refused, beginOp_refused]

/-- No step clears `refused` (R26). -/
theorem step_keeps_refused {s t : State} (hs : s.refused = true) (h : step s = .next t) : t.refused = true := by
  rcases step_cases h with ⟨cmd, k, _, rfl⟩ | ⟨_, hr, _⟩ | ⟨_, _, _, _, hr, _⟩ | ⟨_, _, _, _, _, _, _, rfl⟩
  · rw [microStep_refused, hs]
  · rw [hr] at hs; cases hs
  · rw [hr] at hs; cases hs
  · rfl

/-- A step sets `refused` exactly when it takes a word that the decoder refuses (R26, R93). -/
theorem step_sets_refused_iff {s t : State} (hs : s.refused = false) (h : step s = .next t) :
    t.refused = true ↔ s.op = none ∧ ∃ i rest c, s.host = i :: rest ∧ decode i.word = .refuse c := by
  rcases step_cases h with ⟨cmd, k, hop, rfl⟩ | ⟨_, _, hh, rfl⟩ | ⟨i, rest, cmd, _, _, hh, hd, he⟩
    | ⟨i, rest, c, hop, _, hh, hd, rfl⟩
  · simp [microStep_refused, hs, hop]
  · simp [hs, hh]
  · simp [exec_refused he, hs, hh, hd]
  · simp [hop, hh, hd]

/-! ### Small steps (R14, R72) -/

/-- Past the end of its list an operation ends. -/
theorem microStep_done {s : State} {cmd : Instr} {k : Nat} (h : (microOps cmd s.params s.rc).drop k = []) :
    s.microStep cmd k = s.endOp cmd := by
  simp [State.microStep, List.getElem?_eq_none (List.drop_eq_nil_iff.1 h)]

/-- Before the last micro-operation of its list an operation goes on, after it the operation ends. -/
theorem microStep_cons {s : State} {cmd : Instr} {k : Nat} {m : MicroOp} {ms : List MicroOp}
    (h : (microOps cmd s.params s.rc).drop k = m :: ms) :
    s.microStep cmd k = if ms = [] then (s.perform m).endOp cmd else s.perform m := by
  have hm : (microOps cmd s.params s.rc)[k]? = some m := by rw [← List.head?_drop, h]; rfl
  have hlen : (microOps cmd s.params s.rc).length - k = ms.length + 1 := by rw [← List.length_drop, h]; rfl
  simp only [State.microStep, hm]
  cases ms with
  | nil => rw [if_neg (by simp at hlen; omega), if_pos rfl]
  | cons m' ms => rw [if_pos (by simp at hlen; omega), if_neg (by simp)]

/-- A step within an operation does the next micro-operation of its list. -/
theorem step_microOp {s : State} {cmd : Instr} {k : Nat} {m : MicroOp} {ms : List MicroOp}
    (hop : s.op = some (cmd, k)) (h : (microOps cmd s.params s.rc).drop k = m :: ms) :
    step s = .next (if ms = [] then (s.perform m).endOp cmd else s.perform m) := by
  rw [step_inProgress hop, microStep_cons h]

/-- A run's first step, where it answers a next state. -/
theorem run_succ {s x : State} (n : Nat) (h : step s = .next x) : core.run (n + 1) s = core.run n x := by
  have h : core.step s = .next x := h
  simp only [Host.Core.run, h]

/-- One micro-operation per step does what is left of an operation's list, and ends it. -/
theorem run_microSteps {cmd : Instr} {m : MicroOp} {ms : List MicroOp} {k : Nat} {s : State}
    (hop : s.op = some (cmd, k)) (h : (microOps cmd s.params s.rc).drop k = m :: ms) :
    core.run (ms.length + 1) s = .next ((s.runOps (m :: ms)).endOp cmd) := by
  induction ms generalizing m k s with
  | nil => exact run_succ 0 (step_microOp hop h)
  | cons m' ms ih =>
    have hnext : (microOps cmd (s.perform m).params (s.perform m).rc).drop (k + 1) = m' :: ms := by
      rw [perform_params, perform_rc, ← List.tail_drop, h]; rfl
    exact (run_succ _ (step_microOp hop h)).trans (ih (k := k + 1) (by simp [hop]) hnext)

/-- From its begin, one micro-operation per step runs a whole operation; an empty list (WAIT 0) takes the one step
that ends it (log entry 11). -/
theorem run_beginOp (cmd : Instr) (s : State) :
    core.run (max 1 (microOps cmd s.params s.rc).length) (s.beginOp cmd)
      = .next (((s.beginOp cmd).runOps (microOps cmd s.params s.rc)).endOp cmd) := by
  have hop := beginOp_op s cmd
  have hdrop : (microOps cmd (s.beginOp cmd).params (s.beginOp cmd).rc).drop 0 = microOps cmd s.params s.rc := rfl
  cases hl : microOps cmd s.params s.rc with
  | nil =>
    refine run_succ 0 ?_
    rw [step_inProgress hop, microStep_done (hdrop.trans hl), runOps_nil]
  | cons m ms =>
    rw [List.length_cons, Nat.max_eq_right (Nat.le_add_left 1 ms.length)]
    exact run_microSteps hop (hdrop.trans hl)

end Sys2Proof.Proofs
end

section
/-! SUPPORT. Who writes which register (10_state.md R19-R23, R27): the stores in each operation's list, and that a
register changes along a list only where the list stores to it. -/

namespace Sys2Proof.Proofs

open Sys2Proof.Machine Sys2Proof.Laws

/-! ### The CTRL stores of a list (R18, R67) -/

@[simp] theorem ctrlStores_append (as bs : List MicroOp) : ctrlStores (as ++ bs) = ctrlStores as ++ ctrlStores bs :=
  List.filterMap_append

@[simp] theorem ctrlStores_wait (n : Nat) : ctrlStores (waitOps n) = [] := by
  induction n with
  | zero => rfl
  | succ n ih => exact ih

@[simp] theorem ctrlStores_a8Ops (o : Option Bit) : ctrlStores (a8Ops o) = [] := by cases o <;> rfl

/-! ### The ADDR, A8 and DIN stores of an operation (R65, R66, R68) -/

theorem mem_waitOps {m : MicroOp} {n : Nat} (h : m ∈ waitOps n) : m = .nop := List.eq_of_mem_replicate h

@[simp] theorem stAddr_not_mem_waitOps (v : Byte) (n : Nat) : .stAddr v ∉ waitOps n := fun h => nomatch mem_waitOps h
@[simp] theorem stA8_not_mem_waitOps (b : Bit) (n : Nat) : .stA8 b ∉ waitOps n := fun h => nomatch mem_waitOps h
@[simp] theorem stDin_not_mem_waitOps (b : Bit) (n : Nat) : .stDin b ∉ waitOps n := fun h => nomatch mem_waitOps h

@[simp] theorem stDin_not_mem_a8Ops (b : Bit) (o : Option Bit) : .stDin b ∉ a8Ops o := by cases o <;> simp [a8Ops]
@[simp] theorem stA8_mem_a8Ops (b : Bit) (o : Option Bit) : .stA8 b ∈ a8Ops o ↔ o = some b := by
  cases o <;> simp [a8Ops, eq_comm]

/-- Only the operations that strobe store into ADDR (R19). -/
theorem stAddr_mem_microOps {cmd : Instr} {p : Params} {rc v : Byte} (h : .stAddr v ∈ microOps cmd p rc) :
    cmd = .refresh ∨ ∃ row col rh ch, cmd = .read row col rh ch ∨ cmd = .write row col rh ch ∨ cmd = .rasonly row rh := by
  cases cmd with
  | refresh => exact .inl rfl
  | read row col rh ch => exact .inr ⟨row, col, rh, ch, .inl rfl⟩
  | write row col rh ch => exact .inr ⟨row, col, rh, ch, .inr (.inl rfl)⟩
  | rasonly row rh => exact .inr ⟨row, 0, rh, none, .inr (.inr rfl)⟩
  | idle => simp [microOps, idleOps] at h
  | wait n => simp [microOps] at h
  | setdin v => simp [microOps, setdinOps] at h
  | errpulse => simp [microOps, errpulseOps] at h

/-- Only an operation with a high operand stores into A8, and it stores the operand (R20, R66). -/
theorem stA8_mem_microOps {cmd : Instr} {p : Params} {rc : Byte} {b : Bit} (h : .stA8 b ∈ microOps cmd p rc) :
    ∃ row col rh ch, (cmd = .read row col rh ch ∨ cmd = .write row col rh ch ∨ (cmd = .rasonly row rh ∧ ch = none))
      ∧ (rh = some b ∨ ch = some b) := by
  cases cmd with
  | read row col rh ch => exact ⟨row, col, rh, ch, .inl rfl, by simpa [microOps, readOps] using h⟩
  | write row col rh ch => exact ⟨row, col, rh, ch, .inr (.inl rfl), by simpa [microOps, writeOps] using h⟩
  | rasonly row rh =>
    exact ⟨row, 0, rh, none, .inr (.inr ⟨rfl, rfl⟩), .inl (by simpa [microOps, rasonlyOps] using h)⟩
  | idle => simp [microOps, idleOps] at h
  | refresh => simp [microOps, refreshOps] at h
  | wait n => simp [microOps] at h
  | setdin v => simp [microOps, setdinOps] at h
  | errpulse => simp [microOps, errpulseOps] at h

/-- Only SETDIN stores into DIN, and it stores its operand (R21, R68). -/
theorem stDin_mem_microOps {cmd : Instr} {p : Params} {rc : Byte} {b : Bit} (h : .stDin b ∈ microOps cmd p rc) :
    cmd = .setdin b := by
  cases cmd with
  | setdin v => simpa [microOps, setdinOps, eq_comm] using h
  | idle => simp [microOps, idleOps] at h
  | read row col rh ch => simp [microOps, readOps] at h
  | write row col rh ch => simp [microOps, writeOps] at h
  | refresh => simp [microOps, refreshOps] at h
  | rasonly row rh => simp [microOps, rasonlyOps] at h
  | wait n => simp [microOps] at h
  | errpulse => simp [microOps, errpulseOps] at h

/-! ### The registers along a list (R27) -/

/-- What changes over an operation, neither its begin nor its end changing it, a micro-operation of its list
changes. -/
theorem exists_microOp_of_exec_ne {α : Type} (reg : State → α) {i : Instr} {s t : State} (h : exec i s = .next t)
    (hbegin : reg (s.beginOp i) = reg s) (hend : ∀ x : State, reg (x.endOp i) = reg x) (hne : reg t ≠ reg s) :
    ∃ m ∈ microOps i s.params s.rc, ∃ x : State, reg (x.perform m) ≠ reg x := by
  obtain ⟨_, rfl⟩ := exec_next h
  refine Classical.byContradiction fun hno => ?_
  have hkept : ∀ x m, m ∈ microOps i s.params s.rc → reg x = reg s → reg (x.perform m) = reg s := fun x m hm hx =>
    Classical.byContradiction fun hx' => hno ⟨m, hm, x, fun e => hx' (e.trans hx)⟩
  exact hne ((hend _).trans (runOps_of (P := fun x => reg x = reg s) _ _ hbegin hkept))

/-- No other micro-operation than `st_addr` changes ADDR (R19). -/
theorem perform_addr_ne {m : MicroOp} {s : State} (h : (s.perform m).addr ≠ s.addr) : ∃ v, m = .stAddr v := by
  cases m with
  | stAddr v => exact ⟨v, rfl⟩
  | _ => exact absurd rfl h

/-- No other micro-operation than `st_a8` changes A8 (R20). -/
theorem perform_a8_ne {m : MicroOp} {s : State} (h : (s.perform m).a8 ≠ s.a8) : ∃ b, m = .stA8 b := by
  cases m with
  | stA8 b => exact ⟨b, rfl⟩
  | _ => exact absurd rfl h

/-- No other micro-operation than `st_din` changes DIN (R21). -/
theorem perform_din_ne {m : MicroOp} {s : State} (h : (s.perform m).din ≠ s.din) : ∃ b, m = .stDin b := by
  cases m with
  | stDin b => exact ⟨b, rfl⟩
  | _ => exact absurd rfl h

theorem runOps_rc (ops : List MicroOp) (s : State) : (s.runOps ops).rc = s.rc :=
  runOps_of (P := fun x => x.rc = s.rc) ops s rfl (fun x m _ hx => by rw [perform_rc, hx])

/-- RC advances by one at the end of a REFRESH, and no other operation changes it (R23, R82). -/
theorem exec_rc {i : Instr} {s t : State} (h : exec i s = .next t) :
    t.rc = if i = .refresh then s.rc + 1 else s.rc := by
  obtain ⟨_, rfl⟩ := exec_next h
  rw [endOp_rc, runOps_rc, beginOp_rc]

theorem exec_host {i : Instr} {s t : State} (h : exec i s = .next t) : t.host = s.host := by
  obtain ⟨_, rfl⟩ := exec_next h
  rw [endOp_host, runOps_host, beginOp_host]

end Sys2Proof.Proofs
end

section
/-! SUPPORT. Decay as time passes (20_memory.md R46), the level a sample sees (40_timing_primitives.md R70), and the
DRAM after reset (R39). -/

namespace Sys2Proof.Proofs

open Sys2Proof.Machine Sys2Proof.Laws

/-! ### Decay -/

/-- A credit has expired exactly when it is longer than T_REF ago (R10, R46). -/
theorem expired_iff (p : Params) (τ ref : Nat) :
    expired p τ ref = true ↔ tRef p * p.fCpu < (τ - ref) * 10 ^ 12 := decide_eq_true_iff

/-- The credits decay leaves are those no longer than T_REF ago. -/
theorem mem_decay_lastref {p : Params} {τ : Nat} {d : Dram} {e : Nat × Nat} :
    e ∈ (d.decay p τ).lastref ↔ e ∈ d.lastref ∧ ¬ tRef p * p.fCpu < (τ - e.2) * 10 ^ 12 := by
  rw [decay_lastref, List.mem_filter, ← expired_iff, Bool.not_eq_true, Bool.not_eq_true']

/-- A cell becomes `?` exactly when its row was credited longer than T_REF ago; any other keeps its value. -/
theorem read_after_decay (p : Params) (τ : Nat) (d : Dram) (a : Nat) :
    Memory.read a (d.decay p τ).cells =
      if ∃ e ∈ d.lastref, e.1 = cellRow a ∧ tRef p * p.fCpu < (τ - e.2) * 10 ^ 12
      then none else Memory.read a d.cells := by
  have hrow : (d.lastref.filter (fun e => expired p τ e.2)).any (fun e => e.1 == cellRow a) = true
      ↔ ∃ e ∈ d.lastref, e.1 = cellRow a ∧ tRef p * p.fCpu < (τ - e.2) * 10 ^ 12 := by
    simp only [List.any_eq_true, List.mem_filter, beq_iff_eq, expired_iff, and_assoc]
    exact exists_congr fun e => and_congr_right fun _ => and_comm
  rw [decay_read]
  simp only [hrow]

/-! ### What a sample sees -/

/-- Before time L_IN the line has no level (D24). -/
theorem pinLevel_of_early {s : State} (h : s.t < s.params.lIn) : s.pinLevel = none :=
  if_pos (by simp only [State.pin]; omega)

/-- From time L_IN on the level is the DRAM's of L_IN cycles before (R70). -/
theorem pinLevel_of_lIn {s : State} (h : s.params.lIn ≤ s.t) :
    s.pinLevel = (s.dram.judgeSample s.params s.pin).dout s.params (s.t - s.params.lIn) s.readEnd s.coming := by
  have hpin : s.pin.toNat = s.t - s.params.lIn := by simp only [State.pin]; omega
  rw [State.pinLevel, if_neg (by simp only [State.pin]; omega), hpin]

/-- A sample changes no cell while no row decays (R37). -/
theorem sample_cells {s : State} (h : s.dram.keptUntil s.params (s.t + s.params.cIn)) :
    s.sample.dram.cells = s.dram.cells := by
  rw [sample_dram, decay_eq_self _ _ (s.dram.judgeSample s.params s.pin) h, judgeSample_cells]

/-! ### After reset -/

theorem reset_wf (k : Kind) : Dram.reset.wf k :=
  ⟨wf_nil k, List.Pairwise.nil, List.forall_mem_nil _, List.forall_mem_nil _⟩

theorem reset_notAfter (t : Nat) : Dram.reset.NotAfter t := by constructor <;> simp [Dram.reset, Watch.reset]

theorem reset_pendInOrder : Dram.reset.PendInOrder := by constructor <;> simp [Dram.reset, Watch.reset]

theorem reset_latchInv (p : Params) : (State.resetWith p).latchInv :=
  ⟨by simp [State.resetWith, Dram.reset, Ctrl.rasN], by simp [State.resetWith, Dram.reset, Ctrl.casN],
    fun _ => List.forall_mem_nil _⟩

/-- No cell is known, and the DRAM is not awake (R39, log entry 2). -/
theorem reset_creditInv {p : Params} (h : 1 ≤ p.nWake) : (State.resetWith p).creditInv := by
  refine ⟨h, fun hw => absurd hw (Nat.not_succ_le_zero 0), fun r hr => ?_, fun a b hb => ?_⟩
  · cases hr
  · cases hb

end Sys2Proof.Proofs
end

section
/-! SUPPORT. The statements about the state and its invariants (10_state.md), settled. -/

namespace Sys2Proof.Proofs

open Sys2Proof.Machine Sys2Proof.Laws

/-- Settles O53: every part of a step keeps it. -/
theorem nothingFromTheFuture : Obligations.NothingFromTheFuture := fun _ _ hs h =>
  step_keeps (P := State.timeInv)
    (hperform := fun m s hs => perform_timeInv s m hs)
    (hbegin := fun _ _ hs => hs)
    (hend := fun cmd s hs => by simpa only [State.timeInv, endOp_dram, endOp_t] using hs)
    (hpass := fun g s hs => notAfter_decay s.params _ s.dram (notAfter_mono (Nat.le_add_right s.t g) hs))
    (hhost := fun _ _ hs => hs)
    (hrefuse := fun _ _ _ hs => hs)
    hs h

/-- Settles O11: only the named CTRL stores of each list are left of it. -/
theorem controlSequences : Obligations.ControlSequences := by
  intro p rc cmd
  cases cmd with
  | idle => rfl
  | setdin v => rfl
  | wait n => exact ctrlStores_wait n.toNat
  | read row col rh ch => simp only [microOps, readOps, ctrlStores_append, ctrlStores_wait, ctrlStores_a8Ops]; rfl
  | write row col rh ch => simp only [microOps, writeOps, ctrlStores_append, ctrlStores_wait, ctrlStores_a8Ops]; rfl
  | refresh => simp only [microOps, refreshOps, ctrlStores_append, ctrlStores_wait]; rfl
  | rasonly row rh => simp only [microOps, rasonlyOps, ctrlStores_append, ctrlStores_wait, ctrlStores_a8Ops]; rfl
  | errpulse => simp only [microOps, errpulseOps, ctrlStores_append, ctrlStores_wait]; rfl

/-- Settles O39: an idle cycle is one cycle of decay. -/
theorem decayAsTimePasses : Obligations.DecayAsTimePasses := fun s hop hr hh =>
  ⟨s.pass 1, step_idle hop hr hh, rfl, fun _ => mem_decay_lastref, read_after_decay s.params (s.t + 1) s.dram⟩

/-- Settles O42: of the ways of a step only the refusal of a word sets `refused`. -/
theorem refusedForGood : Obligations.RefusedForGood :=
  ⟨fun _ => rfl, fun _ _ h hs => step_keeps_refused hs h, fun _ _ h hs => step_sets_refused_iff hs h,
    fun s hs => by simp [State.endsWell, hs]⟩

/-- Settles O44, by induction on what is left of the operation's list. -/
theorem smallStepsAgree : Obligations.SmallStepsAgree := fun i s hc =>
  (exec_run hc).trans (run_beginOp i s).symm

/-- Settles O45: every part of a step goes on from where it starts. -/
theorem traceOnlyGrows : Obligations.TraceOnlyGrows := fun _ _ h => step_follows h

/-- Settles O47: a register that an operation changes has a store in the operation's list. -/
theorem singleWriters : Obligations.SingleWriters := by
  intro i s t h
  refine ⟨exec_ctrl h, exec_params h, exec_host h, fun hrc => ?_, fun hdin => ?_, fun ha8 => ?_, fun haddr => ?_⟩
  · exact Classical.byContradiction fun hi => hrc ((exec_rc h).trans (if_neg hi))
  · obtain ⟨m, hm, x, hx⟩ := exists_microOp_of_exec_ne State.din h rfl (fun x => endOp_din x i) hdin
    obtain ⟨b, rfl⟩ := perform_din_ne hx
    exact ⟨b, stDin_mem_microOps hm⟩
  · obtain ⟨m, hm, x, hx⟩ := exists_microOp_of_exec_ne State.a8 h rfl (fun x => endOp_a8 x i) ha8
    obtain ⟨b, rfl⟩ := perform_a8_ne hx
    obtain ⟨row, col, rh, ch, hi, hhigh⟩ := stA8_mem_microOps hm
    exact ⟨row, col, rh, ch, hi, hhigh.imp Option.isSome_of_mem Option.isSome_of_mem⟩
  · obtain ⟨m, hm, x, hx⟩ := exists_microOp_of_exec_ne State.addr h rfl (fun x => endOp_addr x i) haddr
    obtain ⟨v, rfl⟩ := perform_addr_ne hx
    exact stAddr_mem_microOps hm

/-- Settles O9: the bit is the line's level L_IN cycles before, or the draw taken for want of one. -/
theorem sampleSeesThePin : Obligations.SampleSeesThePin := by
  intro s
  refine ⟨s.pinLevel.getD s.draw, rfl, fun hearly => ?_, fun b hlIn hlevel => ?_, fun hlIn hlevel => ?_, sample_cells⟩
  · simp [State.effect, pinLevel_of_early hearly, draw_of_early hearly]
  · simp [State.effect, pinLevel_of_lIn hlIn, hlevel]
  · simp [State.effect, pinLevel_of_lIn hlIn, hlevel, draw_of_lIn hlIn]

/-- Settles O40: the word is taken after its gap and runs as its command. -/
theorem stepRunsTheCommand : Obligations.StepRunsTheCommand := fun s i rest _ hop hr hh hd =>
  ⟨s.take i rest, step_command hop hr hh hd, rfl⟩

/-- Settles O49: the fields of the state after reset. -/
theorem resetState : Obligations.ResetState := fun _ => ⟨rfl, rfl, rfl, rfl, rfl, rfl, rfl, fun _ => rfl⟩

/-- Settles O56: nothing is latched, credited, driven or remembered after reset. -/
theorem resetMeetsTheInvariants : Obligations.ResetMeetsTheInvariants := fun p =>
  ⟨rfl, reset_wf p.kind, reset_latchInv p, reset_notAfter 0, reset_pendInOrder, reset_creditInv⟩

end Sys2Proof.Proofs
end

section
/-! SUPPORT. What every micro-operation keeps at its place in an operation (20_memory.md R40-R46): the latches with the
lines, and the credits with the cells. -/

namespace Sys2Proof.Proofs

open Sys2Proof.Machine Sys2Proof.Laws

/-! ### Latches and lines (R40-R44) -/

section
variable {s : State} {m : MicroOp}

/-- Only a CTRL store latches a column or lets one go (R41-R43). -/
theorem perform_clat_noCtrl (h : ∀ v, m ≠ .stCtrl v) : (s.perform m).dram.clat = s.dram.clat := by
  cases m with
  | stCtrl v => exact absurd rfl (h v)
  | stAddr v => exact addrStore_clat _ _ _
  | stA8 b => exact a8Store_clat _ _ _
  | stDin b => exact dinStore_clat _ _ _
  | nop => rfl
  | sample => rfl

/-- Only a CTRL store changes CTRL (R27). -/
theorem perform_ctrl_noCtrl (h : ∀ v, m ≠ .stCtrl v) : (s.perform m).ctrl = s.ctrl := by
  cases m with
  | stCtrl v => exact absurd rfl (h v)
  | _ => rfl

/-- Without a CTRL store, lines and latches stay as they were, and no drive starts. -/
theorem latchInv_perform_noCtrl (hm : ∀ v, m ≠ .stCtrl v) (h : s.latchInv) : (s.perform m).latchInv := by
  obtain ⟨hrlat, hclat, hdrives⟩ := h
  obtain ⟨er, _, _, ed⟩ := perform_noCtrl s m hm
  have ec := perform_clat_noCtrl (s := s) hm
  have el := perform_ctrl_noCtrl (s := s) hm
  refine ⟨?_, ?_, fun hn v hv => hdrives (ec ▸ hn) v (ed v hv)⟩
  · rw [er, el]; exact hrlat
  · rw [ec, el]; exact hclat

end

/-- CTRL within an operation is one of the seven named values (R18). -/
theorem ctrlAfter_named (ops : List MicroOp) : ∃ v : CtrlValue, ctrlAfter ops = v.bits :=
  ctrlFrom_named _ ops ⟨.default, rfl⟩

/-- Every micro-operation at its place in its list keeps the latches with the lines. -/
theorem latchInv_perform {s : State} {cmd : Instr} {pre post : List MicroOp} {m : MicroOp}
    (hops : microOps cmd s.params s.rc = pre ++ m :: post) (hc : s.ctrl = ctrlAfter pre) (h : s.latchInv) :
    (s.perform m).latchInv := by
  cases m with
  | stCtrl v =>
    refine latch_edges s.params _ s.ctrl v s.addr s.a8 s.din (s.dram.decay s.params _) h ?_ ?_
    · rw [hc, ctrlAfter_eq]; exact inOrder_microOps cmd s.params s.rc pre v post hops
    · rw [hc]; exact ctrlAfter_named pre
  | _ => exact latchInv_perform_noCtrl (by simp) h

/-- A gap brings nothing into the future. -/
theorem timeInv_pass {s : State} (g : Nat) (h : s.timeInv) : (s.pass g).timeInv :=
  notAfter_decay _ _ _ (notAfter_mono (Nat.le_add_right s.t g) h)

/-! ### Credits and cells (R44, R46, R47) -/

/-- The edges of a CTRL store keep it that a row without a credit holds only `?`, no row being latched while RAS is
high. -/
theorem credit_edges {p : Params} {τ : Nat} {d : Dram} (old new : Lines) (a : Byte) (b x : Bit) (hw : 1 ≤ p.nWake)
    (hn : d.NotAfter τ) (hr : Ctrl.rasN old = true → d.rlat = none) (h : credit p τ d) :
    credit p τ (d.edges p τ old new a b x) := by
  unfold Dram.edges
  have h1 : credit p τ (d.onEdge (fell (Ctrl.rasN old) (Ctrl.rasN new)) (Dram.rasFall p τ (Ctrl.casN new) a b)) := by
    cases hf : fell (Ctrl.rasN old) (Ctrl.rasN new) with
    | false => exact h
    | true => exact credit_rasFall _ a b (hr (Bool.and_eq_true_iff.1 hf).1) h
  have n1 := onEdge_of (fell (Ctrl.rasN old) (Ctrl.rasN new)) hn (notAfter_rasFall p τ d (Ctrl.casN new) a b hn)
  have h2 := onEdge_of (P := credit p τ) (f := Dram.weFall τ) (fell (Ctrl.weN old) (Ctrl.weN new)) h1 (credit_flag _ h1)
  have n2 := onEdge_of (fell (Ctrl.weN old) (Ctrl.weN new)) n1 (notAfter_weFall τ _ n1)
  have h3 := onEdge_of (fell (Ctrl.casN old) (Ctrl.casN new)) h2
    (credit_casFall hw τ (Ctrl.rasN new) (Ctrl.weN new) a b x h2)
  have n3 := onEdge_of (fell (Ctrl.casN old) (Ctrl.casN new)) n2
    (notAfter_casFall p τ _ (Ctrl.rasN new) (Ctrl.weN new) a b x n2)
  have h4 := onEdge_of (P := credit p τ) (f := Dram.weRise p τ) (rose (Ctrl.weN old) (Ctrl.weN new)) h3
    (credit_flag _ h3)
  have n4 := onEdge_of (rose (Ctrl.weN old) (Ctrl.weN new)) n3 (notAfter_weRise p τ _ n3)
  have h5 := onEdge_of (P := credit p τ) (f := Dram.casRise p τ) (rose (Ctrl.casN old) (Ctrl.casN new)) h4
    (credit_flag _ h4)
  have n5 := onEdge_of (rose (Ctrl.casN old) (Ctrl.casN new)) n4 (notAfter_casRise p τ _ n4)
  exact onEdge_of _ h5 (credit_rasRise n5.rlat h5)

/-- Every micro-operation keeps it, the latches being with the lines. -/
theorem creditInv_perform {s : State} (m : MicroOp) (hl : s.latchInv) (hn : s.timeInv) (h : s.creditInv) :
    (s.perform m).creditInv := by
  obtain ⟨hw, h⟩ := h
  have later (n : Nat) : credit s.params (s.t + n) s.dram := credit_mono (Nat.le_add_right _ _) h
  have hd (n : Nat) : credit s.params (s.t + n) (s.dram.decay s.params (s.t + n)) := credit_decay _ (later n)
  cases m with
  | stAddr v => exact ⟨hw, credit_pinStore ⟨.addr, _⟩ (hd _)⟩
  | stA8 b => exact ⟨hw, credit_pinStore ⟨.a8, _⟩ (hd _)⟩
  | stDin b => exact ⟨hw, credit_pinStore ⟨.din, _⟩ (hd _)⟩
  | nop => exact ⟨hw, hd 1⟩
  | sample => exact ⟨hw, credit_decay _ (credit_flag _ (later _))⟩
  | stCtrl v =>
    refine ⟨hw, credit_edges s.ctrl v.bits s.addr s.a8 s.din hw (timeInv_pass s.params.cSt hn) (fun hr => ?_) (hd _)⟩
    have hlat := hl.1
    rw [hr] at hlat
    simpa using hlat

end Sys2Proof.Proofs
end

section
/-! SUPPORT. What an operation leaves of the DRAM (20_memory.md R37, R41, R47): the cells it stores into, the operations
that make no edge, and a data cycle of a DRAM that is not awake. -/

namespace Sys2Proof.Proofs

open Sys2Proof.Machine Sys2Proof.Laws

/-! ### No operation but WRITE makes the early-write store (R41) -/

/-- Only WRITE takes CAS down with WE low. -/
theorem wrCol_mem_microOps {cmd : Instr} {p : Params} {rc : Byte} (h : .stCtrl .wrCol ∈ microOps cmd p rc) :
    ∃ row col rh ch, cmd = .write row col rh ch := by
  cases cmd with
  | write row col rh ch => exact ⟨row, col, rh, ch, rfl⟩
  | idle => simp [microOps, idleOps] at h
  | read row col rh ch => simp [microOps, readOps, stCtrl_not_mem_wait, stCtrl_not_mem_a8Ops] at h
  | refresh => simp [microOps, refreshOps, stCtrl_not_mem_wait] at h
  | rasonly row rh => simp [microOps, rasonlyOps, stCtrl_not_mem_wait, stCtrl_not_mem_a8Ops] at h
  | wait n => simp [microOps, stCtrl_not_mem_wait] at h
  | setdin v => simp [microOps, setdinOps] at h
  | errpulse => simp [microOps, errpulseOps, stCtrl_not_mem_wait] at h

/-! ### A data cycle when its CAS is about to fall (R40, R41) -/

/-- The micro-operations between the row's CTRL store and the column's. -/
def colAddress (p : Params) (col : Byte) (ch : Option Bit) : List MicroOp :=
  waitOps p.dRcd ++ [.stAddr col] ++ a8Ops ch

theorem beforeCas_eq (p : Params) (mode : CasMode) (row col : Byte) (rh ch : Option Bit) :
    beforeCas p mode row col rh ch
      = ([.stAddr row] ++ a8Ops rh ++ [.stCtrl (rowValue mode)]) ++ colAddress p col ch := by
  simp [beforeCas, colAddress]

theorem stCtrl_not_mem_colAddress (v : CtrlValue) (p : Params) (col : Byte) (ch : Option Bit) :
    .stCtrl v ∉ colAddress p col ch := by
  simp [colAddress, stCtrl_not_mem_wait, stCtrl_not_mem_a8Ops]

/-- They store ADDR and A8 and leave the other registers alone. -/
theorem colAddress_driver (s : State) (p : Params) (col : Byte) (ch : Option Bit) :
    let x := s.runOps (colAddress p col ch)
    x.addr = col ∧ x.a8 = a8After ch s.a8 ∧ x.ctrl = s.ctrl ∧ x.params = s.params := by
  cases ch <;> simp [colAddress, a8Ops, State.perform, State.effect, a8After, runOps_wait]

/-- Where a data cycle stands before its CAS fall, whatever its stores hit. -/
structure AtCas (s : State) (mode : CasMode) (row col : Byte) (rh ch : Option Bit) (x : State) : Prop where
  ctrl : x.ctrl = (rowValue mode).bits
  addr : x.addr = col
  a8 : x.a8 = a8After ch (a8After rh s.a8)
  params : x.params = s.params
  rlat : x.dram.rlat = some ⟨rowOf s row rh, rasAt s rh⟩

/-- The row phase and the column's stores of a data cycle lead there. -/
theorem runOps_beforeCas (s : State) (mode : CasMode) (row col : Byte) (rh ch : Option Bit)
    (hq : s.ctrl = CtrlValue.default.bits) :
    AtCas s mode row col rh ch (s.runOps (beforeCas s.params mode row col rh ch)) := by
  obtain ⟨_, ra8, rctrl, _, _, rparams, _, _⟩ := rowPhase_driver s row rh (rowValue mode)
  have hrow := rowPhase_rlat s row rh (rowValue mode) hq (by cases mode <;> simp [rowValue])
  rw [beforeCas_eq, runOps_append]
  generalize s.runOps ([.stAddr row] ++ a8Ops rh ++ [.stCtrl (rowValue mode)]) = x at *
  obtain ⟨caddr, ca8, cctrl, cparams⟩ := colAddress_driver x s.params col ch
  have hlat := (runOps_noCtrl (colAddress s.params col ch) x
    (fun m hm v e => stCtrl_not_mem_colAddress v _ _ _ (e ▸ hm))).1
  exact ⟨cctrl.trans rctrl, caddr, by rw [ca8, ra8], cparams.trans rparams, hlat.trans hrow⟩

section
variable (p : Params) (τ : Nat) (a : Byte) (b x : Bit) (d : Dram)

/-- A READ's column store makes the CAS fall with WE high (R42). -/
theorem edges_rdCol : d.edges p τ CtrlValue.rdRow.bits CtrlValue.rdCol.bits a b x
    = d.casFall p τ false true a b x := rfl

/-- A WRITE's column store makes it with WE low (R41). -/
theorem edges_wrCol : d.edges p τ CtrlValue.wrRow.bits CtrlValue.wrCol.bits a b x
    = d.casFall p τ false false a b x := rfl

end

/-- What the early-write store leaves of any cell but the one its levels address. -/
theorem wrCol_frame {x : State} {r : RowLatch} (hc : x.ctrl = CtrlValue.wrRow.bits) (hr : x.dram.rlat = some r)
    {a : Nat} (ha : a ≠ cellNo x.params.kind r.row (indexOf x.params.kind x.addr x.a8)) {b : Bit}
    (h : Memory.read a (x.perform (.stCtrl .wrCol)).dram.cells = some b) : Memory.read a x.dram.cells = some b := by
  have he : (x.perform (.stCtrl .wrCol)).dram = Dram.casFall x.params (x.t + x.params.cSt) false false x.addr x.a8 x.din
      (x.dram.decay x.params (x.t + x.params.cSt)) := by
    show Dram.edges _ _ x.ctrl _ _ _ _ _ = _
    rw [hc]; exact edges_wrCol _ _ _ _ _ _
  rw [he, casFall_write _ _ _ _ _ (x.dram.decay _ _) r hr] at h
  dsimp only at h
  rw [read_write_other ha] at h
  exact decay_onlyFades _ _ _ a b h

/-- A list without the early-write store gives no cell a value. -/
theorem runOps_onlyFades (ops : List MicroOp) (s : State) (h : .stCtrl .wrCol ∉ ops) :
    onlyFades s.dram.cells (s.runOps ops).dram.cells :=
  runOps_of (P := fun x => onlyFades s.dram.cells x.dram.cells) ops s (onlyFades_refl _)
    (fun x m hm hx => onlyFades_trans hx (perform_onlyFades x m (fun e => h (e ▸ hm))))

theorem writeOps_beforeCas (p : Params) (row col : Byte) (rh ch : Option Bit) :
    writeOps p row col rh ch
      = beforeCas p .write row col rh ch ++ .stCtrl .wrCol :: (waitOps p.dCas ++ [.stCtrl .default]) := by
  simp [writeOps, beforeCas, rowValue]

/-! ### CTRL stores without an edge (R38, R86, R88) -/

/-- A CTRL store that makes no edge leaves the DRAM alone while no row decays. -/
theorem perform_stCtrl_noEdge {s : State} {v : CtrlValue}
    (he : ∀ d, Dram.edges s.params (s.t + s.params.cSt) s.ctrl v.bits s.addr s.a8 s.din d = d)
    (hk : s.dram.keptUntil s.params (s.t + s.params.cSt)) : (s.perform (.stCtrl v)).dram = s.dram :=
  (he _).trans (decay_eq_self _ _ _ hk)

section
variable (p : Params) (τ : Nat) (a : Byte) (b x : Bit) (d : Dram)

/-- ERR is no pin of the DRAM: its fall makes no edge. -/
theorem edges_errFall : d.edges p τ CtrlValue.default.bits CtrlValue.err.bits a b x = d := rfl

theorem edges_errRise : d.edges p τ CtrlValue.err.bits CtrlValue.default.bits a b x = d := rfl

theorem edges_idle : d.edges p τ CtrlValue.default.bits CtrlValue.default.bits a b x = d := rfl

end

/-- The DRAM over ERRPULSE's list while no row decays. -/
theorem runOps_errpulse_dram (s : State) (hc : s.ctrl = CtrlValue.default.bits)
    (hk : s.dram.keptUntil s.params (s.t + opCycles s.params .errpulse)) :
    (s.runOps (errpulseOps s.params)).dram = s.dram := by
  have hlen : s.t + opCycles s.params .errpulse = s.t + s.params.cSt + s.params.dErr + s.params.cSt := by
    simp only [opCycles]; omega
  rw [hlen] at hk
  have hfall : (s.perform (.stCtrl .err)).dram = s.dram :=
    perform_stCtrl_noEdge (fun d => by rw [hc]; exact edges_errFall _ _ _ _ _ d) (keptUntil_mono (by omega) hk)
  simp only [errpulseOps, runOps_append, runOps_cons, runOps_nil]
  have ht : (s.perform (.stCtrl .err)).t = s.t + s.params.cSt := rfl
  have hctrl : (s.perform (.stCtrl .err)).ctrl = CtrlValue.err.bits := rfl
  have hp : (s.perform (.stCtrl .err)).params = s.params := rfl
  generalize s.perform (.stCtrl .err) = x at *
  have hwait : (x.runOps (waitOps s.params.dErr)).dram = s.dram := by
    rw [runOps_wait_dram, hfall]
    rw [hfall, hp, ht]; exact keptUntil_mono (by omega) hk
  refine (perform_stCtrl_noEdge (fun d => ?_) ?_).trans hwait
  · rw [show (x.runOps (waitOps s.params.dErr)).ctrl = x.ctrl by rw [runOps_wait], hctrl]
    exact edges_errRise _ _ _ _ _ d
  · rw [hwait, runOps_params, hp, show (x.runOps (waitOps s.params.dErr)).t = x.t + s.params.dErr by rw [runOps_wait],
      ht]
    exact hk

/-! ### How long an operation takes (R121) -/

theorem opsCycles_a8Ops (p : Params) (o : Option Bit) : opsCycles p (a8Ops o) = present o * p.cA8 := by
  cases o <;> simp [a8Ops, opsCycles, MicroOp.cycles, present]

/-- The length of an operation is that of its list. -/
theorem opsCycles_microOps (i : Instr) (p : Params) (rc : Byte) : opsCycles p (microOps i p rc) = opCycles p i := by
  cases i <;>
    simp only [microOps, idleOps, readOps, writeOps, refreshOps, rasonlyOps, setdinOps, errpulseOps, opsCycles_append,
      opsCycles_wait, opsCycles_a8Ops, opsCycles, MicroOp.cycles, opCycles, Nat.add_mul] <;> omega

/-- An operation ends its length after its begin. -/
theorem exec_t {i : Instr} {s t : State} (h : exec i s = .next t) : t.t = s.t + opCycles s.params i := by
  obtain ⟨_, _, _, ht⟩ := runOps_stores (microOps i s.params s.rc) (s.beginOp i)
  rw [(exec_next h).2, endOp_t, ht, beginOp_t, beginOp_params, opsCycles_microOps]

/-- An operation answers one state: what holds of some state it answers holds of this one. -/
theorem of_exists_exec {i : Instr} {s t : State} {P : State → Prop} (h : exec i s = .next t)
    (hx : ∃ x, exec i s = .next x ∧ P x) : P t := by
  obtain ⟨x, hx, hP⟩ := hx
  rw [h] at hx
  injection hx with hx
  exact hx ▸ hP

/-- What an operation leaves of the DRAM is what its list leaves. -/
theorem exec_dram {i : Instr} {s t : State} (h : exec i s = .next t) :
    t.dram = ((s.beginOp i).runOps (microOps i s.params s.rc)).dram := by
  rw [(exec_next h).2, endOp_dram]

/-! ### A data cycle of a DRAM not awake (R47) -/

/-- A micro-operation that ends no cycle gives no wake credit. -/
theorem perform_wake_le {s : State} {m : MicroOp} (hm : endsNoCycle m) : (s.perform m).dram.wake ≤ s.dram.wake := by
  cases m with
  | stCtrl v =>
    obtain ⟨_, hwake, _⟩ :=
      edges_rasLow s.params _ (s.dram.decay s.params _) s.ctrl v.bits s.addr s.a8 s.din (hm v rfl)
    exact Nat.le_of_eq hwake
  | _ => exact (perform_noCtrl s _ (by simp)).2.1

theorem runOps_wake_le (ops : List MicroOp) (s : State) (h : ∀ m ∈ ops, endsNoCycle m) :
    (s.runOps ops).dram.wake ≤ s.dram.wake :=
  runOps_of (P := fun x => x.dram.wake ≤ s.dram.wake) ops s (Nat.le_refl _)
    (fun _ m hm hx => Nat.le_trans (perform_wake_le (h m hm)) hx)

theorem runOps_ctrl_noCtrl (ops : List MicroOp) (s : State) (h : ∀ m ∈ ops, ∀ v, m ≠ .stCtrl v) :
    (s.runOps ops).ctrl = s.ctrl :=
  runOps_of (P := fun x => x.ctrl = s.ctrl) ops s rfl (fun _ m hm hx => (perform_ctrl_noCtrl (h m hm)).trans hx)

/-- A cycle is in progress and in violation, and no more wake credits are counted than `n`. -/
structure Doomed (n : Nat) (d : Dram) : Prop where
  latched : d.rlat.isSome = true
  viol : d.watch.viol = true
  wake : d.wake ≤ n

theorem doomed_runOps {n : Nat} {ops : List MicroOp} {s : State} (hops : ∀ m ∈ ops, ∀ v, m ≠ .stCtrl v)
    (h : Doomed n s.dram) : Doomed n (s.runOps ops).dram := by
  obtain ⟨hr, hw, hv, _⟩ := runOps_noCtrl ops s hops
  exact ⟨hr ▸ h.latched, hv h.viol, Nat.le_trans hw h.wake⟩

/-- The CAS fall of a DRAM that is not awake puts the cycle in violation (R47). -/
theorem doomed_casFall {p : Params} {τ : Nat} {d : Dram} {r : RowLatch} (mode : CasMode) (a : Byte) (b x : Bit)
    (hr : d.rlat = some r) (hw : d.wake < p.nWake) :
    Doomed d.wake (d.edges p τ (rowValue mode).bits (colValue mode).bits a b x) := by
  have hbreaks : casFallBreaks p τ r.rfall mode d = true := by simp [casFallBreaks, hw]
  cases mode with
  | read =>
    rw [rowValue, colValue, edges_rdCol, casFall_read _ _ _ _ _ _ r hr, hbreaks]
    exact ⟨Option.isSome_of_eq_some hr, Bool.or_true _, Nat.le_refl _⟩
  | write =>
    rw [rowValue, colValue, edges_wrCol, casFall_write _ _ _ _ _ _ r hr, hbreaks]
    exact ⟨Option.isSome_of_eq_some hr, Bool.or_true _, Nat.le_refl _⟩

theorem doomed_flag {n : Nat} {d : Dram} (b : Bool) (h : Doomed n d) : Doomed n (d.flag b) :=
  ⟨h.latched, by rw [flag_viol, h.viol, Bool.true_or], h.wake⟩

/-- CAS rises in a cycle in violation. -/
theorem doomed_casRise {n : Nat} {d : Dram} (p : Params) (τ : Nat) (h : Doomed n d) : Doomed n (d.casRise p τ) := by
  obtain ⟨hl, hv, hw⟩ := doomed_flag _ h
  exact ⟨hl, hv, hw⟩

/-- RAS rises in a cycle in violation (R48). -/
theorem doomed_rasRise {n : Nat} {d : Dram} (p : Params) (τ : Nat) (h : Doomed n d) :
    (d.rasRise p τ).cells = [] ∧ (d.rasRise p τ).wake ≤ n := by
  obtain ⟨r, hr⟩ := Option.isSome_iff_exists.1 h.latched
  rw [rasRise_broken _ _ _ r hr (by rw [h.viol, Bool.true_or])]
  exact ⟨rfl, h.wake⟩

/-- The end of a data cycle in violation (R43, R48). -/
theorem doomed_end {p : Params} {τ n : Nat} {d : Dram} (mode : CasMode) (a : Byte) (b x : Bit) (h : Doomed n d) :
    (d.edges p τ (colValue mode).bits CtrlValue.default.bits a b x).cells = []
      ∧ (d.edges p τ (colValue mode).bits CtrlValue.default.bits a b x).wake ≤ n := by
  cases mode with
  | read => exact doomed_rasRise p τ (doomed_casRise p τ h)
  | write => exact doomed_rasRise p τ (doomed_casRise p τ (doomed_flag _ h))

/-- A data cycle of a DRAM that is not awake loses every cell and counts nothing, whatever its stores hit. -/
theorem asleep_data (s : State) (mode : CasMode) (row col : Byte) (rh ch : Option Bit) (post : List MicroOp)
    (hpost : ∀ m ∈ post, ∀ v, m ≠ .stCtrl v) (hq : s.ctrl = CtrlValue.default.bits)
    (hw : s.dram.wake < s.params.nWake) :
    let d := (s.runOps (toCas s.params mode row col rh ch ++ (post ++ [.stCtrl .default]))).dram
    d.cells = [] ∧ d.wake ≤ s.dram.wake := by
  have hat := runOps_beforeCas s mode row col rh ch hq
  have hwake := runOps_wake_le (beforeCas s.params mode row col rh ch) s
    (fun m hm => (beforeCas_ops _ _ _ _ _ _ m hm).1.1)
  have hlist : toCas s.params mode row col rh ch
      = beforeCas s.params mode row col rh ch ++ [.stCtrl (colValue mode)] := rfl
  rw [hlist]
  simp only [runOps_append, runOps_cons, runOps_nil]
  generalize s.runOps (beforeCas s.params mode row col rh ch) = x at *
  have hfall : Doomed x.dram.wake (x.perform (.stCtrl (colValue mode))).dram := by
    show Doomed _ (Dram.edges _ _ x.ctrl _ _ _ _ _)
    rw [hat.ctrl]
    exact doomed_casFall (d := x.dram.decay _ _) mode _ _ _ hat.rlat (by
      rw [hat.params]; exact Nat.lt_of_le_of_lt hwake hw)
  have hctrl : ((x.perform (.stCtrl (colValue mode))).runOps post).ctrl = (colValue mode).bits :=
    runOps_ctrl_noCtrl post _ hpost
  have hrun := doomed_runOps hpost hfall
  generalize (x.perform (.stCtrl (colValue mode))).runOps post = y at *
  have hend : (y.perform (.stCtrl .default)).dram.cells = []
      ∧ (y.perform (.stCtrl .default)).dram.wake ≤ x.dram.wake := by
    show (Dram.edges _ _ y.ctrl _ _ _ _ _).cells = [] ∧ (Dram.edges _ _ y.ctrl _ _ _ _ _).wake ≤ _
    rw [hctrl]
    exact doomed_end (d := y.dram.decay _ _) mode _ _ _ ⟨hrun.latched, hrun.viol, hrun.wake⟩
  exact ⟨hend.1, Nat.le_trans hend.2 hwake⟩

/-- READ and WRITE of a DRAM that is not awake. -/
theorem exec_asleep {s t : State} {i : Instr} {row col : Byte} {rh ch : Option Bit}
    (hi : i = .read row col rh ch ∨ i = .write row col rh ch) (hw : s.dram.wake < s.params.nWake)
    (h : exec i s = .next t) : t.dram.cells = [] ∧ t.dram.wake ≤ s.dram.wake := by
  have hc := (exec_next h).1
  rw [exec_dram h]
  rcases hi with rfl | rfl
  · have hread := asleep_data (s.beginOp (.read row col rh ch)) .read row col rh ch
      (waitOps s.params.dCac ++ [.sample]) (fun m hm v e => by subst e; simp [stCtrl_not_mem_wait] at hm) hc hw
    rw [List.append_assoc] at hread
    simp only [microOps, readOps_eq]
    exact hread
  · simp only [microOps, writeOps_eq]
    exact asleep_data (s.beginOp (.write row col rh ch)) .write row col rh ch (waitOps s.params.dCas)
      (fun m hm v e => stCtrl_not_mem_wait v _ (e ▸ hm)) hc hw

/-! ### SETDIN before a WRITE (R41, R49) -/

/-- SETDIN puts its bit on DIN and takes it off its reset draw, whatever it hits. -/
theorem exec_setdin {s t : State} {v : Bit} (hq : s.quiet) (h : exec (.setdin v) s = .next t) :
    t.quiet ∧ writtenBit t.din t.dram.watch = some v := by
  have hctrl : ∀ m ∈ setdinOps v, ∀ c, m ≠ .stCtrl c := by simp [setdinOps]
  obtain ⟨hrlat, _, _, hdrives⟩ := runOps_noCtrl (setdinOps v) (s.beginOp (.setdin v)) hctrl
  have hd : t.dram = ((s.beginOp (.setdin v)).runOps (setdinOps v)).dram := exec_dram h
  refine ⟨exec_quiet hq h ?_ ?_ fun x hx => quiet_drives hq x (hdrives x (hd ▸ hx)), ?_⟩
  · rw [hd, hrlat]; exact quiet_rlat hq
  · rw [hd]
    exact (perform_clat_noCtrl (s := s.beginOp (.setdin v)) (by simp)).trans (quiet_clat hq)
  · rw [(exec_next h).2]; rfl

/-! ### The numbers of cells (R31, R32) -/

/-- On a Dram64K the number of a cell is that of its row and column bytes. -/
theorem cellNo_dram64K (row col : Byte) (a b : Bit) :
    cellNo .dram64K (indexOf .dram64K row a) (indexOf .dram64K col b) = row.toNat + 256 * col.toNat := by
  have := row.isLt
  have := col.isLt
  simp only [cellNo, indexOf_dram64K_toNat]
  omega

/-- On a Dram256K the A8 levels at the two strobes count too. -/
theorem cellNo_dram256K (row col : Byte) (a b : Bit) :
    cellNo .dram256K (indexOf .dram256K row a) (indexOf .dram256K col b)
      = row.toNat + 256 * col.toNat + 65536 * a.toNat + 131072 * b.toNat := by
  have := row.isLt
  have := col.isLt
  simp only [cellNo, indexOf_dram256K_toNat]
  omega

theorem cellNo_dram64K_inj (row col row' col' : Byte) (a b a' b' : Bit) :
    cellNo .dram64K (indexOf .dram64K row a) (indexOf .dram64K col b)
        = cellNo .dram64K (indexOf .dram64K row' a') (indexOf .dram64K col' b') ↔ row = row' ∧ col = col' := by
  have := row.isLt
  have := row'.isLt
  simp only [cellNo_dram64K, ← BitVec.toNat_inj]
  omega

theorem cellNo_dram256K_inj (row col row' col' : Byte) (a b a' b' : Bit) :
    cellNo .dram256K (indexOf .dram256K row a) (indexOf .dram256K col b)
        = cellNo .dram256K (indexOf .dram256K row' a') (indexOf .dram256K col' b')
      ↔ row = row' ∧ col = col' ∧ a = a' ∧ b = b' := by
  have := row.isLt
  have := row'.isLt
  have := col.isLt
  have := col'.isLt
  have := a.isLt
  have := a'.isLt
  simp only [cellNo_dram256K, ← BitVec.toNat_inj]
  omega

end Sys2Proof.Proofs
end

section
/-! SUPPORT. What a cycle in violation and one that ends well leave as operations (20_memory.md R42, R44, R48), what a
READ hands back, and what a later store takes back. -/

namespace Sys2Proof.Proofs

open Sys2Proof.Machine Sys2Proof.Laws

/-! ### A cycle that ends well, as an operation (R44) -/

theorem endedWell_beginOp {s : State} {i : Instr} {row : Byte} {rh : Option Bit} {cas : Option (Nat × CasMode)}
    {τE : Nat} {cells : List Host.Cell} {d : Dram} (h : EndedWell (s.beginOp i) row rh cas τE cells d) :
    EndedWell s row rh cas τE cells d := ⟨h.rlat, h.clat, h.cells, h.lastref, h.wake, h.drives, h.pend⟩

section
variable {s t : State} {row col : Byte} {rh ch : Option Bit}

theorem exec_read_well (hw : s.params.nWake ≤ s.dram.wake) (hb : s.breaks (.read row col rh ch) = false)
    (hU : s.untouched (s.ownStores (.read row col rh ch)))
    (hk : s.dram.keptUntil s.params (s.t + opCycles s.params (.read row col rh ch)))
    (h : exec (.read row col rh ch) s = .next t) :
    EndedWell s row rh (some (casAt s rh ch, .read)) t.t s.dram.cells t.dram := by
  rw [exec_t h, exec_dram h]
  refine endedWell_beginOp (read_well (s.beginOp (.read row col rh ch)) row col rh ch (exec_next h).1 hU ?_ hk)
  exact Bool.or_eq_false_iff.2 ⟨hb, decide_eq_false (Nat.not_lt.2 hw)⟩

theorem exec_write_well (hw : s.params.nWake ≤ s.dram.wake) (hb : s.breaks (.write row col rh ch) = false)
    (hU : s.untouched (s.ownStores (.write row col rh ch)))
    (hk : s.dram.keptUntil s.params (s.t + opCycles s.params (.write row col rh ch)))
    (h : exec (.write row col rh ch) s = .next t) :
    EndedWell s row rh (some (casAt s rh ch, .write)) t.t (cellsAfter s .write row col rh ch) t.dram := by
  rw [exec_t h, exec_dram h]
  refine endedWell_beginOp (write_well (s.beginOp (.write row col rh ch)) row col rh ch (exec_next h).1 hU ?_ hk)
  exact Bool.or_eq_false_iff.2 ⟨hb, decide_eq_false (Nat.not_lt.2 hw)⟩

theorem exec_rasOnly_well {i : Instr} (hi : i = .rasonly row rh ∨ (i = .refresh ∧ row = s.rc ∧ rh = none))
    (hq : s.quiet) (hb : s.breaks i = false) (hU : s.untouched (s.ownStores i))
    (hk : s.dram.keptUntil s.params (s.t + opCycles s.params i)) (h : exec i s = .next t) :
    EndedWell s row rh none t.t s.dram.cells t.dram := by
  rw [exec_t h, exec_dram h]
  exact endedWell_beginOp (rasOnly_well (s.beginOp i) i row rh hi hq hU hb hk)

end

/-- Every operation that makes a cycle and breaks nothing ends it well, the DRAM being awake for a data cycle. -/
theorem exec_cycle_well {s t : State} {i : Instr} (hq : s.quiet) (hi : makesCycle i = true)
    (hw : ∀ x, casFallOf s i = some x → s.params.nWake ≤ s.dram.wake) (hb : s.breaks i = false)
    (hU : s.untouched (s.ownStores i)) (hk : s.dram.keptUntil s.params (s.t + opCycles s.params i))
    (h : exec i s = .next t) :
    ∃ row cells, EndedWell s row (rowHighOf i) (casFallOf s i) t.t cells t.dram := by
  cases i with
  | read row col rh ch => exact ⟨row, _, exec_read_well (hw _ rfl) hb hU hk h⟩
  | write row col rh ch => exact ⟨row, _, exec_write_well (hw _ rfl) hb hU hk h⟩
  | refresh => exact ⟨s.rc, _, exec_rasOnly_well (.inr ⟨rfl, rfl, rfl⟩) hq hb hU hk h⟩
  | rasonly row rh => exact ⟨row, _, exec_rasOnly_well (.inl rfl) hq hb hU hk h⟩
  | idle => cases hi
  | wait n => cases hi
  | setdin v => cases hi
  | errpulse => cases hi

/-- After it the machine is between operations again. -/
theorem exec_quiet_of_endedWell {s t : State} {i : Instr} {row : Byte} {rh : Option Bit} {cas : Option (Nat × CasMode)}
    {τE : Nat} {cells : List Host.Cell} (hq : s.quiet) (h : exec i s = .next t)
    (he : EndedWell s row rh cas τE cells t.dram) : t.quiet := exec_quiet hq h he.rlat he.clat he.drives

/-- Past T_PWR every RAS fall counts (R47). -/
theorem counts_of_awake {s : State} (h : s.awake) (rh : Option Bit) :
    atLeast s.params (rasAt s rh) s.params.tPwr = true :=
  atLeast_mono h.2 (casAt_le s rh none).1

/-! ### What a READ hands back (R42, R48) -/

/-- The stores fall into no hold window of an ended cycle exactly where no ended cycle is hit by one. -/
theorem untouched_iff (s : State) (es : List PinStore) :
    s.untouched es ↔ ¬ ∃ c ∈ s.dram.watch.pend, hitByAny s.params es c = true := by
  simp [State.untouched, hitByAny]

theorem spoiledLater_of_untouched {s : State} {i : Instr} (h : s.untouched (s.laterStores i)) :
    spoiledLater s i = false := by
  simpa [spoiledLater, State.untouched] using h

/-- While no row decays the credit of the addressed row has not run out when the sample looks (R46). -/
theorem staleAt_of_kept {s : State} (row : Byte) {rh ch : Option Bit}
    (hk : s.dram.keptUntil s.params (casAt s rh ch + s.params.dCac)) : staleAt s row rh ch = false := by
  unfold staleAt
  cases hg : readRef s row rh ch with
  | none => rfl
  | some g =>
    have hcredit := (List.mem_filter.1 (get_mem _ _ _ hg)).1
    have hlasts := hk _ hcredit
    exact expired_mono (Nat.sub_le _ _) hlasts

/-- A READ that breaks no predicate looks at a time of its own (P2). -/
theorem pin_of_unbroken {s : State} {row col : Byte} {rh ch : Option Bit}
    (hb : s.breaks (.read row col rh ch) = false) :
    s.t + s.params.lIn ≤ casAt s rh ch + s.params.dCac := by
  simp only [State.breaks, Bool.or_eq_false_iff, decide_eq_false_iff_not] at hb
  have := casAt_le s rh ch
  omega

/-- A READ that looks before T_CAC has passed since the CAS fall breaks P2. -/
theorem read_breaks_of_early {s : State} {row col : Byte} {rh ch : Option Bit}
    (h : s.params.dCac < s.params.lIn ∨ atLeast s.params (s.params.dCac - s.params.lIn) s.params.tCac = false) :
    s.breaks (.read row col rh ch) = true := by
  by_cases hl : s.params.dCac < s.params.lIn
  · simp [State.breaks, hl]
  · have he : casAt s rh ch + s.params.dCac - s.params.lIn - casAt s rh ch = s.params.dCac - s.params.lIn := by omega
    simp [State.breaks, inHold, he, h.resolve_left hl]

/-- A READ not in violation hands its cell's bit back and takes no draw, no row decaying meanwhile (R42). -/
theorem read_hands_back {s t : State} {row col : Byte} {rh ch : Option Bit} {b : Bit} (hq : s.quiet)
    (hw : s.params.nWake ≤ s.dram.wake) (hb : s.breaks (.read row col rh ch) = false)
    (hU : s.untouched (s.ownStores (.read row col rh ch)))
    (hk : s.dram.keptUntil s.params (s.t + opCycles s.params (.read row col rh ch)))
    (hcell : Memory.read (cellOf s row col rh ch) s.dram.cells = some b)
    (hlater : s.untouched (s.laterStores (.read row col rh ch)))
    (hno : ∀ e ∈ s.laterStores (.read row col rh ch), s.hitBy (.read row col rh ch) e = false)
    (h : exec (.read row col rh ch) s = .next t) : t.readSample = some b ∧ t.draws = s.draws := by
  have hpin := pin_of_unbroken hb
  have hlevel := read_level s row col rh ch hq hU hpin
  have hstale : staleAt s row rh ch = false :=
    staleAt_of_kept row (keptUntil_mono (by rw [opCycles_read]; omega) hk)
  have hnone : (s.laterStores (.read row col rh ch)).any (s.hitBy (.read row col rh ch)) = false := by
    simpa using hno
  rw [kept_decay (casAt_le_read s row col rh ch) hk, hcell] at hlevel
  simp only [hb, decide_eq_false (Nat.not_lt.2 hw), spoiledLater_of_untouched hlater, hnone, hstale, Bool.or_false,
    Bool.false_eq_true, if_false] at hlevel
  have hsample := read_sample s row col rh ch hpin
  simp only [hlevel] at hsample
  rw [(exec_next h).2]
  exact hsample

/-- A READ of a cell that is `?` takes a draw, its own stores hitting nothing (R39). -/
theorem read_unknown_draws {s : State} {row col : Byte} {rh ch : Option Bit} (hq : s.quiet)
    (hU : s.untouched (s.ownStores (.read row col rh ch)))
    (hpin : s.t + s.params.lIn ≤ casAt s rh ch + s.params.dCac)
    (hcell : Memory.read (cellOf s row col rh ch) s.dram.cells = none) :
    ∃ t, exec (.read row col rh ch) s = .next t ∧ t.readSample = some (Config.freeBit s.draws)
      ∧ t.draws = s.draws + 1 := by
  refine ⟨_, exec_run hq.1, ?_⟩
  have hlevel := read_level s row col rh ch hq hU hpin
  have hsample := read_sample s row col rh ch hpin
  have hdecayed : Memory.read (cellOf s row col rh ch) (s.dram.decay s.params (casAt s rh ch)).cells = none := by
    rw [decay_read, hcell, ite_self]
  rw [hdecayed] at hlevel
  simp only [hlevel] at hsample
  exact hsample

/-! ### What an operation in violation leaves (R48) -/

theorem exec_broken {s t : State} {i : Instr} (hU : s.untouched (s.ownStores i))
    (hb : (s.breaks i || ((casFallOf s i).isSome && decide (s.dram.wake < s.params.nWake))) = true)
    (h : exec i s = .next t) :
    t.dram.cells = [] ∧ t.dram.lastref = (s.dram.decay s.params t.t).lastref ∧ t.dram.wake = s.dram.wake := by
  have he := ops_broken (s.beginOp i) i (exec_next h).1 hU hb
  rw [exec_t h, exec_dram h]
  exact ⟨he.cells, he.lastref, he.wake⟩

/-! ### A store that hits one ended cycle (R48, log entry 8) -/

theorem pinStore_hits_one {p : Params} {e : PinStore} {d : Dram} {c : Past}
    (h : d.watch.pend.filter (Past.hitBy p e) = [c]) :
    (d.pinStore p e).cells = [] ∧ (d.pinStore p e).wake = (d.takeBack p e.teff c).wake
      ∧ (d.pinStore p e).lastref = (d.takeBack p e.teff c).lastref := by
  have hany : d.watch.pend.any (Past.hitBy p e) = true := by
    have hc : c ∈ d.watch.pend.filter (Past.hitBy p e) := h ▸ List.mem_singleton_self c
    exact List.any_eq_true.2 ⟨c, (List.mem_filter.1 hc).1, (List.mem_filter.1 hc).2⟩
  unfold Dram.pinStore Dram.lateHit
  rw [if_pos (by exact hany), flag_pend, h]
  exact ⟨rfl, rfl, rfl⟩

theorem le_teff_of_storesOf {p : Params} {τ : Nat} {m : MicroOp} {e : PinStore} (h : storesOf p τ [m] = [e]) :
    τ ≤ e.teff := by
  cases hl : m.pinLine with
  | none => simp [storesOf, hl] at h
  | some l =>
    simp [storesOf, hl] at h
    subst h
    exact Nat.le_add_right _ _

/-- Of the cycles remembered after a cycle that ended well, a store that hits its windows and none of the earlier ones'
hits it alone. -/
theorem hits_only_last {s : State} {row : Byte} {rh : Option Bit} {cas : Option (Nat × CasMode)} {τE : Nat}
    {cells : List Host.Cell} {d : Dram} {e : PinStore} (hend : EndedWell s row rh cas τE cells d) (hle : τE ≤ e.teff)
    (hh : e.hits s.params (rasAt s rh) cas = true) (hU : s.untouched [e]) :
    d.watch.pend.filter (Past.hitBy s.params e) = [pastCycle s row rh cas τE] := by
  have hopen : (pastCycle s row rh cas τE).openAt s.params τE = true := hits_openAt hle hh
  have hhit : (pastCycle s row rh cas τE).hitBy s.params e = true := hh
  have hrest : (s.dram.watch.pend.filter (Past.openAt s.params τE)).filter (Past.hitBy s.params e) = [] :=
    List.filter_eq_nil_iff.2 fun c hc => by
      rw [hU c (List.mem_filter.1 hc).1 e (List.mem_singleton_self e)]; exact Bool.false_ne_true
  rw [hend.pend, List.filter_cons_of_pos hopen, List.filter_cons_of_pos hhit, hrest]

/-- Taken back, the cycle has credited nothing, while no credit from before it has run out. -/
theorem takeBack_pastCycle {s : State} {row : Byte} {rh : Option Bit} {cas : Option (Nat × CasMode)} {τE τ : Nat}
    {cells : List Host.Cell} {d : Dram} (hend : EndedWell s row rh cas τE cells d) (hk : s.dram.keptUntil s.params τ) :
    (d.takeBack s.params τ (pastCycle s row rh cas τE)).wake = s.dram.wake
      ∧ ∀ r, Sparse.get r (d.takeBack s.params τ (pastCycle s row rh cas τE)).lastref
        = Sparse.get r s.dram.lastref := by
  have hbefore : (Sparse.get row.toNat s.dram.lastref).filter (fun e => !expired s.params τ e)
      = Sparse.get row.toNat s.dram.lastref := by
    cases hg : Sparse.get row.toNat s.dram.lastref with
    | none => rfl
    | some g => simp [Option.filter, hk _ (get_mem _ _ _ hg)]
  have hcr : (pastCycle s row rh cas τE).credited = atLeast s.params (rasAt s rh) s.params.tPwr := rfl
  cases hc : atLeast s.params (rasAt s rh) s.params.tPwr with
  | false =>
    have hwake : d.wake = s.dram.wake := by rw [hend.wake, hc]; rfl
    have href : d.lastref = s.dram.lastref := by rw [hend.lastref, hc]; rfl
    refine ⟨by simp [Dram.takeBack, hcr, hc, hwake], fun r => ?_⟩
    rw [get_takeBack, hcr, hc, href]
    exact if_neg (by simp)
  | true =>
    have hwake : d.wake = s.dram.wake + 1 := by rw [hend.wake, hc]; rfl
    have href : d.lastref = Sparse.put row.toNat τE s.dram.lastref := by rw [hend.lastref, hc]; rfl
    refine ⟨by simp [Dram.takeBack, hcr, hc, hwake], fun r => ?_⟩
    rw [get_takeBack, hcr, hc, href]
    by_cases hr : r = row.toNat
    · subst hr
      rw [if_pos ⟨rfl, rfl, get_put_same _ _ _⟩]
      exact hbefore
    · rw [if_neg (fun hx => hr hx.2.1), get_put_other _ _ _ hr]

end Sys2Proof.Proofs
end

section
/-! SUPPORT. The statements about the memory (20_memory.md), settled. -/

namespace Sys2Proof.Proofs

open Sys2Proof.Machine Sys2Proof.Laws

/-- Settles O51: every micro-operation keeps it, and so does the decay of a gap. -/
theorem memoryStaysCanonical : Obligations.MemoryStaysCanonical := fun _ _ hs h =>
  step_keeps (P := State.memInv)
    (hperform := fun m s hs => perform_memInv s m hs)
    (hbegin := fun _ _ hs => hs)
    (hend := fun cmd s hs => by simpa only [State.memInv, endOp_dram, endOp_params] using hs)
    (hpass := fun g s hs => wf_decay s.params _ s.dram hs)
    (hhost := fun _ _ hs => hs)
    (hrefuse := fun _ _ _ hs => hs)
    hs h

/-- Settles O52: a CTRL store comes only after the value R75 puts before it, and its edges move lines and latches
together. -/
theorem latchesFollowTheLines : Obligations.LatchesFollowTheLines := fun _ _ hp hs h =>
  step_keeps_in_place (P := State.latchInv)
    (hperform := fun _ _ _ _ _ hops hc hs => latchInv_perform hops hc hs)
    (hbegin := fun _ _ hs => hs)
    (hend := fun cmd s hs => by simpa only [State.latchInv, endOp_dram, endOp_ctrl] using hs)
    (hpass := fun _ _ hs => hs)
    (hhost := fun _ _ hs => hs)
    (hrefuse := fun _ _ _ hs => hs)
    hp hs h

/-- Settles O54: with the occupancy of a CTRL store at least 1, a cycle that ends is newer than all remembered. -/
theorem pendingCyclesInOrder : Obligations.PendingCyclesInOrder := fun _ _ hn hl hs h =>
  (step_keeps (P := fun s => s.timeInv ∧ s.params.legal = true ∧ s.dram.PendInOrder)
    (hperform := fun m s ⟨hn, hl, ho⟩ =>
      ⟨perform_timeInv s m hn, by rw [perform_params]; exact hl, perform_pendInOrder s m hl hn ho⟩)
    (hbegin := fun _ _ hs => hs)
    (hend := fun cmd s hs => by simpa only [State.timeInv, endOp_dram, endOp_t, endOp_params] using hs)
    (hpass := fun g _ ⟨hn, hl, ho⟩ => ⟨timeInv_pass g hn, hl, pendInOrder_congr ho rfl rfl⟩)
    (hhost := fun _ _ hs => hs)
    (hrefuse := fun _ _ _ hs => hs)
    ⟨hn, hl, hs⟩ h).2.2

/-- Settles O55: decay takes a row's cells with its credit, and only a cycle of an awake DRAM leaves a cell written. -/
theorem uncreditedRowsAreUnknown : Obligations.UncreditedRowsAreUnknown := fun _ _ hp hl hn hs h =>
  (step_keeps_in_place (P := fun s => s.latchInv ∧ s.timeInv ∧ s.creditInv)
    (hperform := fun _ _ m _ s hops hc ⟨hl, hn, hs⟩ =>
      ⟨latchInv_perform hops hc hl, perform_timeInv s m hn, creditInv_perform m hl hn hs⟩)
    (hbegin := fun _ _ hs => hs)
    (hend := fun cmd s hs => by
      simpa only [State.latchInv, State.timeInv, State.creditInv, endOp_dram, endOp_ctrl, endOp_t, endOp_params]
        using hs)
    (hpass := fun g s ⟨hl, hn, hw, hs⟩ =>
      ⟨hl, timeInv_pass g hn, hw, credit_decay _ (credit_mono (Nat.le_add_right s.t g) hs)⟩)
    (hhost := fun _ _ hs => hs)
    (hrefuse := fun _ _ _ hs => hs)
    hp ⟨hl, hn, hs⟩ h).2.2

/-- Settles O21: no other list holds the early-write store. -/
theorem nonStoringMemoryFrame : Obligations.NonStoringMemoryFrame := by
  intro i s t h hi
  obtain ⟨_, rfl⟩ := exec_next h
  rw [endOp_dram]
  refine runOps_onlyFades _ (s.beginOp i) fun hm => ?_
  obtain ⟨row, col, rh, ch, hw⟩ := wrCol_mem_microOps hm
  exact hi row col rh ch hw

/-- Settles O22: the cells before and after the early-write store only fade, and the store writes one. -/
theorem writeMemoryFrame : Obligations.WriteMemoryFrame := by
  intro row col rh ch s t h a ha b hb
  obtain ⟨hc, rfl⟩ := exec_next h
  let w := Instr.write row col rh ch
  have hx := runOps_beforeCas (s.beginOp w) .write row col rh ch hc
  have hpre := runOps_onlyFades (beforeCas s.params .write row col rh ch) (s.beginOp w)
    (fun hm => (beforeCas_ops _ _ _ _ _ _ _ hm).1.2 rfl)
  rw [endOp_dram] at hb
  simp only [microOps, writeOps_beforeCas, runOps_append, runOps_cons] at hb
  rw [beginOp_params] at hx
  generalize (s.beginOp w).runOps (beforeCas s.params .write row col rh ch) = x at *
  have hpost := runOps_onlyFades (waitOps s.params.dCas ++ [.stCtrl .default]) (x.perform (.stCtrl .wrCol))
    (by simp [stCtrl_not_mem_wait])
  rw [runOps_append] at hpost
  refine hpre a b (wrCol_frame hx.ctrl hx.rlat ?_ (hpost a b hb))
  rw [hx.params, hx.addr, hx.a8]
  exact ha

/-- Settles O23: their lists make no edge of RAS, CAS or WE. -/
theorem portOperationsLeaveDram : Obligations.PortOperationsLeaveDram := by
  intro i s t hi h hk
  rw [exec_t h] at hk
  have hc := (exec_next h).1
  rw [exec_dram h]
  rcases hi with rfl | rfl | ⟨n, rfl⟩
  · exact perform_stCtrl_noEdge (s := s.beginOp .idle)
      (fun d => by rw [beginOp_ctrl, hc]; exact edges_idle _ _ _ _ _ d) hk
  · exact runOps_errpulse_dram (s.beginOp .errpulse) hc hk
  · exact runOps_wait_dram (s.beginOp (.wait n)) n.toNat hk

/-- Settles O24: with no cycle in progress and none hit, its store is only remembered. -/
theorem setdinLeavesCells : Obligations.SetdinLeavesCells := by
  intro v s t hq hU h hk
  have ht : t.t = s.t + s.params.cDin := exec_t h
  rw [ht] at hk ⊢
  rw [exec_dram h]
  show (s.dram.decay s.params (s.t + s.params.cDin)).dinStore s.params (s.t + s.params.cDin) = _
  rw [decay_eq_self _ _ _ hk, dinStore_unhit _ _ _ fun c hc => hU c hc _ (by
    simp [State.ownStores, microOps, setdinOps, storesOf, MicroOp.pinLine, MicroOp.cycles])]
  simp [Dram.hitNow, quiet_rlat hq]


/-- Settles O25: the cycle ends well, and what the sample sees is the cell. -/
theorem readReturnsTheCell : Obligations.ReadReturnsTheCell := by
  intro s row col rh ch i hq ha hb hU hk
  obtain ⟨t, h⟩ : ∃ t, exec i s = .next t := ⟨_, exec_run hq.1⟩
  have he := exec_read_well ha.1 hb hU hk h
  have hcount := counts_of_awake ha rh
  refine ⟨t, h, fun b hcell hlater hno => read_hands_back hq ha.1 hb hU hk hcell hlater hno h, he.cells, ?_, ?_,
    exec_quiet_of_endedWell hq h he⟩
  · rw [he.lastref, if_pos hcount]
  · rw [he.wake, if_pos hcount]

/-- Settles O26, by whether an own store hits an ended cycle. -/
theorem readSpoiledByALaterStoreDraws : Obligations.ReadSpoiledByALaterStoreDraws := by
  intro s row col rh ch i hq hpin hspoil
  by_cases hown : ∃ c ∈ s.dram.watch.pend, hitByAny s.params (s.ownStores i) c = true
  · exact read_own_hit s row col rh ch hq hpin hown
  · refine read_draws s row col rh ch hq ((untouched_iff s _).2 hown) hpin ?_
    rcases hspoil with ⟨e, he, hhit⟩ | ⟨e, he, c, hc, hhit⟩
    · have hany : (s.laterStores i).any (s.hitBy i) = true := List.any_eq_true.2 ⟨e, he, hhit⟩
      simp only [i] at hany
      simp [hany]
    · rcases List.mem_append.1 he with he | he
      · exact absurd ⟨c, hc, List.any_eq_true.2 ⟨e, he, hhit⟩⟩ hown
      · have hsp : spoiledLater s i = true := List.any_eq_true.2 ⟨c, hc, List.any_eq_true.2 ⟨e, he, hhit⟩⟩
        simp only [i] at hsp
        simp [hsp]

/-- Settles O27: an unknown cell drives no level, and an early look breaks P2. -/
theorem readOfUnknownDraws : Obligations.ReadOfUnknownDraws := by
  intro s row col rh ch hq hpin hx
  by_cases hown : ∃ c ∈ s.dram.watch.pend, hitByAny s.params (s.ownStores (.read row col rh ch)) c = true
  · exact read_own_hit s row col rh ch hq hpin hown
  · have hU := (untouched_iff s _).2 hown
    rcases hx with hcell | hearly
    · exact read_unknown_draws hq hU hpin hcell
    · exact read_draws s row col rh ch hq hU hpin (by simp [read_breaks_of_early hearly])

/-- Settles O28: the cycle ends well, and its CAS fall wrote the one cell. -/
theorem writeStoresDin : Obligations.WriteStoresDin := by
  intro s row col rh ch i hq ha hb hU hk
  obtain ⟨t, h⟩ : ∃ t, exec i s = .next t := ⟨_, exec_run hq.1⟩
  have he := exec_write_well ha.1 hb hU hk h
  have hcount := counts_of_awake ha rh
  refine ⟨t, h, ?_, fun a hne => ?_, ?_, ?_, exec_quiet_of_endedWell hq h he⟩
  · rw [he.cells]; exact read_write_same _ _ _
  · rw [he.cells]; exact read_write_other hne _ _
  · rw [he.lastref, if_pos hcount]
  · rw [he.wake, if_pos hcount]

/-- Settles O29: the cycle ends well. -/
theorem rasOnlyCreditsTheRow : Obligations.RasOnlyCreditsTheRow := by
  intro s i row rh hi hq hb hU hk counts
  obtain ⟨t, h⟩ : ∃ t, exec i s = .next t := ⟨_, exec_run hq.1⟩
  have he := exec_rasOnly_well hi hq hb hU hk h
  exact ⟨t, h, he.cells, he.lastref, he.wake, exec_quiet_of_endedWell hq h he⟩

/-- Settles O31: SETDIN's bit is written, spared by what comes between, and read. -/
theorem roundTrip : Obligations.RoundTrip := by
  intro s v hq
  obtain ⟨t1, h1⟩ : ∃ t1, exec (.setdin v) s = .next t1 := ⟨_, exec_run hq.1⟩
  obtain ⟨hq1, hv⟩ := exec_setdin hq h1
  refine ⟨t1, h1, ?_⟩
  intro gap row col rh ch w s1 cell hw hb hU hk
  have hqs : s1.quiet := quiet_pass gap hq1
  obtain ⟨t2, h2⟩ : ∃ t2, exec w s1 = .next t2 := ⟨_, exec_run hqs.1⟩
  refine ⟨t2, h2, ?_⟩
  intro between t3 hl gap' row' col' rh' ch' r s3 hcell hb3 hU3 hno hk3
  obtain ⟨hq2, hw2, hc2⟩ := exec_spares (c := cell) hqs hw hb hU hk h2
  have hp2 : t2.params = s1.params := exec_params h2
  obtain ⟨hq3, hp3, hw3, hc3⟩ := leadsTo_spares between hq2 (by rw [hp2]; omega) hl
  have hwritten : Memory.read cell (cellsLeft s1 w) = some v := (read_write_same _ _ _).trans hv
  have hpass : Memory.read cell s3.dram.cells = Memory.read cell t3.dram.cells :=
    pass_cell hk3 (Nat.le_add_right s3.t _)
  have hawake : s3.params.nWake ≤ s3.dram.wake := by
    show t3.params.nWake ≤ t3.dram.wake
    rw [hp3, hp2]; omega
  refine read_returns s3 row' col' rh' ch' v (quiet_pass gap' hq3) hawake hb3 hU3 hno ?_ ?_
  · rw [hcell]; exact rowKept_pass gap' hk3
  · rw [hcell, hpass, hc3, hc2, hwritten]

/-- Settles O32: the CAS fall puts the cycle in violation, and its RAS rise ends it so. -/
theorem asleepDataCyclesLoseAll : Obligations.AsleepDataCyclesLoseAll := by
  intro s t i row col rh ch hi h hw
  have hfall : ((casFallOf s i).isSome && decide (s.dram.wake < s.params.nWake)) = true := by
    rcases hi with rfl | rfl <;> simp [casFallOf, hw]
  obtain ⟨hcells, hwake⟩ := exec_asleep hi hw h
  refine ⟨hcells, hwake, fun hU => ?_, ?_⟩
  · obtain ⟨_, hkept⟩ := exec_broken hU (by rw [hfall, Bool.or_true]) h
    exact hkept
  · rintro rfl hq hU hpin
    exact of_exists_exec h (read_draws s row col rh ch hq hU hpin (by simp [hw]))

/-- Settles O33: the RAS rise finds the cycle in violation. -/
theorem brokenCyclesLoseAll : Obligations.BrokenCyclesLoseAll := by
  intro s i hq hU hb
  obtain ⟨t, h⟩ : ∃ t, exec i s = .next t := ⟨_, exec_run hq.1⟩
  obtain ⟨hcells, href, hwake⟩ := exec_broken hU (by rw [hb, Bool.true_or]) h
  refine ⟨t, h, hcells, href, hwake, ?_⟩
  rintro row col rh ch rfl hpin
  exact of_exists_exec h (read_draws s row col rh ch hq hU hpin (by simp [hb]))

/-- Settles O34: of the cycles remembered the store hits the last alone, and it is taken back. -/
theorem lateStoreTakesTheCycleBack : Obligations.LateStoreTakesTheCycleBack := by
  intro s t i g m e hq hi hw hb hU h hm hhit hUe hks hkt u
  have hte : t.t + g ≤ e.teff := le_teff_of_storesOf hm
  have ht := exec_t h
  have hp := exec_params h
  obtain ⟨row, cells, hend⟩ := exec_cycle_well hq hi hw hb hU (keptUntil_mono (by omega) hks) h
  have hpass : (t.pass g).dram = t.dram := by
    rw [pass_dram, hp]
    exact decay_eq_self _ _ _ (keptUntil_mono hte hkt)
  have hpin := perform_pinStore (t.pass g) m e (by rw [pass_params, hp]; exact hm)
    (by rw [pass_params, hpass, hp]; exact hkt)
  rw [hpass, pass_params, hp] at hpin
  obtain ⟨hucells, huwake, huref⟩ := hpin
  obtain ⟨hcells, hwake, href⟩ := pinStore_hits_one (hits_only_last hend (by omega) hhit hUe)
  obtain ⟨hwake', href'⟩ := takeBack_pastCycle (τ := e.teff) hend hks
  refine ⟨hucells.trans hcells, (huwake.trans hwake).trans hwake', fun r => ?_⟩
  rw [huref, href]
  exact href' r

/-- Settles O35: what its own stores hit is taken back before its CAS falls. -/
theorem ownStoreTakesEarlierCyclesBack : Obligations.OwnStoreTakesEarlierCyclesBack := by
  intro s i hq hm ho hl hhit
  obtain ⟨t, h⟩ : ∃ t, exec i s = .next t := ⟨_, exec_run hq.1⟩
  obtain ⟨c, hc, e, he, hce⟩ := hhit
  have hany : ∃ c ∈ s.dram.watch.pend, hitByAny s.params (s.ownStores i) c = true :=
    ⟨c, hc, List.any_eq_true.2 ⟨e, he, hce⟩⟩
  obtain ⟨hgone, hwake⟩ := exec_takesBack hq hm ho hl h (List.ne_nil_of_mem he)
  refine ⟨t, h, cells_own_hit s i t h hany, fun c hc hcr hx => hgone c hc hcr (List.any_eq_true.2 hx), hwake, ?_⟩
  rintro row col rh ch rfl hpin
  exact of_exists_exec h (read_own_hit s row col rh ch hq hpin hany)

/-- Settles O38: the number is formed from the row, the column and, on a Dram256K, the two A8 levels. -/
theorem tuplesNameCells : Obligations.TuplesNameCells := by
  intro s s' row col row' col' rh ch rh' ch' hk rl rl'
  refine ⟨cellNo_lt _ _ _, fun hkind => ?_, fun hkind => ?_⟩
  · simp only [cellOf, rowOf, colOf, hk, hkind]
    exact cellNo_dram256K_inj _ _ _ _ _ _ _ _
  · simp only [cellOf, rowOf, colOf, hk, hkind]
    exact cellNo_dram64K_inj _ _ _ _ _ _ _ _

/-- Settles O36: the latched index is the row byte, with A8 above it on a Dram256K. -/
theorem refreshRowIsTheRowByte : Obligations.RefreshRowIsTheRowByte := by
  intro k addr a8
  have := addr.isLt
  cases k with
  | dram64K => rw [refRow, indexOf_dram64K_toNat]; omega
  | dram256K => rw [refRow, indexOf_dram256K_toNat]; omega

/-- Settles O37: on a Dram64K the number is formed from row and column alone. -/
theorem a8IsNoAddressOnDram64K : Obligations.A8IsNoAddressOnDram64K := by
  intro s s' row col rh ch rh' ch' hk hk'
  simp only [cellOf, rowOf, colOf, hk, hk', cellNo_dram64K]

end Sys2Proof.Proofs
end

section
/-! SUPPORT. The decoder of 30_encoding.md (R55-R58): the fields of a word as numbers, the checks of R58, and what
decoding answers by them. -/

namespace Sys2Proof.Proofs

open Sys2Proof.Laws Sys2Proof.Machine

/-! ### The fields of a word as numbers -/

section
variable (w : CmdWord)

theorem opField_toNat : (opField w).toNat = w.toNat % 16 := by
  simp [opField, BitVec.extractLsb'_toNat]

theorem rowField_toNat : (rowField w).toNat = w.toNat / 2 ^ 4 % 256 := by
  simp [rowField, BitVec.extractLsb'_toNat, Nat.shiftRight_eq_div_pow]

theorem colField_toNat : (colField w).toNat = w.toNat / 2 ^ 12 % 256 := by
  simp [colField, BitVec.extractLsb'_toNat, Nat.shiftRight_eq_div_pow]

theorem rhpField_toNat : (rhpField w).toNat = w.toNat / 2 ^ 20 % 2 := by
  simp [rhpField, BitVec.extractLsb'_toNat, Nat.shiftRight_eq_div_pow]

theorem rhField_toNat : (rhField w).toNat = w.toNat / 2 ^ 21 % 2 := by
  simp [rhField, BitVec.extractLsb'_toNat, Nat.shiftRight_eq_div_pow]

theorem chpField_toNat : (chpField w).toNat = w.toNat / 2 ^ 22 % 2 := by
  simp [chpField, BitVec.extractLsb'_toNat, Nat.shiftRight_eq_div_pow]

theorem chField_toNat : (chField w).toNat = w.toNat / 2 ^ 23 % 2 := by
  simp [chField, BitVec.extractLsb'_toNat, Nat.shiftRight_eq_div_pow]

theorem vField_toNat : (vField w).toNat = w.toNat / 2 ^ 4 % 2 := by
  simp [vField, BitVec.extractLsb'_toNat, Nat.shiftRight_eq_div_pow]

/-- A field that reaches up to bit 31 is the word without the bits below it. -/
theorem bitsOf_to_top {lo : Nat} (hlo : lo ≤ 32) : bitsOf w ⟨31, lo⟩ = w.toNat / 2 ^ lo := by
  refine Nat.mod_eq_of_lt (Nat.div_lt_of_lt_mul ?_)
  rw [← Nat.pow_add, Nat.add_sub_cancel' hlo]
  exact w.isLt

/-- RH without RHP, as the number of the two bits (R58 check 3). -/
theorem rowHigh_without_present_iff : rhpField w = 0 ∧ rhField w = 1 ↔ w.toNat / 2 ^ 20 % 4 = 2 := by
  simp only [← BitVec.toNat_inj, rhpField_toNat, rhField_toNat, BitVec.toNat_ofNat, BitVec.ofNat_eq_ofNat]
  omega

/-- CH without CHP, as the number of the two bits (R58 check 3). -/
theorem colHigh_without_present_iff : chpField w = 0 ∧ chField w = 1 ↔ w.toNat / 2 ^ 22 % 4 = 2 := by
  simp only [← BitVec.toNat_inj, chpField_toNat, chField_toNat, BitVec.toNat_ofNat, BitVec.ofNat_eq_ofNat]
  omega

end

/-- The OP number of an operation (R57). -/
def opNumber : Opcode → Nat
  | .idle => 0
  | .read => 1
  | .write => 2
  | .refresh => 3
  | .rasonly => 4
  | .wait => 5
  | .setdin => 6
  | .errpulse => 7

theorem opcodeOf_eq_some_iff (b : BitVec 4) (op : Opcode) : opcodeOf b = some op ↔ b.toNat = opNumber op := by
  cases op <;> revert b <;> decide

theorem opcodeOf_eq_none_iff (b : BitVec 4) : opcodeOf b = none ↔ 8 ≤ b.toNat := by
  revert b; decide

/-- R57's must-be-zero bits of an operation, on the number of the word. -/
def UnusedBitsZero (op : Opcode) (w : Nat) : Prop :=
  match op with
  | .idle | .refresh | .errpulse => w / 2 ^ 4 = 0
  | .read | .write => w / 2 ^ 24 = 0
  | .rasonly => w / 2 ^ 22 = 0 ∧ w / 2 ^ 12 % 256 = 0
  | .wait => w / 2 ^ 12 = 0
  | .setdin => w / 2 ^ 5 = 0

theorem hasUnusedBit_eq_false_iff (op : Opcode) (w : CmdWord) :
    hasUnusedBit op w = false ↔ UnusedBitsZero op w.toNat := by
  cases op with
  | rasonly =>
    simp [hasUnusedBit, mustBeZero, UnusedBitsZero, bitsOf]
    omega
  | idle | read | write | refresh | wait | setdin | errpulse =>
    simp [hasUnusedBit, mustBeZero, UnusedBitsZero, bitsOf_to_top]

theorem hasUnusedBit_eq_true_iff (op : Opcode) (w : CmdWord) :
    hasUnusedBit op w = true ↔ ¬UnusedBitsZero op w.toNat := by
  rw [← hasUnusedBit_eq_false_iff, Bool.not_eq_false]

/-! ### The checks of R58 -/

/-- The word passes checks 2 to 4 of R58 for the operation. -/
structure PassesChecks (op : Opcode) (w : CmdWord) : Prop where
  unused : hasUnusedBit op w = false
  rowHigh : takesRowHigh op = true → ¬(rhpField w = 0 ∧ rhField w = 1)
  colHigh : takesColHigh op = true → ¬(chpField w = 0 ∧ chField w = 1)
  count : op = .wait → (rowField w).toNat ≤ Config.nMax

/-- A word whose OP names an operation decodes to its command where it passes the checks. -/
theorem decode_of_passesChecks {w : CmdWord} {op : Opcode} (hop : opcodeOf (opField w) = some op)
    (h : PassesChecks op w) : decode w = .command (commandOf op w) := by
  simp only [decode, hop]
  rw [if_neg (ne_true_of_eq_false h.unused), if_neg (fun hx => h.rowHigh hx.1 hx.2),
    if_neg (fun hx => h.colHigh hx.1 hx.2), if_neg (fun hx => Nat.not_lt.2 (h.count hx.1) hx.2)]

/-- A word decodes to a command only where OP names its operation and the checks are passed. -/
theorem passesChecks_of_decode {w : CmdWord} {i : Instr} (h : decode w = .command i) :
    ∃ op, opcodeOf (opField w) = some op ∧ PassesChecks op w ∧ commandOf op w = i := by
  unfold decode at h
  split at h
  · cases h
  next op hop =>
    split at h
    · cases h
    split at h
    · cases h
    split at h
    · cases h
    split at h
    · cases h
    rename_i hu hr hc hn
    refine ⟨op, hop, ?_, Decoded.command.inj h⟩
    exact {
      unused := eq_false_of_ne_true hu
      rowHigh := fun ht hx => hr ⟨ht, hx⟩
      colHigh := fun ht hx => hc ⟨ht, hx⟩
      count := fun ht => Nat.not_lt.1 fun hx => hn ⟨ht, hx⟩ }

/-- The refusal code that decoding answers, if any. -/
def refusalIn : Decoded → Option RefuseCode
  | .command _ => none
  | .refuse c => some c

@[simp] theorem refusalIn_command (i : Instr) : refusalIn (.command i) = none := rfl

@[simp] theorem refusalIn_refuse (c : RefuseCode) : refusalIn (.refuse c) = some c := rfl

theorem refusalIn_eq_some_iff (d : Decoded) (c : RefuseCode) : refusalIn d = some c ↔ d = .refuse c := by
  cases d <;> simp [refusalIn]

theorem refusalIn_eq_none_iff (d : Decoded) : refusalIn d = none ↔ ∃ i, d = .command i := by
  cases d <;> simp [refusalIn]

/-- The checks of R58 for the operation that OP names, on the number of the word. -/
theorem refusalIn_decode {w : CmdWord} {op : Opcode} (hop : opcodeOf (opField w) = some op) :
    refusalIn (decode w) =
      if hasUnusedBit op w = true then some .nonzeroUnused
      else if takesRowHigh op = true ∧ w.toNat / 2 ^ 20 % 4 = 2 then some .highWithoutPresent
      else if takesColHigh op = true ∧ w.toNat / 2 ^ 22 % 4 = 2 then some .highWithoutPresent
      else if op = .wait ∧ 16 < w.toNat / 2 ^ 4 % 256 then some .waitRange
      else none := by
  simp only [decode, hop, rowHigh_without_present_iff, colHigh_without_present_iff, rowField_toNat, Config.nMax,
    apply_ite refusalIn, refusalIn_refuse, refusalIn_command]

/-! ### The word of a command passes the checks -/

theorem encodedFields (i : Instr) : EncodedFields.Statement i := by
  cases i with
  | idle => exact EncodedFields.idle
  | read row col rh ch => exact EncodedFields.read row col rh ch
  | write row col rh ch => exact EncodedFields.write row col rh ch
  | refresh => exact EncodedFields.refresh
  | rasonly row rh => exact EncodedFields.rasonly row rh
  | wait n => exact EncodedFields.wait n
  | setdin v => exact EncodedFields.setdin v
  | errpulse => exact EncodedFields.errpulse

theorem encode_eq_pack (i : Instr) : ∃ op row col rh ch, encode i = pack op row col rh ch := by
  cases i <;> exact ⟨_, _, _, _, _, rfl⟩

theorem passesChecks_encode {i : Instr} (hwf : i.wf = true) : PassesChecks (opcodeOfInstr i) (encode i) := by
  obtain ⟨-, hunused, -⟩ := encodedFields i
  obtain ⟨op, row, col, rh, ch, hpack⟩ := encode_eq_pack i
  refine ⟨hunused, fun _ => ?_, fun _ => ?_, fun hwait => ?_⟩
  · rw [hpack, rhpField_pack, rhField_pack]
    exact high_has_present rh
  · rw [hpack, chpField_pack, chField_pack]
    exact high_has_present ch
  · cases i with
    | wait n => simpa [encode, Instr.wf] using hwf
    | idle | read | write | refresh | rasonly | setdin | errpulse => simp [opcodeOfInstr] at hwait

/-! ### A word that passes the checks is the word of its command -/

@[simp] theorem presentBit_none : presentBit none = 0 := rfl

@[simp] theorem valueBit_none : valueBit none = 0 := rfl

@[simp] theorem presentBit_highOperand (p v : Bit) : presentBit (highOperand p v) = p := by
  revert p v; decide

theorem valueBit_highOperand {p v : Bit} (h : ¬(p = 0 ∧ v = 1)) : valueBit (highOperand p v) = v := by
  revert p v; decide

theorem wf_commandOf {op : Opcode} {w : CmdWord} (h : PassesChecks op w) : (commandOf op w).wf = true := by
  cases op with
  | wait => simpa [commandOf, Instr.wf] using h.count rfl
  | idle | read | write | refresh | rasonly | setdin | errpulse => rfl

/-- The fields that the operation uses and OP make up the word: every other bit must be zero (R57). -/
theorem encode_commandOf {op : Opcode} {w : CmdWord} (hop : opcodeOf (opField w) = some op)
    (h : PassesChecks op w) : encode (commandOf op w) = w := by
  have hnum := (opcodeOf_eq_some_iff _ _).1 hop
  have hzero := (hasUnusedBit_eq_false_iff _ _).1 h.unused
  rw [opField_toNat] at hnum
  apply BitVec.eq_of_toNat_eq
  cases op with
  | idle | refresh | errpulse =>
    simp [commandOf, encode, pack_toNat, opNumber, UnusedBitsZero] at hnum hzero ⊢
    omega
  | read | write =>
    have hrh := valueBit_highOperand (h.rowHigh rfl)
    have hch := valueBit_highOperand (h.colHigh rfl)
    simp [commandOf, encode, pack_toNat, rowField_toNat, colField_toNat, rhpField_toNat, rhField_toNat, chpField_toNat,
      chField_toNat, hrh, hch, opNumber, UnusedBitsZero] at hnum hzero ⊢
    omega
  | rasonly =>
    have hrh := valueBit_highOperand (h.rowHigh rfl)
    simp [commandOf, encode, pack_toNat, rowField_toNat, rhpField_toNat, rhField_toNat, hrh,
      opNumber, UnusedBitsZero] at hnum hzero ⊢
    omega
  | wait =>
    simp [commandOf, encode, pack_toNat, rowField_toNat, opNumber, UnusedBitsZero] at hnum hzero ⊢
    omega
  | setdin =>
    simp [commandOf, encode, pack_toNat, vField_toNat, opNumber, UnusedBitsZero] at hnum hzero ⊢
    omega

/-! ### The refusal that decoding answers -/

theorem refusalIn_decode_eq_refusalOf (w : CmdWord) : refusalIn (decode w) = refusalOf w.toNat := by
  cases hop : opcodeOf (opField w) with
  | none =>
    have hnum := (opcodeOf_eq_none_iff _).1 hop
    rw [opField_toNat] at hnum
    simp [decode, hop, refusalOf, hnum]
  | some op =>
    have hnum := (opcodeOf_eq_some_iff _ _).1 hop
    rw [opField_toNat] at hnum
    rw [refusalIn_decode hop]
    simp only [refusalOf, hnum]
    cases op with
    | rasonly =>
      simp [hasUnusedBit_eq_true_iff, UnusedBitsZero, opNumber, takesRowHigh, takesColHigh,
        Decidable.imp_iff_not_or]
    | idle | read | write | refresh | wait | setdin | errpulse =>
      simp [hasUnusedBit_eq_true_iff, UnusedBitsZero, opNumber, takesRowHigh, takesColHigh]

end Sys2Proof.Proofs
end

section
/-! SUPPORT. The statements about the encoding (30_encoding.md), settled. -/

namespace Sys2Proof.Proofs

open Sys2Proof.Laws

/-- Settles O1: the word names the operation in OP, passes the checks of R58, and its fields are the operands. -/
theorem decodeEncode : Obligations.DecodeEncode := by
  intro i hwf
  obtain ⟨hop, -, hcmd⟩ := encodedFields i
  rw [decode_of_passesChecks hop (passesChecks_encode hwf), hcmd]

/-- Settles O2: the checks of R58 leave no bit of the word beside OP and the operands. -/
theorem encodeDecode : Obligations.EncodeDecode := by
  intro w i h
  obtain ⟨op, hop, hpass, rfl⟩ := passesChecks_of_decode h
  exact ⟨wf_commandOf hpass, encode_commandOf hop hpass⟩

/-- Settles O3: the decoder's checks on the fields are R58's checks on the numbers, operation by operation. -/
theorem refusedWords : Obligations.RefusedWords := by
  intro w
  rw [← refusalIn_decode_eq_refusalOf]
  exact ⟨fun c => (refusalIn_eq_some_iff _ c).symm, (refusalIn_eq_none_iff _).symm⟩

/-- Settles O4: twelve fixed words, each decoded. -/
theorem decodeWords : Obligations.DecodeWords := by
  unfold Obligations.DecodeWords
  decide

end Sys2Proof.Proofs
end

section
/-! SUPPORT. One step, at its place in the operation in progress (10_state.md R14, 40_timing_primitives.md R72-R74): what
every micro-operation keeps there a step keeps. With it what CTRL holds, the stores foreseen, and ADDR by its stores. -/

namespace Sys2Proof.Proofs

open Sys2Proof.Machine Sys2Proof.Laws

/-! ### What a step keeps at its place in an operation -/

/-- What a micro-operation keeps in an operation that does it next, and the end of an operation with nothing left to do
keeps, the rest of an operation's list and its end keep. -/
theorem runOps_endOp_keeps {P : State → Prop}
    (hperform : ∀ x cmd k m ms, x.op = some (cmd, k) → (microOps cmd x.params x.rc).drop k = m :: ms → P x →
      P (x.perform m))
    (hend : ∀ x cmd k, x.op = some (cmd, k) → (microOps cmd x.params x.rc).drop k = [] → P x → P (x.endOp cmd))
    {cmd : Instr} {k : Nat} {x : State} (ops : List MicroOp) (hop : x.op = some (cmd, k))
    (hops : (microOps cmd x.params x.rc).drop k = ops) (h : P x) : P ((x.runOps ops).endOp cmd) := by
  induction ops generalizing k x with
  | nil => exact hend x cmd k hop hops h
  | cons m ms ih =>
    refine ih (k := k + 1) (by simp [hop]) ?_ (hperform x cmd k m ms hop hops h)
    rw [perform_params, perform_rc, ← List.tail_drop, hops]; rfl

/-- The same of a step, which may also let an idle cycle pass, take a command, or take a word and refuse it. -/
theorem step_keeps_at_index {P : State → Prop}
    (hperform : ∀ x cmd k m ms, x.op = some (cmd, k) → (microOps cmd x.params x.rc).drop k = m :: ms → P x →
      P (x.perform m))
    (hend : ∀ x cmd k, x.op = some (cmd, k) → (microOps cmd x.params x.rc).drop k = [] → P x → P (x.endOp cmd))
    (hidle : ∀ x, x.op = none → x.host = [] → P x → P (x.pass 1))
    (hbegin : ∀ x i rest cmd, x.op = none → x.refused = false → x.host = i :: rest → decode i.word = .command cmd →
      P x → P ((x.take i rest).beginOp cmd))
    (hrefuse : ∀ x i rest c, x.op = none → x.host = i :: rest → decode i.word = .refuse c → P x →
      P ((x.take i rest).refuse i.word c))
    {s t : State} (hs : P s) (h : step s = .next t) : P t := by
  rcases step_cases h with ⟨cmd, k, hop, rfl⟩ | ⟨hop, _, hh, rfl⟩ | ⟨i, rest, cmd, hop, hr, hh, hd, he⟩
    | ⟨i, rest, c, hop, _, hh, hd, rfl⟩
  · cases hl : (microOps cmd s.params s.rc).drop k with
    | nil => rw [microStep_done hl]; exact hend s cmd k hop hl hs
    | cons m ms =>
      rw [microStep_cons hl]
      split
      · next hms => exact runOps_endOp_keeps hperform hend [m] hop (by rw [hl, hms]) hs
      · exact hperform s cmd k m ms hop hl hs
  · exact hidle s hop hh hs
  · obtain ⟨_, rfl⟩ := exec_next he
    exact runOps_endOp_keeps hperform hend _ (beginOp_op _ cmd) rfl (hbegin s i rest cmd hop hr hh hd hs)
  · exact hrefuse s i rest c hop hh hd hs

/-! ### CTRL between operations and inside one (R74, R94) -/

theorem portInv_none_iff {s : State} (hop : s.op = none) : s.portInv ↔ s.ctrl = CtrlValue.default.bits := by
  rw [State.portInv, hop]

theorem portInv_some_iff {s : State} {cmd : Instr} {k : Nat} (hop : s.op = some (cmd, k)) :
    s.portInv ↔ s.ctrl = ctrlAfter ((microOps cmd s.params s.rc).take k) := by
  rw [State.portInv, hop]

theorem portInv_beginOp {s : State} (cmd : Instr) (hop : s.op = none) (h : s.portInv) : (s.beginOp cmd).portInv :=
  (portInv_some_iff (beginOp_op s cmd)).2 ((portInv_none_iff hop).1 h)

/-- An operation at its next micro-operation has CTRL as its list up to there leaves it. -/
theorem portInv_perform {s : State} {cmd : Instr} {k : Nat} {m : MicroOp} {ms : List MicroOp}
    (hop : s.op = some (cmd, k)) (hnext : (microOps cmd s.params s.rc).drop k = m :: ms) (h : s.portInv) :
    (s.perform m).portInv := by
  have hop' : (s.perform m).op = some (cmd, k + 1) := by rw [perform_op, hop]; rfl
  have htake : (microOps cmd s.params s.rc).take (k + 1) = (microOps cmd s.params s.rc).take k ++ [m] := by
    rw [List.take_add, hnext]; rfl
  rw [portInv_some_iff hop', perform_params, perform_rc, htake, ctrlAfter_eq, ctrlFrom_append, perform_ctrlFrom,
    (portInv_some_iff hop).1 h, ctrlAfter_eq]

/-- An operation whose list is done has left CTRL_DEFAULT, as every list does. -/
theorem portInv_endOp {s : State} {cmd : Instr} {k : Nat} (hop : s.op = some (cmd, k))
    (hdone : (microOps cmd s.params s.rc).drop k = []) (h : s.portInv) : (s.endOp cmd).portInv := by
  have hall := List.take_of_length_le (List.drop_eq_nil_iff.1 hdone)
  rw [portInv_none_iff (endOp_op s cmd), endOp_ctrl, (portInv_some_iff hop).1 h, hall, ctrlAfter_microOps]

/-- An operation raises CtrlNotIdle exactly where CTRL is not CTRL_DEFAULT (R94). -/
theorem exec_fault_iff (i : Instr) (s : State) :
    exec i s = .fault .ctrlNotIdle ↔ s.ctrl ≠ CtrlValue.default.bits := by
  refine ⟨fun hf hc => ?_, fun hc => ?_⟩
  · rw [exec_run hc] at hf; cases hf
  · rw [exec_eq]; exact runOperation_fault i _ hc

/-- A step whose port is as R74 says starts no operation from another port than CTRL_DEFAULT. -/
theorem step_ne_ctrlNotIdle {s : State} (h : s.portInv) : step s ≠ .fault .ctrlNotIdle := by
  intro hf
  cases hop : s.op with
  | some o => rw [step_inProgress (cmd := o.1) (k := o.2) hop] at hf; cases hf
  | none =>
    cases hr : s.refused with
    | true => rw [step_ended hop hr] at hf; cases hf
    | false =>
      cases hh : s.host with
      | nil => rw [step_idle hop hr hh] at hf; cases hf
      | cons i rest =>
        cases hd : decode i.word with
        | refuse c => rw [step_refuse hop hr hh hd] at hf; cases hf
        | command cmd =>
          rw [step_command hop hr hh hd] at hf
          exact (exec_fault_iff _ _).1 hf ((portInv_none_iff hop).1 h)

/-! ### The stores foreseen (R72, R73) -/

/-- Inside an operation they are those of the rest of its list, and then the queue's. -/
theorem coming_inProgress {s : State} {cmd : Instr} {k : Nat} (hop : s.op = some (cmd, k)) :
    s.coming = storesOf s.params s.t ((microOps cmd s.params s.rc).drop k)
      ++ if s.refused then []
        else queueStores s.params (s.t + opsCycles s.params ((microOps cmd s.params s.rc).drop k)) s.host := by
  rw [State.coming, hop]

/-- Between operations they are the queue's. -/
theorem coming_between {s : State} (hop : s.op = none) :
    s.coming = if s.refused then [] else queueStores s.params s.t s.host := by
  rw [State.coming, hop]; rfl

/-- A command in the queue makes its list's stores after its gap, whatever RC is then. -/
theorem queueStores_command {p : Params} {t : Nat} {i : Issue} {rest : List Issue} {cmd : Instr} (rc : Byte)
    (hd : decode i.word = .command cmd) :
    queueStores p t (i :: rest) = storesOf p (t + gapOf p i) (microOps cmd p rc)
      ++ queueStores p (t + gapOf p i + opsCycles p (microOps cmd p rc)) rest := by
  obtain ⟨hstores, hcycles⟩ := storesOf_rc cmd p 0 rc (t + gapOf p i)
  rw [queueStores, hd, ← hstores, ← hcycles]

theorem queueStores_refuse {p : Params} {t : Nat} {i : Issue} {rest : List Issue} {c : RefuseCode}
    (hd : decode i.word = .refuse c) : queueStores p t (i :: rest) = [] := by
  rw [queueStores, hd]

/-- The stores foreseen in `s` are those recorded from `s` to `x` and those still foreseen in `x`. -/
def Foresees (s x : State) : Prop :=
  ∃ es, x.trace = s.trace ++ es ∧ s.coming = es.filterMap Event.pinStore ++ x.coming

theorem foresees_refl (s : State) : Foresees s s := ⟨[], by simp, rfl⟩

theorem foresees_trans {s x y : State} (hx : Foresees s x) (hy : Foresees x y) : Foresees s y := by
  obtain ⟨es, hes, hcoming⟩ := hx
  obtain ⟨fs, hfs, hcoming'⟩ := hy
  exact ⟨es ++ fs, by rw [hfs, hes, List.append_assoc], by
    rw [hcoming, hcoming', List.filterMap_append, List.append_assoc]⟩

/-- The next micro-operation of the list records the store foreseen of it. -/
theorem foresees_perform {x : State} {cmd : Instr} {k : Nat} {m : MicroOp} {ms : List MicroOp}
    (hop : x.op = some (cmd, k)) (hnext : (microOps cmd x.params x.rc).drop k = m :: ms) :
    Foresees x (x.perform m) := by
  obtain ⟨es, htrace, hstores, ht⟩ := perform_stores x m
  have hop' : (x.perform m).op = some (cmd, k + 1) := by rw [perform_op, hop]; rfl
  have hrest : (microOps cmd x.params x.rc).drop (k + 1) = ms := by rw [← List.tail_drop, hnext]; rfl
  have hcons : storesOf x.params x.t (m :: ms)
      = storesOf x.params x.t [m] ++ storesOf x.params (x.t + m.cycles x.params) ms := by simp [storesOf]
  refine ⟨es, htrace, ?_⟩
  rw [coming_inProgress hop, coming_inProgress hop', perform_params, perform_rc, perform_refused, perform_host, hnext,
    hrest, ht, hcons, hstores, opsCycles, List.append_assoc, Nat.add_assoc]

/-- The end of an operation records no store, and none of its list was still foreseen. -/
theorem foresees_endOp {x : State} {cmd : Instr} {k : Nat} (hop : x.op = some (cmd, k))
    (hdone : (microOps cmd x.params x.rc).drop k = []) : Foresees x (x.endOp cmd) := by
  refine ⟨_, endOp_trace x cmd, ?_⟩
  rw [coming_inProgress hop, coming_between (endOp_op x cmd), endOp_refused, endOp_params, endOp_t, endOp_host, hdone]
  rfl

/-- With an empty queue nothing is foreseen while time passes. -/
theorem foresees_pass {x : State} (g : Nat) (hop : x.op = none) (hh : x.host = []) : Foresees x (x.pass g) := by
  have hop' : (x.pass g).op = none := hop
  refine ⟨[], by simp, ?_⟩
  rw [coming_between hop, coming_between hop', pass_refused, pass_host, hh]
  rfl

/-- A command the host hands over makes its list's stores. -/
theorem foresees_take {x : State} {i : Issue} {rest : List Issue} {cmd : Instr} (hop : x.op = none)
    (hr : x.refused = false) (hh : x.host = i :: rest) (hd : decode i.word = .command cmd) :
    Foresees x ((x.take i rest).beginOp cmd) := by
  refine ⟨_, beginOp_trace _ cmd, ?_⟩
  rw [coming_between hop, coming_inProgress (beginOp_op _ cmd), hh, queueStores_command x.rc hd]
  simp [hr, Event.pinStore]

/-- A refused word makes none, and ends the run. -/
theorem foresees_refuse {x : State} {i : Issue} {rest : List Issue} {c : RefuseCode} (hop : x.op = none)
    (hh : x.host = i :: rest) (hd : decode i.word = .refuse c) : Foresees x ((x.take i rest).refuse i.word c) := by
  have hop' : ((x.take i rest).refuse i.word c).op = none := hop
  refine ⟨_, refuse_trace _ _ _, ?_⟩
  rw [coming_between hop, coming_between hop', hh, queueStores_refuse hd]
  simp [Event.pinStore]

/-! ### ADDR and its stores (R65) -/

/-- ADDR in `x` is the last value recorded as stored into it since `s`, or what it was in `s`. -/
def AddrByStores (s x : State) : Prop :=
  ∃ es, x.trace = s.trace ++ es ∧ x.addr = (es.filterMap Event.addrStored).getLastD s.addr

theorem addrByStores_trans {s x y : State} (hx : AddrByStores s x) (hy : AddrByStores x y) : AddrByStores s y := by
  obtain ⟨es, hes, haddr⟩ := hx
  obtain ⟨fs, hfs, haddr'⟩ := hy
  refine ⟨es ++ fs, by rw [hfs, hes, List.append_assoc], ?_⟩
  rw [haddr', haddr, List.filterMap_append]
  simp only [List.getLastD_eq_getLast?, List.getLast?_append, Option.or_eq_orElse]
  cases (fs.filterMap Event.addrStored).getLast? <;> rfl

/-- What records no ADDR store and leaves ADDR alone. -/
theorem addrByStores_of_none {s x : State} {es : List Event} (htrace : x.trace = s.trace ++ es)
    (hnone : es.filterMap Event.addrStored = []) (haddr : x.addr = s.addr) : AddrByStores s x :=
  ⟨es, htrace, by rw [hnone, haddr]; rfl⟩

theorem addrByStores_perform (x : State) (m : MicroOp) : AddrByStores x (x.perform m) := by
  cases m with
  | stAddr v => exact ⟨_, rfl, rfl⟩
  | nop => exact addrByStores_of_none (List.append_nil _).symm rfl rfl
  | stA8 b => exact addrByStores_of_none rfl rfl rfl
  | stCtrl v => exact addrByStores_of_none rfl rfl rfl
  | stDin b => exact addrByStores_of_none rfl rfl rfl
  | sample => exact addrByStores_of_none rfl rfl rfl

/-- Over every step ADDR changes only by the stores it records. -/
theorem step_addrByStores {s t : State} (h : step s = .next t) : AddrByStores s t :=
  step_keeps (P := AddrByStores s)
    (hperform := fun m x hx => addrByStores_trans hx (addrByStores_perform x m))
    (hbegin := fun cmd x hx => addrByStores_trans hx (addrByStores_of_none (beginOp_trace x cmd) rfl rfl))
    (hend := fun cmd x hx => addrByStores_trans hx (addrByStores_of_none (endOp_trace x cmd) rfl (endOp_addr x cmd)))
    (hpass := fun _ _ hx => hx)
    (hhost := fun _ _ hx => hx)
    (hrefuse := fun w c x hx => addrByStores_trans hx (addrByStores_of_none (refuse_trace x w c) rfl rfl))
    ⟨[], by simp, rfl⟩ h

end Sys2Proof.Proofs
end

section
/-! SUPPORT. The driver along an operation (40_timing_primitives.md R63-R71): its registers, its time and its trace
after each part of a list, whatever the DRAM does meanwhile, and that no part of it looks at the DRAM. -/

namespace Sys2Proof.Proofs

open Sys2Proof.Machine Sys2Proof.Laws

/-! ### The parts of a list -/

/-- `x` is `y` but for the DRAM and the place in the operation's list. -/
def SameButDram (x y : State) : Prop := ∃ op d, x = { y with op := op, dram := d }

section
variable {x y : State}

theorem sameButDram_beginOp (s : State) (cmd : Instr) :
    SameButDram (s.beginOp cmd) { s with readSample := none, trace := s.trace ++ [.opBegin cmd s.t] } :=
  ⟨some (cmd, 0), s.dram, rfl⟩

theorem sameButDram_stAddr (a : Byte) (h : SameButDram x y) : SameButDram (x.perform (.stAddr a)) { y with
    addr := a
    t := y.t + y.params.cSt
    trace := y.trace ++ [.store (.addr y.addr a) y.t (y.t + y.params.cSt)] } := by
  obtain ⟨op, d, rfl⟩ := h
  exact ⟨_, _, rfl⟩

theorem sameButDram_stCtrl (v : CtrlValue) (h : SameButDram x y) : SameButDram (x.perform (.stCtrl v)) { y with
    ctrl := v.bits
    t := y.t + y.params.cSt
    trace := y.trace ++ [.store (.ctrl y.ctrl v.bits) y.t (y.t + y.params.cSt)] } := by
  obtain ⟨op, d, rfl⟩ := h
  exact ⟨_, _, rfl⟩

theorem sameButDram_stDin (b : Bit) (h : SameButDram x y) : SameButDram (x.perform (.stDin b)) { y with
    din := b
    t := y.t + y.params.cDin
    trace := y.trace ++ [.store (.din y.din b) y.t (y.t + y.params.cDin)] } := by
  obtain ⟨op, d, rfl⟩ := h
  exact ⟨_, _, rfl⟩

/-- The A8 store of a phase, made where its high operand is present (R66). -/
theorem sameButDram_a8Ops (o : Option Bit) (h : SameButDram x y) : SameButDram (x.runOps (a8Ops o)) { y with
    a8 := o.getD y.a8
    t := y.t + present o * y.params.cA8
    trace := y.trace ++ a8StoreEvents y.params o y.a8 y.t } := by
  obtain ⟨op, d, rfl⟩ := h
  cases o with
  | none => exact ⟨op, d, by simp [a8Ops, present, a8StoreEvents]⟩
  | some b => exact ⟨_, _, by simp [a8Ops, present, a8StoreEvents]; rfl⟩

theorem sameButDram_wait (n : Nat) (h : SameButDram x y) :
    SameButDram (x.runOps (waitOps n)) { y with t := y.t + n } := by
  obtain ⟨op, d, rfl⟩ := h
  exact ⟨_, _, runOps_wait n _⟩

/-- A sample: some bit is recorded and handed on; only the draws say whether it was drawn (R70). -/
theorem sameButDram_sample (h : SameButDram x y) : ∃ q n, SameButDram (x.perform .sample) { y with
    t := y.t + y.params.cIn
    trace := y.trace ++ [.sample q y.t ((y.t : Int) - y.params.lIn)]
    readSample := some q
    draws := n } := by
  obtain ⟨op, d, rfl⟩ := h
  exact ⟨_, _, _, _, rfl⟩

/-- An address phase (R77, R79, R84): its ADDR store, its A8 store and its CTRL store, one after the other. -/
theorem sameButDram_phase (a : Byte) (o : Option Bit) (v : CtrlValue) (h : SameButDram x y) :
    let τ := y.t + 2 * y.params.cSt + present o * y.params.cA8
    SameButDram (x.runOps ([.stAddr a] ++ a8Ops o ++ [.stCtrl v])) { y with
      addr := a
      a8 := o.getD y.a8
      ctrl := v.bits
      t := τ
      trace := y.trace ++ ([.store (.addr y.addr a) y.t (y.t + y.params.cSt)]
        ++ a8StoreEvents y.params o y.a8 (y.t + y.params.cSt) ++ [.store (.ctrl y.ctrl v.bits) (τ - y.params.cSt) τ]) } := by
  intro τ
  have hτ : y.t + y.params.cSt + present o * y.params.cA8 + y.params.cSt = τ := by omega
  have hτ' : y.t + y.params.cSt + present o * y.params.cA8 = τ - y.params.cSt := by omega
  have h := sameButDram_stCtrl v (sameButDram_a8Ops o (sameButDram_stAddr a h))
  dsimp only at h
  rw [hτ, hτ'] at h
  simpa only [runOps_append, runOps_cons, runOps_nil, List.append_assoc] using h

/-- The end of a pulse: a wait, and CTRL_DEFAULT again (R75). -/
theorem sameButDram_pulseEnd (n : Nat) (h : SameButDram x y) :
    SameButDram (x.runOps (waitOps n ++ [.stCtrl .default])) { y with
      ctrl := 0x1F
      t := y.t + n + y.params.cSt
      trace := y.trace ++ [.store (.ctrl y.ctrl 0x1F) (y.t + n) (y.t + n + y.params.cSt)] } := by
  rw [runOps_append]
  exact sameButDram_stCtrl .default (sameButDram_wait n h)

end

/-- An operation answers the state its list leads to, ended. -/
theorem exec_of_sameButDram {i : Instr} {s y : State} (hc : s.ctrl = 0x1F)
    (h : SameButDram ((s.beginOp i).runOps (microOps i s.params s.rc)) y) :
    ∃ d, exec i s = .next { y with
      rc := if i = .refresh then y.rc + 1 else y.rc
      op := none
      trace := y.trace ++ [.opEnd i y.t]
      dram := d } := by
  rw [exec_run hc]
  obtain ⟨op, d, h⟩ := h
  rw [h]
  exact ⟨d, by cases i <;> rfl⟩


/-- A data cycle up to its CAS fall: the row's phase, a wait, the column's phase (R77, R79). -/
theorem sameButDram_toCas {x y : State} (mode : CasMode) (row col : Byte) (rh ch : Option Bit) (h : SameButDram x y) :
    let p := y.params
    let τ1 := y.t + p.cSt
    let τR := y.t + 2 * p.cSt + present rh * p.cA8
    let τ2 := τR + p.dRcd + p.cSt
    let τC := τR + p.dRcd + 2 * p.cSt + present ch * p.cA8
    SameButDram (x.runOps (toCas p mode row col rh ch)) { y with
      addr := col
      a8 := ch.getD (rh.getD y.a8)
      ctrl := (colValue mode).bits
      t := τC
      trace := y.trace ++ ([.store (.addr y.addr row) y.t τ1] ++ a8StoreEvents p rh y.a8 τ1
        ++ [.store (.ctrl y.ctrl (rowValue mode).bits) (τR - p.cSt) τR, .store (.addr row col) (τR + p.dRcd) τ2]
        ++ a8StoreEvents p ch (rh.getD y.a8) τ2
        ++ [.store (.ctrl (rowValue mode).bits (colValue mode).bits) (τC - p.cSt) τC]) } := by
  have hphases := sameButDram_phase col ch (colValue mode)
    (sameButDram_wait y.params.dRcd (sameButDram_phase row rh (rowValue mode) h))
  simpa [toCas] using hphases

/-- A RAS-only cycle's list: its row's phase, and the rest of the RAS pulse (R82, R84). -/
theorem sameButDram_rasOnly {x y : State} (row : Byte) (rh : Option Bit) (h : SameButDram x y) :
    let p := y.params
    let τ1 := y.t + p.cSt
    let τR := y.t + 2 * p.cSt + present rh * p.cA8
    let τE := τR + p.dRas + p.cSt
    SameButDram (x.runOps (rasonlyOps p row rh)) { y with
      addr := row
      a8 := rh.getD y.a8
      ctrl := 0x1F
      t := τE
      trace := y.trace ++ ([.store (.addr y.addr row) y.t τ1] ++ a8StoreEvents p rh y.a8 τ1
        ++ [.store (.ctrl y.ctrl 0x1E) (τR - p.cSt) τR, .store (.ctrl 0x1E 0x1F) (τR + p.dRas) τE]) } := by
  have hpulse := sameButDram_pulseEnd y.params.dRas (sameButDram_phase row rh .rasOnly h)
  simpa [rasonlyOps, CtrlValue.bits] using hpulse

/-! ### No part of an operation looks at the DRAM (R72) -/

/-- The driver in `s'` is that in `s`: only the DRAM, the DOUT register, the draws and what samples returned differ. -/
def SameDriver (s s' : State) : Prop :=
  ∃ trace dram doutReset draws readSample,
    s' = { s with
      trace := trace, dram := dram, doutReset := doutReset, draws := draws, readSample := readSample }
    ∧ trace.map Event.unseen = s.trace.map Event.unseen

section
variable {s s' : State}

theorem sameDriver_beginOp (cmd : Instr) (h : SameDriver s s') : SameDriver (s.beginOp cmd) (s'.beginOp cmd) := by
  obtain ⟨trace, dram, doutReset, draws, readSample, rfl, htrace⟩ := h
  exact ⟨_, _, _, _, _, rfl, by simp [htrace]⟩

theorem sameDriver_endOp (cmd : Instr) (h : SameDriver s s') : SameDriver (s.endOp cmd) (s'.endOp cmd) := by
  obtain ⟨trace, dram, doutReset, draws, readSample, rfl, htrace⟩ := h
  exact ⟨trace ++ [.opEnd cmd s.t], _, _, _, _, by cases cmd <;> rfl, by simp [htrace]⟩

/-- A micro-operation of both makes the same store at the same time; a sample may return another bit. -/
theorem sameDriver_perform (m : MicroOp) (h : SameDriver s s') : SameDriver (s.perform m) (s'.perform m) := by
  obtain ⟨trace, dram, doutReset, draws, readSample, rfl, htrace⟩ := h
  cases m with
  | sample => exact ⟨_, _, _, _, _, rfl, by simp [State.perform, State.effect, State.pin, Event.unseen, htrace]⟩
  | _ => exact ⟨_, _, _, _, _, rfl, by simp [State.perform, State.effect, htrace]⟩

theorem sameDriver_runOps (ops : List MicroOp) (h : SameDriver s s') : SameDriver (s.runOps ops) (s'.runOps ops) := by
  induction ops generalizing s s' with
  | nil => exact h
  | cons m ms ih => exact ih (sameDriver_perform m h)

/-- An operation of both runs one list, which depends on the driver alone. -/
theorem sameDriver_exec {i : Instr} {t t' : State} (h : SameDriver s s') (he : exec i s = .next t)
    (he' : exec i s' = .next t') : SameDriver t t' := by
  obtain ⟨_, rfl⟩ := exec_next he
  obtain ⟨_, rfl⟩ := exec_next he'
  have hlist : microOps i s'.params s'.rc = microOps i s.params s.rc := by
    obtain ⟨_, _, _, _, _, rfl, _⟩ := h
    rfl
  rw [hlist]
  exact sameDriver_endOp i (sameDriver_runOps _ (sameDriver_beginOp i h))

end

end Sys2Proof.Proofs
end

section
/-! SUPPORT. The statements about the micro-operations, the operations and one step (40_timing_primitives.md), settled. -/

namespace Sys2Proof.Proofs

open Sys2Proof.Machine Sys2Proof.Laws

/-- Settles O50: CTRL follows the list in progress, and every list ends at CTRL_DEFAULT. -/
theorem portIdleBetweenOperations : Obligations.PortIdleBetweenOperations := fun _ hs =>
  ⟨step_ne_ctrlNotIdle hs, fun _ h =>
    step_keeps_at_index (P := State.portInv)
      (hperform := fun _ _ _ _ _ hop hnext hx => portInv_perform hop hnext hx)
      (hend := fun _ _ _ hop hdone hx => portInv_endOp hop hdone hx)
      (hidle := fun _ _ _ hx => hx)
      (hbegin := fun _ _ _ cmd hop _ _ _ hx => portInv_beginOp cmd hop hx)
      (hrefuse := fun _ _ _ _ _ _ _ hx => hx)
      hs h⟩

/-- Settles O5: of the micro-operations only `st_addr` changes ADDR, and it records its store. -/
theorem stAddrWritesAddr : Obligations.StAddrWritesAddr :=
  ⟨fun _ _ => ⟨rfl, rfl, rfl, fun _ h => perform_addr_ne h⟩, fun _ _ h => step_addrByStores h⟩

/-- Settles O6: A8 takes the bit, and only a high operand's store stands in a list. -/
theorem stA8WritesA8 : Obligations.StA8WritesA8 :=
  ⟨fun _ _ => ⟨rfl, rfl, rfl⟩, fun _ _ _ _ h => stA8_mem_microOps h⟩

/-- Settles O7: DIN takes the bit, and only SETDIN's list holds such a store. -/
theorem stDinWritesDin : Obligations.StDinWritesDin :=
  ⟨fun _ _ => ⟨rfl, rfl⟩, fun _ _ _ _ h => stDin_mem_microOps h⟩

/-- Settles O46: what a micro-operation records was foreseen of it, and the queue's next command of its list. -/
theorem foreseenStoresAreMade : Obligations.ForeseenStoresAreMade := fun s _ h =>
  step_keeps_at_index (P := Foresees s)
    (hperform := fun _ _ _ _ _ hop hnext hx => foresees_trans hx (foresees_perform hop hnext))
    (hend := fun _ _ _ hop hdone hx => foresees_trans hx (foresees_endOp hop hdone))
    (hidle := fun _ hop hh hx => foresees_trans hx (foresees_pass 1 hop hh))
    (hbegin := fun _ _ _ _ hop hr hh hd hx => foresees_trans hx (foresees_take hop hr hh hd))
    (hrefuse := fun _ _ _ _ hop hh hd hx => foresees_trans hx (foresees_refuse hop hh hd))
    (foresees_refl s) h

/-- Settles O10: a wait is as many no-ops as its count. -/
theorem waitsAdd : Obligations.WaitsAdd := by
  refine ⟨fun n s => ?_, fun a b s => ?_⟩
  · rw [runOps_wait]
  · rw [← runOps_append, waitOps, waitOps, List.replicate_append_replicate]; rfl

/-- Settles O8: a no-op is one cycle that passes. -/
theorem nopOnlyTakesACycle : Obligations.NopOnlyTakesACycle := fun _ => rfl

/-- Settles O41: the refusal sets `refused`, and a step finds it set. -/
theorem stepRefusesTheWord : Obligations.StepRefusesTheWord := fun s i rest c hop hr hh hd =>
  ⟨(s.take i rest).refuse i.word c, step_refuse hop hr hh hd, step_ended hop rfl, rfl⟩

/-- Settles O43: an operation starts by testing the port. -/
theorem ctrlNotIdleExactly : Obligations.CtrlNotIdleExactly := exec_fault_iff

/-- Settles O12: one CTRL store. -/
theorem idleResult : Obligations.IdleResult := by
  intro s hc
  have hrun := sameButDram_stCtrl .default (sameButDram_beginOp s .idle)
  obtain ⟨d, hd⟩ := exec_of_sameButDram (i := .idle) hc hrun
  exact ⟨_, hd, by simp [hc, CtrlValue.bits]⟩

/-- Settles O13: one DIN store. -/
theorem setdinResult : Obligations.SetdinResult := by
  intro s v hc
  have hrun := sameButDram_stDin v (sameButDram_beginOp s (.setdin v))
  obtain ⟨d, hd⟩ := exec_of_sameButDram (i := .setdin v) hc hrun
  exact ⟨_, hd, by simp⟩

/-- Settles O14: ERR falls, and the end of the pulse raises it. -/
theorem errpulseResult : Obligations.ErrpulseResult := by
  intro s hc
  have hrun := sameButDram_pulseEnd s.params.dErr (sameButDram_stCtrl .err (sameButDram_beginOp s .errpulse))
  obtain ⟨d, hd⟩ := exec_of_sameButDram (i := .errpulse) hc hrun
  have hτE : s.t + s.params.cSt + s.params.dErr + s.params.cSt = s.t + 2 * s.params.cSt + s.params.dErr := by omega
  exact ⟨_, hd, by simp [hc, hτE, CtrlValue.bits]⟩

/-- Settles O15: its list is a wait. -/
theorem waitResult : Obligations.WaitResult := by
  intro s n hc
  have hrun := sameButDram_wait n.toNat (sameButDram_beginOp s (.wait n))
  obtain ⟨d, hd⟩ := exec_of_sameButDram (i := .wait n) hc hrun
  exact ⟨_, hd, by simp⟩

/-- Settles O16: it is the RAS-only cycle at RC without a high operand, after which RC advances. -/
theorem refreshResult : Obligations.RefreshResult := by
  intro s hc τR τE
  have hrun := sameButDram_rasOnly s.rc none (sameButDram_beginOp s .refresh)
  obtain ⟨d, hd⟩ := exec_of_sameButDram (i := .refresh) hc hrun
  have hfall : s.t + 2 * s.params.cSt - s.params.cSt = s.t + s.params.cSt := by omega
  exact ⟨_, hd, by simp [hc, hfall, τR, τE, present, a8StoreEvents]⟩

/-- Settles O17: it is the RAS-only cycle at its row. -/
theorem rasonlyResult : Obligations.RasonlyResult := by
  intro s row rh hc τ1 τR τE
  have hrun := sameButDram_rasOnly row rh (sameButDram_beginOp s (.rasonly row rh))
  obtain ⟨d, hd⟩ := exec_of_sameButDram (i := .rasonly row rh) hc hrun
  exact ⟨_, hd, by simp [hc, τ1, τR, τE]⟩

/-- Settles O18: a data cycle to its CAS fall, the wait for the data, the sample, and the lines back. -/
theorem readResult : Obligations.ReadResult := by
  intro s row col rh ch hc p τ1 τR τ2 τC τS τE
  have hcas := sameButDram_toCas .read row col rh ch (sameButDram_beginOp s (.read row col rh ch))
  obtain ⟨q, n, hsample⟩ := sameButDram_sample (sameButDram_wait p.dCac hcas)
  have hrun := sameButDram_stCtrl .default hsample
  have hlist (x : State) : (((x.runOps (toCas p .read row col rh ch)).runOps (waitOps p.dCac)).perform .sample).perform
      (.stCtrl .default) = x.runOps (readOps p row col rh ch) := by
    rw [readOps_eq, runOps_append, runOps_append]; rfl
  rw [hlist] at hrun
  obtain ⟨d, hd⟩ := exec_of_sameButDram (i := .read row col rh ch) hc hrun
  exact ⟨_, q, hd, by simp [hc, p, τ1, τR, τ2, τC, τS, τE, rowValue, colValue, CtrlValue.bits]⟩

/-- Settles O19: a data cycle to its CAS fall, and the end of the CAS pulse. -/
theorem writeResult : Obligations.WriteResult := by
  intro s row col rh ch hc p τ1 τR τ2 τC τE
  have hcas := sameButDram_toCas .write row col rh ch (sameButDram_beginOp s (.write row col rh ch))
  have hrun := sameButDram_pulseEnd p.dCas hcas
  rw [← runOps_append, ← writeOps_eq] at hrun
  obtain ⟨d, hd⟩ := exec_of_sameButDram (i := .write row col rh ch) hc hrun
  exact ⟨_, hd, by simp [hc, p, τ1, τR, τ2, τC, τE, rowValue, colValue, CtrlValue.bits]⟩

/-- Settles O48: both run one list, and no micro-operation looks at the DRAM but for the bit it returns. -/
theorem dramNeverSteersTheDriver : Obligations.DramNeverSteersTheDriver := by
  intro i s s' t t' hs he he'
  obtain ⟨_, _, _, _, _, rfl, htrace⟩ := sameDriver_exec ⟨s.trace, _, _, _, _, hs, rfl⟩ he he'
  exact ⟨htrace, rfl⟩

end Sys2Proof.Proofs
end

section
/-! SUPPORT. What the figures of R112 give (70_reset_and_hazards.md R111, R112): each group of predicates is met by the
times of R78, R80, R83 and R84, once the parameters meet the figures the group asks for. -/

namespace Sys2Proof.Proofs

open Sys2Proof.Machine Sys2Proof.Laws

/-! ### How far apart the times of a cycle lie (R78, R80, R83, R84) -/

section
variable (s : State) (rh ch : Option Bit)

theorem colAt_sub_rasAt : colAt s rh - rasAt s rh = s.params.dRcd + s.params.cSt := by
  simp only [colAt]; omega

theorem casAt_sub_rasAt :
    casAt s rh ch - rasAt s rh = s.params.dRcd + 2 * s.params.cSt + present ch * s.params.cA8 := by
  simp only [casAt, colAt]; omega

theorem cSt_le_casAt_sub_colAt : s.params.cSt ≤ casAt s rh ch - colAt s rh := by
  simp only [casAt]; omega

theorem cSt_le_rasAt_sub_rowAddr : s.params.cSt ≤ rasAt s rh - (s.t + s.params.cSt) := by
  simp only [rasAt]; omega

theorem le_casAt_sub_begin : s.params.dRcd + 4 * s.params.cSt ≤ casAt s rh ch - s.t := by
  simp only [casAt, colAt, rasAt]; omega

theorem readEnd_sub_casAt (row col : Byte) :
    s.t + opCycles s.params (.read row col rh ch) - casAt s rh ch
      = s.params.dCac + s.params.cIn + s.params.cSt := by
  rw [opCycles_read]; omega

theorem readEnd_sub_rasAt (row col : Byte) :
    s.t + opCycles s.params (.read row col rh ch) - rasAt s rh = readRasLow s.params ch := by
  rw [opCycles_read, readRasLow, casAt, colAt]; omega

theorem writeEnd_sub_casAt (row col : Byte) :
    s.t + opCycles s.params (.write row col rh ch) - casAt s rh ch = s.params.dCas + s.params.cSt := by
  rw [opCycles_write]; omega

theorem writeEnd_sub_rasAt (row col : Byte) :
    s.t + opCycles s.params (.write row col rh ch) - rasAt s rh = writeRasLow s.params ch := by
  rw [opCycles_write, writeRasLow, casAt, colAt]; omega

theorem rasonlyEnd_sub_rasAt (row : Byte) :
    s.t + opCycles s.params (.rasonly row rh) - rasAt s rh = s.params.dRas + s.params.cSt := by
  simp only [opCycles, rasAt]; omega

end

/-! ### The groups of predicates -/

section
variable {s : State} {rh ch : Option Bit}

/-- The last A8 store before RAS falls, the operation's own or an earlier one, lies at least a CTRL store back. -/
theorem cSt_le_rasAt_sub_rowA8At (ht : s.timeInv) {e : Nat} (he : rowA8At s rh = some e) :
    s.params.cSt ≤ rasAt s rh - e := by
  cases rh with
  | none =>
    have hpast : e ≤ s.t := ht.a8At e he
    simp only [rasAt]; omega
  | some b =>
    have hown : s.t + s.params.cSt + s.params.cA8 = e := Option.some.inj he
    simp only [rasAt, present]; omega

/-- So does the last one before CAS falls. -/
theorem cSt_le_casAt_sub_colA8At (ht : s.timeInv) {e : Nat} (he : colA8At s rh ch = some e) :
    s.params.cSt ≤ casAt s rh ch - e := by
  cases ch with
  | none =>
    have hrow := cSt_le_rasAt_sub_rowA8At ht he
    have hcas := casAt_le s rh none
    omega
  | some b =>
    have hown : colAt s rh + s.params.cA8 = e := Option.some.inj he
    simp only [casAt, present]; omega

/-- P5 and the setup of P6. -/
theorem rowBreaks_eq_false (ht : s.timeInv) (hasr : atLeast s.params s.params.cSt s.params.tAsr = true)
    (hpre : precharged s rh) : rowBreaks s rh = false := by
  have hP5 : tooRecent s.params (rasAt s rh) s.params.tRp s.dram.watch.prevRise = false := by
    cases hrise : s.dram.watch.prevRise with
    | none => rfl
    | some e => exact tooRecent_false (hpre e hrise) (Nat.le_refl _)
  have haddr := tooRecent_false hasr (cSt_le_rasAt_sub_rowAddr s rh)
  have ha8 : tooRecent s.params (rasAt s rh) s.params.tAsr (rowA8At s rh) = false :=
    tooRecent_false_of hasr fun _ he => cSt_le_rasAt_sub_rowA8At ht he
  simp [rowBreaks, hP5, haddr, ha8]

/-- P1, the row hold of P6 and the setup of P7. -/
theorem colBreaks_eq_false (ht : s.timeInv) (hT : addressTiming s.params ch) : colBreaks s rh ch = false := by
  obtain ⟨hrcd, -, hrah, hasc⟩ := hT
  have hP1 : atLeast s.params (casAt s rh ch - rasAt s rh) s.params.tRcd = true := by rwa [casAt_sub_rasAt]
  have haddrHold := inHold_false hrah (Nat.le_of_eq (colAt_sub_rasAt s rh).symm)
  have ha8Hold : inHold s.params (colAt s rh + s.params.cA8) (rasAt s rh) s.params.tRah = false :=
    inHold_false hrah (by have := colAt_sub_rasAt s rh; omega)
  have haddr := tooRecent_false hasc (cSt_le_casAt_sub_colAt s rh ch)
  have ha8 : tooRecent s.params (casAt s rh ch) s.params.tAsc (colA8At s rh ch) = false :=
    tooRecent_false_of hasc fun _ he => cSt_le_casAt_sub_colA8At ht he
  simp [colBreaks, hP1, haddrHold, ha8Hold, haddr, ha8]

/-- P8's setup and P9's. -/
theorem writeBreaks_eq_false (ht : s.timeInv) (hT : writeTiming s.params ch) : writeBreaks s rh ch = false := by
  obtain ⟨-, -, -, hwcs, hst, -, hds⟩ := hT
  have hafter : rasAt s rh < casAt s rh ch := by have := casAt_sub_rasAt s rh ch; omega
  have hwe : atLeast s.params (casAt s rh ch - rasAt s rh) s.params.tWcs = true := by rwa [casAt_sub_rasAt]
  have hdin : tooRecent s.params (casAt s rh ch) s.params.tDs s.dram.watch.dinAt = false :=
    tooRecent_false_of hds fun e he => by
      have hpast := ht.dinAt e he
      have hbegin := le_casAt_sub_begin s rh ch
      omega
  simp [writeBreaks, hafter, hwe, hdin]

/-- P2: READ looks at DOUT at least T_CAC after CAS has fallen. -/
theorem sampleBreaks_eq_false (hl : s.params.lIn ≤ s.params.dCac)
    (hcac : atLeast s.params (s.params.dCac - s.params.lIn) s.params.tCac = true) : sampleBreaks s rh ch = false := by
  have hP2 : inHold s.params (casAt s rh ch + s.params.dCac - s.params.lIn) (casAt s rh ch) s.params.tCac = false :=
    inHold_false hcac (by omega)
  simp [sampleBreaks, hl, hP2]

end

/-! ### The operations (R112) -/

section
variable {s : State}

theorem read_breaks_eq_false {row col : Byte} {rh ch : Option Bit} (ht : s.timeInv) (hT : readTiming s.params ch)
    (hpre : precharged s rh) : s.breaks (.read row col rh ch) = false := by
  obtain ⟨haddr, hl, hcac, hcas, hras⟩ := hT
  have ⟨_, hasr, _, _⟩ := haddr
  have hrow := rowBreaks_eq_false ht hasr hpre
  have hcol := colBreaks_eq_false (rh := rh) ht haddr
  have hsample := sampleBreaks_eq_false (rh := rh) (ch := ch) hl hcac
  have hP3 := inHold_false hcas (Nat.le_of_eq (readEnd_sub_casAt s rh ch row col).symm)
  have hP4 := inHold_false hras (Nat.le_of_eq (readEnd_sub_rasAt s rh ch row col).symm)
  simp only [sampleBreaks, Bool.or_eq_false_iff] at hsample
  simp only [State.breaks, hrow, hcol, hsample, hP3, hP4, Bool.or_false]

theorem write_breaks_eq_false {row col : Byte} {rh ch : Option Bit} (ht : s.timeInv) (hT : writeTiming s.params ch)
    (hpre : precharged s rh) : s.breaks (.write row col rh ch) = false := by
  have hwrite := writeBreaks_eq_false (rh := rh) ht hT
  obtain ⟨haddr, hcas, hras, -, -, hwch, -⟩ := hT
  have ⟨_, hasr, _, _⟩ := haddr
  have hrow := rowBreaks_eq_false ht hasr hpre
  have hcol := colBreaks_eq_false (rh := rh) ht haddr
  have hP8 := inHold_false hwch (Nat.le_of_eq (writeEnd_sub_casAt s rh ch row col).symm)
  have hP3 := inHold_false hcas (Nat.le_of_eq (writeEnd_sub_casAt s rh ch row col).symm)
  have hP4 := inHold_false hras (Nat.le_of_eq (writeEnd_sub_rasAt s rh ch row col).symm)
  simp only [State.breaks, hrow, hcol, hwrite, hP8, hP3, hP4, Bool.or_false]

theorem rasonly_breaks_eq_false {row : Byte} {rh : Option Bit} (ht : s.timeInv) (hT : rasOnlyTiming s.params)
    (hpre : precharged s rh) : s.breaks (.rasonly row rh) = false := by
  obtain ⟨hras, hasr⟩ := hT
  have hrow := rowBreaks_eq_false ht hasr hpre
  have hP4 := inHold_false hras (Nat.le_of_eq (rasonlyEnd_sub_rasAt s rh row).symm)
  simp only [State.breaks, hrow, hP4, Bool.or_false]

/-- REFRESH is timed as a RASONLY without a row-high operand. -/
theorem refresh_breaks_eq (row : Byte) : s.breaks .refresh = s.breaks (.rasonly row none) := by
  simp [State.breaks, opCycles, present]

end

end Sys2Proof.Proofs
end

section
/-! SUPPORT. The statements about reset, hazards and the lengths of the operations (70_reset_and_hazards.md), settled. -/

namespace Sys2Proof.Proofs

open Sys2Proof.Machine Sys2Proof.Laws

/-- Settles O20: an operation runs its whole list, and the list's micro-operations add up to R121's figure. -/
theorem cycleCounts : Obligations.CycleCounts := fun _ _ _ h => exec_t h

/-- Settles O30: of each operation that makes a cycle every group of predicates is met; the others break none. -/
theorem timingFiguresSuffice : Obligations.TimingFiguresSuffice := by
  intro s i ht hT hpre
  cases i with
  | read row col rh ch => exact read_breaks_eq_false ht hT hpre
  | write row col rh ch => exact write_breaks_eq_false ht hT hpre
  | refresh => rw [refresh_breaks_eq s.rc]; exact rasonly_breaks_eq_false ht hT hpre
  | rasonly row rh => exact rasonly_breaks_eq_false ht hT hpre
  | idle => rfl
  | wait n => rfl
  | setdin v => rfl
  | errpulse => rfl

end Sys2Proof.Proofs
end
